-- ==== Sys2Proof/Word.lean ====
section
/-! DEFINITION. The machine's bit-vector types: bytes, 16-bit rows and cursor coordinates, 32-bit registers
(spec/10_state.md R30, spec/00_scope.md R14). -/

namespace Sys2Proof

/-- 8 bits: a framebuffer byte, a bus byte, a character code, an opcode. -/
abbrev Byte := BitVec 8

/-- 16 bits: a glyph row word (R13) or a cursor coordinate (R33). -/
abbrev Half := BitVec 16

/-- 32 bits: a register of the host's window (R40). -/
abbrev Word := BitVec 32

end Sys2Proof
end

