-- ==== Sys2Proof/Config.lean ====
section
/-! DEFINITION. What one engine is configured with (spec/00_scope.md R12, R13) and the values the spec leaves free.
The record is plain data. It is a field of State (log 1), so a statement over all states holds for every configuration. -/

namespace Sys2Proof

/-- The answer of the presence probe (R86). -/
inductive ProbeAnswer where
  | ready
  | notReady
  deriving DecidableEq, Repr, Inhabited

/-- A font (R13): `count` glyphs for the codes `base .. base + count - 1`, each `width` by `height` pixels. `rows` is the
flat table of R83: row `i` of glyph `g` is word `g * height + i`. -/
structure Font where
  base : Nat
  count : Nat
  width : Nat
  height : Nat
  rows : List Half
  deriving DecidableEq, Repr

/-- `AUTO_FLUSH` (R12, D7): whether DRAW_LINE and successful strings end with a page transfer. -/
inductive FlushPolicy where
  | original
  | explicit
  deriving DecidableEq, Repr

/-- `BUS_GATE` (R12, D8): whether bus commands need `initialized`. -/
inductive GatePolicy where
  | gated
  | ungated
  deriving DecidableEq, Repr

/-- The four scrolls (R233). -/
inductive ScrollKind where
  | right
  | left
  | diagRight
  | diagLeft
  deriving DecidableEq, Repr

/-- One byte of a scroll list: a fixed byte, or one of the two page operands. -/
inductive ScrollByte where
  | lit (b : Byte)
  | startPage
  | endPage
  deriving DecidableEq, Repr

/-- The bytes a scroll list holds for one particular page range. -/
structure ScrollCase where
  startPage : Byte
  endPage : Byte
  bytes : List Byte
  deriving DecidableEq, Repr

/-- A part of a scroll list as a function of the page range, in plain data: a template, and the page ranges whose bytes
are listed because the template does not give them. The page ranges are finitely many, so every function is of this form
(log 12). -/
structure ScrollPart where
  template : List ScrollByte
  special : List ScrollCase
  deriving DecidableEq, Repr

/-- `SCROLL_SEQ` (R12, R233) in parts: a horizontal list is its body and then the scroll-activate command; a diagonal list
is `pre`, the programming of a vertical scroll area of all rows, `post`, and then the scroll-activate command. -/
structure ScrollLists where
  right : ScrollPart
  left : ScrollPart
  diagRightPre : ScrollPart
  diagRightPost : ScrollPart
  diagLeftPre : ScrollPart
  diagLeftPost : ScrollPart
  verticalArea : List Byte
  activate : List Byte
  deriving DecidableEq, Repr

/-- What the platform fixes before the engine runs: the configuration record of R12, and where the register window sits
(spec/70_reset_and_hazards.md R283; source memory, which R283 names with them, is `State.src`). `displayOn` is the display-on
command with which `INIT_SCRIPT` must end (log 13). `windowBase` is the host's address of the window's offset 0, any number:
the spec gives the host's addresses no width (spec/20_memory.md R88; log 27). -/
structure Config where
  width : Nat
  height : Nat
  fonts : List Font
  devAddr : Byte
  probeTimeout : Nat
  pageSel : List Byte
  colLo : Byte
  colHi : Byte
  displayOn : Byte
  initScript : List Byte
  powerOnSeq : List Byte
  powerOffSeq : List Byte
  invOnCmd : List Byte
  invOffCmd : List Byte
  scrolls : ScrollLists
  stopScrollSeq : List Byte
  xferCap : Nat
  autoFlush : FlushPolicy
  busGate : GatePolicy
  windowBase : Nat
  deriving DecidableEq, Repr

/-- `P = H / 8`, the number of pages (R11). -/
def Config.pages (c : Config) : Nat := c.height / 8

/-- `N = W * P`, the number of framebuffer bytes (R11, R31). -/
def Config.size (c : Config) : Nat := c.width * c.pages

/-- The register selector that opens a command stream (R12, R84). -/
def selCmd : Byte := 0x00

/-- The register selector that opens a data stream (R12, R84). -/
def selData : Byte := 0x40

/-! ## Free values -/

/-- The answer of the `n`-th probe that the state's list of answers does not hold: any value (R86, I2; log 4). -/
opaque Config.freeProbe : Nat → ProbeAnswer

/-- What a read returns that the engine gives no value, drawn with index `n`: any value. Such are the reads that R287 leaves
undefined while `BUSY = 1` (I13; log 8), and reads outside the register window (log 27). -/
opaque Config.freeRead : Nat → Word

/-! ## The configuration of `State.reset` (log 2): CFG-A of spec/95_test_vectors.md section 0 -/

/-- The test font TF0 of spec/95_test_vectors.md: the codes 0x2B to 0x39. -/
def fontTF0 : Font where
  base := 0x2B
  count := 15
  width := 2
  height := 2
  rows := (List.range 15).flatMap fun g => [BitVec.ofNat 16 (g % 4 * 2 ^ 14), BitVec.ofNat 16 (g / 4 % 4 * 2 ^ 14)]

/-- The test font TF1 of spec/95_test_vectors.md: 'A' and 'B'. -/
def fontTF1 : Font where
  base := 0x41
  count := 2
  width := 4
  height := 2
  rows := [0xA000, 0x6000, 0xF000, 0x9000]

/-- The scroll lists of spec/95_test_vectors.md section 0 for a panel whose vertical scroll area is programmed with the
byte `rows`. -/
def testScrolls (rows : Byte) : ScrollLists where
  right := { template := [.lit 0x26, .lit 0x00, .startPage, .lit 0x00, .endPage, .lit 0x00, .lit 0xFF], special := [] }
  left := { template := [.lit 0x27, .lit 0x00, .startPage, .lit 0x00, .endPage, .lit 0x00, .lit 0xFF], special := [] }
  diagRightPre := { template := [], special := [] }
  diagRightPost := { template := [.lit 0x29, .lit 0x00, .startPage, .lit 0x00, .endPage, .lit 0x01], special := [] }
  diagLeftPre := { template := [], special := [] }
  diagLeftPost := { template := [.lit 0x2A, .lit 0x00, .startPage, .lit 0x00, .endPage, .lit 0x01], special := [] }
  verticalArea := [0xA3, 0x00, rows]
  activate := [0x2F]

/-- CFG-A of spec/95_test_vectors.md: a 128 by 64 panel, both policies at their defaults. DESIGN CHOICE (log 2): the spec gives
two of its values nowhere, so `probeTimeout := 1` (R12 leaves `PROBE_TIMEOUT` open, and no rule reads it) and
`windowBase := 0` (R88 leaves it to the platform) are the model's, not CFG-A's. -/
def Config.cfgA : Config where
  width := 128
  height := 64
  fonts := [fontTF0, fontTF1]
  devAddr := 0x3C
  probeTimeout := 1
  pageSel := [0xB0, 0xB1, 0xB2, 0xB3, 0xB4, 0xB5, 0xB6, 0xB7]
  colLo := 0x00
  colHi := 0x10
  displayOn := 0xAF
  initScript := [0xAE, 0x20, 0x10, 0x8D, 0x14, 0xAF]
  powerOnSeq := [0x8D, 0x14, 0xAF]
  powerOffSeq := [0x8D, 0x10, 0xAE]
  invOnCmd := [0xA7]
  invOffCmd := [0xA6]
  scrolls := testScrolls 0x40
  stopScrollSeq := [0x2E]
  xferCap := 128
  autoFlush := .original
  busGate := .gated
  windowBase := 0

end Sys2Proof
end

