-- ==== Sys2Proof/Syntax.lean ====
section
/-! DEFINITION. The commands of the engine as syntax: one constructor per row of spec/opcode_table.json
(spec/30_encoding.md R104). Operands stand in the order of R110 and are the mathematical integers R103 reads from the
operand registers; `WellFormed` says which integers a field can hold. -/

namespace Sys2Proof

/-- `BLACK = 0`, `WHITE = 1` (spec/00_scope.md R16). -/
inductive Color where
  | black
  | white
  deriving DecidableEq, Repr

/-- `not c = 1 - c` (R16). -/
def Color.not : Color → Color
  | .black => .white
  | .white => .black

/-- A command with its operands. -/
inductive Instr where
  | nop
  | fill (color : Color)
  | writePixel (x y : Nat) (color : Color)
  | toggleInvert
  | setCursor (x y : Nat)
  | drawLine (x0 y0 x1 y1 : Int) (color : Color)
  | drawBitmap (x y src w h : Nat) (color : Color)
  | drawChar (ch : Byte) (font : Nat) (color : Color)
  | drawString (x y src font : Nat) (color : Color)
  | drawNumber (x y value font : Nat) (color : Color)
  | drawSignedNumber (x y : Nat) (value : Int) (font : Nat) (color : Color)
  | update
  | clear
  | init
  | setPower (on : Bool)
  | invertHw (on : Bool)
  | scrollRight (startPage endPage : Byte)
  | scrollLeft (startPage endPage : Byte)
  | scrollDiagRight (startPage endPage : Byte)
  | scrollDiagLeft (startPage endPage : Byte)
  | stopScroll
  deriving DecidableEq, Repr

end Sys2Proof
end

