-- ==== Sys2Proof/WellFormed.lean ====
section
/-! DEFINITION. Which instructions are well-formed: every operand lies in the range its field can hold
(spec/30_encoding.md R102, R103; an operand outside it is an assembly error, R110). Byte, colour and on/off operands need
no check: their types hold exactly the field's values. -/

namespace Sys2Proof

/-- The values of an unsigned field of `n` bits (R14). -/
def fitsU (n v : Nat) : Bool := decide (v < 2 ^ n)

/-- The values of a two's complement field of `n` bits (R14). -/
def fitsS (n : Nat) (v : Int) : Bool := decide (-(2 ^ (n - 1) : Int) ≤ v ∧ v < 2 ^ (n - 1))

/-- Every operand is in its field's range. -/
def Instr.wf : Instr → Bool
  | .nop => true
  | .fill _ => true
  | .writePixel x y _ => fitsU 16 x && fitsU 16 y
  | .toggleInvert => true
  | .setCursor x y => fitsU 16 x && fitsU 16 y
  | .drawLine x0 y0 x1 y1 _ => fitsS 16 x0 && fitsS 16 y0 && fitsS 16 x1 && fitsS 16 y1
  | .drawBitmap x y src w h _ => fitsU 16 x && fitsU 16 y && fitsU 32 src && fitsU 16 w && fitsU 16 h
  | .drawChar _ font _ => fitsU 8 font
  | .drawString x y src font _ => fitsU 16 x && fitsU 16 y && fitsU 32 src && fitsU 8 font
  | .drawNumber x y value font _ => fitsU 16 x && fitsU 16 y && fitsU 32 value && fitsU 8 font
  | .drawSignedNumber x y value font _ => fitsU 16 x && fitsU 16 y && fitsS 32 value && fitsU 8 font
  | .update => true
  | .clear => true
  | .init => true
  | .setPower _ => true
  | .invertHw _ => true
  | .scrollRight _ _ => true
  | .scrollLeft _ _ => true
  | .scrollDiagRight _ _ => true
  | .scrollDiagLeft _ _ => true
  | .stopScroll => true

/-- The instruction's operands fit their fields. -/
abbrev WellFormed (i : Instr) : Prop := i.wf = true

end Sys2Proof
end

