-- ==== Sys2Proof/Decode.lean ====
section
/-! DEFINITION. From register values to an instruction and back: the operand fields (spec/30_encoding.md R102), how each is
read (R103), the opcode map (R104), illegal opcodes (R107), the encoder (R111), the pseudo-commands (R114). -/

namespace Sys2Proof

/-- What a command is decoded from: the opcode byte and the four operand registers (R100). -/
structure CommandWords where
  opcode : Byte
  arg0 : Word
  arg1 : Word
  arg2 : Word
  arg3 : Word
  deriving DecidableEq, Repr

/-- Why a command is not decoded. -/
inductive DecodeError where
  /-- The opcode is not in R104 (R107). -/
  | illegalOpcode (opcode : Byte)
  deriving DecidableEq, Repr

/-- `v[hi:lo]` as an unsigned value (R14). -/
def bits (v : Word) (hi lo : Nat) : Nat := v.toNat / 2 ^ lo % 2 ^ (hi - lo + 1)

/-- The two's complement reading of an unsigned `n`-bit value (`s16`, `s32` of R14). -/
def signed (n v : Nat) : Int := if v < 2 ^ (n - 1) then (v : Int) else (v : Int) - 2 ^ n

/-- The two's complement pattern of `v` in `n` bits (R111). -/
def unsigned (n : Nat) (v : Int) : Nat := (v % 2 ^ n).toNat

/-! ## Fields (R102) -/

/-- `X = ARG0[15:0]`. -/
def CommandWords.x (w : CommandWords) : Nat := bits w.arg0 15 0
/-- `Y = ARG0[31:16]`. -/
def CommandWords.y (w : CommandWords) : Nat := bits w.arg0 31 16
/-- `SP = ARG0[7:0]`. -/
def CommandWords.sp (w : CommandWords) : Byte := BitVec.ofNat 8 (bits w.arg0 7 0)
/-- `EP = ARG0[23:16]`. -/
def CommandWords.ep (w : CommandWords) : Byte := BitVec.ofNat 8 (bits w.arg0 23 16)
/-- `X1 = BW = ARG1[15:0]`. -/
def CommandWords.x1 (w : CommandWords) : Nat := bits w.arg1 15 0
/-- `Y1 = BH = ARG1[31:16]`. -/
def CommandWords.y1 (w : CommandWords) : Nat := bits w.arg1 31 16
/-- `VALUE = ARG1[31:0]`. -/
def CommandWords.value (w : CommandWords) : Nat := bits w.arg1 31 0
/-- `SRC = ARG2[31:0]`. -/
def CommandWords.src (w : CommandWords) : Nat := bits w.arg2 31 0
/-- `C = ARG3[0]` as the on/off flag. -/
def CommandWords.on (w : CommandWords) : Bool := bits w.arg3 0 0 == 1
/-- `C = ARG3[0]` as a colour. -/
def CommandWords.color (w : CommandWords) : Color := if w.on then .white else .black
/-- `FONT = ARG3[15:8]`. -/
def CommandWords.font (w : CommandWords) : Nat := bits w.arg3 15 8
/-- `CH = ARG3[23:16]`. -/
def CommandWords.ch (w : CommandWords) : Byte := BitVec.ofNat 8 (bits w.arg3 23 16)

/-! ## Decoding -/

/-- The opcode map (R104) with each command's operands (R103). Total; bits a command does not read are ignored
(R50, R109; log 10). -/
def decode (w : CommandWords) : Except DecodeError Instr :=
  match w.opcode with
  | 0x00#8 => .ok .nop
  | 0x01#8 => .ok (.fill w.color)
  | 0x02#8 => .ok (.writePixel w.x w.y w.color)
  | 0x03#8 => .ok .toggleInvert
  | 0x04#8 => .ok (.setCursor w.x w.y)
  | 0x10#8 => .ok (.drawLine (signed 16 w.x) (signed 16 w.y) (signed 16 w.x1) (signed 16 w.y1) w.color)
  | 0x11#8 => .ok (.drawBitmap w.x w.y w.src w.x1 w.y1 w.color)
  | 0x20#8 => .ok (.drawChar w.ch w.font w.color)
  | 0x21#8 => .ok (.drawString w.x w.y w.src w.font w.color)
  | 0x22#8 => .ok (.drawNumber w.x w.y w.value w.font w.color)
  | 0x23#8 => .ok (.drawSignedNumber w.x w.y (signed 32 w.value) w.font w.color)
  | 0x30#8 => .ok .update
  | 0x31#8 => .ok .clear
  | 0x40#8 => .ok .init
  | 0x41#8 => .ok (.setPower w.on)
  | 0x42#8 => .ok (.invertHw w.on)
  | 0x43#8 => .ok (.scrollRight w.sp w.ep)
  | 0x44#8 => .ok (.scrollLeft w.sp w.ep)
  | 0x45#8 => .ok (.scrollDiagRight w.sp w.ep)
  | 0x46#8 => .ok (.scrollDiagLeft w.sp w.ep)
  | 0x47#8 => .ok .stopScroll
  | op => .error (.illegalOpcode op)

/-! ## Encoding -/

/-- The bit a colour is encoded as. -/
def Color.bit : Color → Nat
  | .black => 0
  | .white => 1

/-- Two 16-bit fields in one operand word. -/
def halves (lo hi : Nat) : Word := BitVec.ofNat 32 (lo + hi * 2 ^ 16)

/-- `ARG3` from `C`, `FONT` and `CH`. -/
def arg3Of (c font ch : Nat) : Word := BitVec.ofNat 32 (c + font * 2 ^ 8 + ch * 2 ^ 16)

/-- The register values of an instruction, bits it does not read being zero (R111). -/
def encode : Instr → CommandWords
  | .nop => ⟨0x00, 0, 0, 0, 0⟩
  | .fill c => ⟨0x01, 0, 0, 0, arg3Of c.bit 0 0⟩
  | .writePixel x y c => ⟨0x02, halves x y, 0, 0, arg3Of c.bit 0 0⟩
  | .toggleInvert => ⟨0x03, 0, 0, 0, 0⟩
  | .setCursor x y => ⟨0x04, halves x y, 0, 0, 0⟩
  | .drawLine x0 y0 x1 y1 c =>
    ⟨0x10, halves (unsigned 16 x0) (unsigned 16 y0), halves (unsigned 16 x1) (unsigned 16 y1), 0, arg3Of c.bit 0 0⟩
  | .drawBitmap x y src w h c => ⟨0x11, halves x y, halves w h, BitVec.ofNat 32 src, arg3Of c.bit 0 0⟩
  | .drawChar ch f c => ⟨0x20, 0, 0, 0, arg3Of c.bit f ch.toNat⟩
  | .drawString x y src f c => ⟨0x21, halves x y, 0, BitVec.ofNat 32 src, arg3Of c.bit f 0⟩
  | .drawNumber x y v f c => ⟨0x22, halves x y, BitVec.ofNat 32 v, 0, arg3Of c.bit f 0⟩
  | .drawSignedNumber x y v f c => ⟨0x23, halves x y, BitVec.ofNat 32 (unsigned 32 v), 0, arg3Of c.bit f 0⟩
  | .update => ⟨0x30, 0, 0, 0, 0⟩
  | .clear => ⟨0x31, 0, 0, 0, 0⟩
  | .init => ⟨0x40, 0, 0, 0, 0⟩
  | .setPower on => ⟨0x41, 0, 0, 0, arg3Of on.toNat 0 0⟩
  | .invertHw on => ⟨0x42, 0, 0, 0, arg3Of on.toNat 0 0⟩
  | .scrollRight s e => ⟨0x43, halves s.toNat e.toNat, 0, 0, 0⟩
  | .scrollLeft s e => ⟨0x44, halves s.toNat e.toNat, 0, 0, 0⟩
  | .scrollDiagRight s e => ⟨0x45, halves s.toNat e.toNat, 0, 0, 0⟩
  | .scrollDiagLeft s e => ⟨0x46, halves s.toNat e.toNat, 0, 0, 0⟩
  | .stopScroll => ⟨0x47, 0, 0, 0, 0⟩

/-! ## Pseudo-commands (R114): other spellings of core commands -/

/-- `SET_PIXEL x, y`. -/
def Instr.setPixel (x y : Nat) : Instr := .writePixel x y .white
/-- `CLEAR_PIXEL x, y`. -/
def Instr.clearPixel (x y : Nat) : Instr := .writePixel x y .black
/-- `POWER_ON`. -/
def Instr.powerOn : Instr := .setPower true
/-- `POWER_OFF`. -/
def Instr.powerOff : Instr := .setPower false
/-- `INVERT_ON`. -/
def Instr.invertOn : Instr := .invertHw true
/-- `INVERT_OFF`. -/
def Instr.invertOff : Instr := .invertHw false

/-! ## The opcode table's numbering -/

/-- A row's word: bits 7..0 are the opcode, and the operand words, where the row is given any bits for them, count on from
there: `ARG0` at bit 8, `ARG1` at bit 40, `ARG2` at bit 72, `ARG3` at bit 104. Bits from `nbits` up are 0 (log 15). -/
def tableWords (nbits w : Nat) : CommandWords :=
  let v := w % 2 ^ nbits
  { opcode := BitVec.ofNat 8 v
    arg0 := BitVec.ofNat 32 (v / 2 ^ 8)
    arg1 := BitVec.ofNat 32 (v / 2 ^ 40)
    arg2 := BitVec.ofNat 32 (v / 2 ^ 72)
    arg3 := BitVec.ofNat 32 (v / 2 ^ 104) }

/-- The instruction the decoder reads from an opcode-table word. -/
def decodeTableWord (nbits w : Nat) : Option Instr :=
  match decode (tableWords nbits w) with
  | .ok i => some i
  | .error _ => none

end Sys2Proof
end

