-- ==== Sys2Proof/Machine/State.lean ====
section
/-! DEFINITION. The engine's state (spec/10_state.md R30, R52, R53), the reasons a run stops, and the state after reset
(spec/70_reset_and_hazards.md R280). Plain data throughout. -/

namespace Sys2Proof.Machine

open Sys2Proof

/-- The display controller's state (R35). -/
inductive Ctrl where
  | uninit
  | probing
  | failed
  | ready
  deriving DecidableEq, Repr

/-- The values of `ERR` (spec/60_exceptions.md R250); the codes 7 to 15 are never written (log 16). -/
inductive ErrCode where
  | none
  | textOverflow
  | glyphRange
  | badFont
  | notReady
  | deviceNotPresent
  | illegalCommand
  deriving DecidableEq, Repr

/-- One bus transaction (R52, R84 to R86), with the device address it goes to. -/
inductive BusTxn where
  | probe (device : Byte) (answer : ProbeAnswer)
  | cmd (device : Byte) (b : Byte)
  | data (device : Byte) (bs : List Byte)
  deriving DecidableEq, Repr

/-- The width of a host access. -/
inductive AccessWidth where
  | byte
  | half
  | word
  | dword
  deriving DecidableEq, Repr

/-- One access by the host: a read, or a write with its data, at a byte address of the host's. Which offset of the register
window an address is depends on where the window sits (R40, R88; log 27). -/
inductive HostAccess where
  | read (address : Nat) (width : AccessWidth)
  | write (address : Nat) (width : AccessWidth) (data : Word)
  deriving DecidableEq, Repr

/-- Bytes by address, addresses strictly rising, no entry equal to what an unlisted address reads as. -/
abbrev Memory := List Host.Cell

/-- An address space: addresses below `limit` exist, and one that is not listed reads as `unlisted` (`none`: it may not be
read). -/
structure Space where
  limit : Nat
  unlisted : Option Byte
  deriving DecidableEq, Repr

/-- A pixel write: a position on mathematical integers and the colour asked for (R130). -/
structure Pixel where
  x : Int
  y : Int
  color : Color
  deriving DecidableEq, Repr

/-- Why a run has left the specification (`fault(reason)`, spec/60_exceptions.md R258). -/
inductive Fault where
  /-- `SRC_UNMAPPED`: raised by DRAW_BITMAP and DRAW_STRING on a source byte whose address is not admitted (R78). Safe: the
  run stops, as the spec says. -/
  | srcUnmapped
  /-- `HOST_PROTOCOL`: raised by a host access of the wrong width or alignment (R292), or a write of `CMD` or `ARG0..ARG3`
  while `BUSY = 1` (R287). Safe: the run stops, as the spec says. -/
  | hostProtocol
  deriving DecidableEq, Repr

/-- Why the model gives a step no meaning. -/
inductive Refusal where
  /-- An instruction without a meaning, by its mnemonic. Raised by no arm of `exec`. Safe. -/
  | notModelled (mnemonic : String)
  /-- Raised by `step` on a configuration that breaks a constraint of R12 or R13 (R259, I8). Safe: the spec refuses it. -/
  | illFormedConfiguration
  deriving DecidableEq, Repr

/-- The state of one engine, with the inputs that its environment still holds for it. -/
structure State where
  /-- The configuration record (R12), fixed for a machine; no command writes it (log 1). -/
  cfg : Config
  /-- `FB`, the framebuffer (R31); an unlisted byte below `N` reads 0x00 (log 6). -/
  fb : Memory
  /-- `cx`, the text cursor's x (R33). -/
  cx : Half
  /-- `cy`, the text cursor's y (R33). -/
  cy : Half
  /-- `inv`, the software invert flag (R34). -/
  inv : Bool
  /-- `ctrl`, the controller state (R35). -/
  ctrl : Ctrl
  /-- `ARG0` (R42). -/
  arg0 : Word
  /-- `ARG1` (R42). -/
  arg1 : Word
  /-- `ARG2` (R42). -/
  arg2 : Word
  /-- `ARG3` (R42). -/
  arg3 : Word
  /-- `CMD`, the opcode of the last command started (R41). -/
  cmd : Byte
  /-- `OK` (R43). -/
  ok : Bool
  /-- `ERR` (R43, R250). -/
  err : ErrCode
  /-- `BUSY` (R47). -/
  busy : Bool
  /-- `RESULT` (R45). -/
  result : Word
  /-- `BUSLOG`, oldest transaction first (R52). -/
  busLog : List BusTxn
  /-- `FAULT` (R53). -/
  fault : Option Fault
  /-- Source memory (R78): the admitted bytes; an address that is not listed is not admitted (log 7). -/
  src : Memory
  /-- The model's own: the accesses the host is about to make, oldest first (log 3). -/
  host : List HostAccess
  /-- The model's own: the answers to the coming probes, oldest first (R86; log 4). -/
  probeIn : List ProbeAnswer
  /-- The model's own: what the host's last read returned (log 14). -/
  rdata : Word
  /-- The model's own: the index of the next free value (log 4, log 8, log 27). -/
  draws : Nat
  deriving DecidableEq, Repr

/-- What a command answers. -/
abbrev Outcome := Host.Outcome State Fault Refusal

/-- The state right after reset of an engine with configuration `c` (R60, R280). The source memory, the host's accesses and
the probe's answers are the environment's: nothing is listed (log 5). -/
def State.resetWith (c : Config) : State where
  cfg := c
  fb := []
  cx := 0
  cy := 0
  inv := false
  ctrl := .uninit
  arg0 := 0
  arg1 := 0
  arg2 := 0
  arg3 := 0
  cmd := 0
  ok := false
  err := .none
  busy := false
  result := 0
  busLog := []
  fault := none
  src := []
  host := []
  probeIn := []
  rdata := 0
  draws := 0

/-- The state right after reset, of an engine configured as `Config.cfgA` (log 2). -/
def State.reset : State := State.resetWith Config.cfgA

end Sys2Proof.Machine
end

