-- ==== Sys2Proof/Machine/Params.lean ====
section
/-! DEFINITION. How the configuration record is read: its constraints (spec/00_scope.md R11 to R13,
spec/70_reset_and_hazards.md R290), the fonts, and the command lists (spec/43_controller.md R211, R233). -/

namespace Sys2Proof.Machine

open Sys2Proof

/-- R13: at least one glyph, codes below 256, at most 16 columns (D13), and a row word for every row of every glyph. -/
def fontWf (f : Font) : Bool :=
  decide (1 ≤ f.count) && decide (f.base + f.count ≤ 256) && decide (1 ≤ f.width) && decide (f.width ≤ 16) &&
    decide (1 ≤ f.height) && decide (f.rows.length = f.count * f.height)

/-- R11: the panel's size. -/
def panelWf (c : Config) : Bool :=
  decide (1 ≤ c.width) && decide (c.width ≤ 32767) && decide (8 ≤ c.height) && decide (c.height ≤ 32760) &&
    decide (c.height % 8 = 0)

/-- R12: one page-select byte a page, an initialization script that ends with the display-on command, a probe timeout, a
transfer buffer that holds a page (R290); and a scroll-activate and a vertical-scroll-area command that are commands at
all (R233; log 12). -/
def listsWf (c : Config) : Bool :=
  decide (c.pageSel.length = c.pages) && decide (c.initScript.getLast? = some c.displayOn) &&
    decide (1 ≤ c.probeTimeout) && decide (c.width ≤ c.xferCap) &&
    decide (c.scrolls.activate ≠ []) && decide (c.scrolls.verticalArea ≠ [])

/-- R12: from 1 to 256 fonts, each as R13 says. -/
def fontsWf (c : Config) : Bool :=
  decide (1 ≤ c.fonts.length) && decide (c.fonts.length ≤ 256) && c.fonts.all fontWf

/-- The configuration breaks no constraint (R12); the model refuses one that does (R259). -/
def configWf (c : Config) : Bool := panelWf c && listsWf c && fontsWf c

/-- The character code `ch` has a glyph in the font (spec/20_memory.md R82). -/
def hasGlyph (f : Font) (ch : Byte) : Bool := decide (f.base ≤ ch.toNat ∧ ch.toNat < f.base + f.count)

/-- `FontRow`: row `i` of glyph `g` (R80), in the flat layout of R83. -/
def fontRow (f : Font) (g i : Nat) : Half := (f.rows[g * f.height + i]?).getD 0

/-- `PAGE_SEL(m)` (R12). -/
def pageSelect (c : Config) (m : Nat) : Byte := (c.pageSel[m]?).getD 0

/-- The bytes of a part of a scroll list for the pages `s` to `e`. -/
def scrollPartBytes (p : ScrollPart) (s e : Byte) : List Byte :=
  match p.special.find? fun k => k.startPage == s && k.endPage == e with
  | some k => k.bytes
  | none => p.template.map fun
    | .lit b => b
    | .startPage => s
    | .endPage => e

/-- `SCROLL_SEQ(kind, s, e)` (R233): every list ends with the scroll-activate command, and before it a diagonal one programs
a vertical scroll area of all rows. The page range is not checked (R239). -/
def scrollSeq (c : Config) (kind : ScrollKind) (s e : Byte) : List Byte :=
  let l := c.scrolls
  match kind with
  | .right => scrollPartBytes l.right s e ++ l.activate
  | .left => scrollPartBytes l.left s e ++ l.activate
  | .diagRight =>
    scrollPartBytes l.diagRightPre s e ++ l.verticalArea ++ scrollPartBytes l.diagRightPost s e ++ l.activate
  | .diagLeft =>
    scrollPartBytes l.diagLeftPre s e ++ l.verticalArea ++ scrollPartBytes l.diagLeftPost s e ++ l.activate

end Sys2Proof.Machine
end

