-- ==== Sys2Proof/Machine/Flags.lean ====
section
/-! DEFINITION. The flags (spec/10_state.md R58), the words the host reads them in (R43, R46), and how the end of a command
writes them (spec/30_encoding.md R106). -/

namespace Sys2Proof.Machine

open Sys2Proof

/-- The encoding of `ctrl` (R35). -/
def Ctrl.code : Ctrl → Nat
  | .uninit => 0
  | .probing => 1
  | .failed => 2
  | .ready => 3

/-- The code of an error (spec/60_exceptions.md R250). -/
def ErrCode.code : ErrCode → Nat
  | .none => 0
  | .textOverflow => 1
  | .glyphRange => 2
  | .badFont => 3
  | .notReady => 4
  | .deviceNotPresent => 5
  | .illegalCommand => 6

/-- `initialized = (ctrl = READY)` (R36). -/
def State.initialized (s : State) : Bool := s.ctrl == .ready

/-- `BusOpen()` (spec/43_controller.md R210). -/
def busOpen (s : State) : Bool := s.cfg.busGate == .ungated || s.initialized

/-- `STATUS` (R43): OK at bit 0, ERR at 4:1, BUSY at 8, INIT at 9, INV at 10, CTRL at 13:12, every other bit 0. -/
def statusWord (s : State) : Word :=
  BitVec.ofNat 32 (s.ok.toNat + s.err.code * 2 ^ 1 + s.busy.toNat * 2 ^ 8 + s.initialized.toNat * 2 ^ 9 +
    s.inv.toNat * 2 ^ 10 + s.ctrl.code * 2 ^ 12)

/-- The bits of `STATUS` that are fields other than `BUSY` (R43). -/
def statusFields : Word := 0x0000361F

/-- `CURSOR = {cy, cx}` (R46). -/
def cursorWord (s : State) : Word := BitVec.ofNat 32 (s.cx.toNat + s.cy.toNat * 2 ^ 16)

/-- `ERR` is the code the command raised and `OK` says that it raised none (R106); the command is over (R105). -/
def State.setStatus (s : State) (e : ErrCode) : State := { s with ok := e == .none, err := e, busy := false }

end Sys2Proof.Machine
end

