-- ==== Sys2Proof/Machine/Ops.lean ====
section
/-! DEFINITION. The named operations over memory, the framebuffer, the bus and the command cycle that the meanings share:
spec/20_memory.md, spec/40_framebuffer.md R130, spec/43_controller.md R211 and R212, spec/60_exceptions.md R251 and R258. -/

namespace Sys2Proof.Machine

open Sys2Proof

/-! ## Memory: bytes by address, in one canonical form -/

/-- The listed byte at `k`. -/
def Memory.lookup : Memory → Nat → Option Byte
  | [], _ => none
  | (a, b) :: rest, k => if a = k then some b else Memory.lookup rest k

/-- The list with `v` at `k`. -/
def Memory.insert : Memory → Nat → Byte → Memory
  | [], k, v => [(k, v)]
  | (a, b) :: rest, k, v =>
    if k < a then (k, v) :: (a, b) :: rest
    else if k = a then (k, v) :: rest
    else (a, b) :: Memory.insert rest k v

/-- The list without an entry at `k`. -/
def Memory.erase : Memory → Nat → Memory
  | [], _ => []
  | (a, b) :: rest, k => if a = k then rest else (a, b) :: Memory.erase rest k

/-- The addresses of a list rise strictly, starting above `lo` where one is given. -/
def Memory.rising : Option Nat → Memory → Bool
  | _, [] => true
  | none, (a, _) :: rest => Memory.rising (some a) rest
  | some lo, (a, _) :: rest => decide (lo < a) && Memory.rising (some a) rest

/-- The canonical form: addresses rise strictly and exist in the space, and no entry equals what an unlisted address reads
as. Equal memories are equal lists. -/
def Memory.wf (sp : Space) (m : Memory) : Bool :=
  Memory.rising none m && m.all fun c => decide (c.1 < sp.limit) && decide (sp.unlisted ≠ some c.2)

/-- The byte at `a`: nothing where the address does not exist or may not be read. -/
def Memory.read (sp : Space) (m : Memory) (a : Nat) : Option Byte :=
  if a < sp.limit then (m.lookup a).or sp.unlisted else none

/-- The memory after writing `v` at `a`; an address outside the space is not written. -/
def Memory.write (sp : Space) (m : Memory) (a : Nat) (v : Byte) : Memory :=
  if a < sp.limit then (if sp.unlisted = some v then m.erase a else m.insert a v) else m

/-- The memory of a space in which address `i` holds `f i`, for every address below `n`. -/
def Memory.build (sp : Space) (n : Nat) (f : Nat → Byte) : Memory :=
  (List.range n).filterMap fun i => if sp.unlisted = some (f i) then none else some (i, f i)

/-- The framebuffer: bytes `0 .. N-1` (R31), 0x00 after reset (R60; log 6). -/
def fbSpace (c : Config) : Space := { limit := c.size, unlisted := some 0x00 }

/-- Source memory: 32-bit addresses (R78); an unlisted address is not admitted (log 7). -/
def srcSpace : Space := { limit := 2 ^ 32, unlisted := none }

/-! ## The framebuffer -/

/-- `FB[i]` of a framebuffer held as `m` (R71). -/
def fbByte (c : Config) (m : Memory) (i : Nat) : Byte := (Memory.read (fbSpace c) m i).getD 0x00

/-- `FB[i]`. -/
def State.fbByte (s : State) (i : Nat) : Byte := Machine.fbByte s.cfg s.fb i

/-- `InBounds(x, y)` (R73), on mathematical integers. -/
def inBounds (c : Config) (x y : Int) : Bool := decide (0 ≤ x ∧ x < c.width ∧ 0 ≤ y ∧ y < c.height)

/-- The byte that holds pixel `(x, y)` (R72). -/
def pixelIndex (c : Config) (x y : Nat) : Nat := x + y / 8 * c.width

/-- The bit of its byte that holds pixel `(x, y)`, as a mask (R75). -/
def pixelMask (y : Nat) : Byte := 1#8 <<< (y % 8)

/-- `Pixel(x, y)` (R72). -/
def State.pixel (s : State) (x y : Nat) : Bool := (s.fbByte (pixelIndex s.cfg x y)).getLsbD (y % 8)

/-- The colour as the bit a pixel stores: WHITE is 1 (R72). -/
def colorBit : Color → Bool
  | .black => false
  | .white => true

/-- The stored byte with the bits of `mask` set or cleared: OR, or AND-NOT (R75). -/
def setBits (c : Color) (b mask : Byte) : Byte :=
  match c with
  | .white => b ||| mask
  | .black => b &&& ~~~mask

/-- `WritePixel(x, y, c)` (R130) on the framebuffer `m`: off the panel nothing, else the bit becomes the colour, flipped
first where `inv` is set. -/
def plot (c : Config) (inv : Bool) (m : Memory) (p : Pixel) : Memory :=
  if inBounds c p.x p.y then
    let color := if inv then p.color.not else p.color
    let i := pixelIndex c p.x.toNat p.y.toNat
    Memory.write (fbSpace c) m i (setBits color (fbByte c m i) (pixelMask p.y.toNat))
  else m

/-- Pixel writes one after another. All drawing funnels through here (R130). -/
def State.draw (s : State) (ps : List Pixel) : State := { s with fb := ps.foldl (plot s.cfg s.inv) s.fb }

/-- Every framebuffer byte written: byte `i` becomes `f i` (the whole-buffer operations of R75). -/
def State.setBytes (s : State) (f : Nat → Byte) : State :=
  { s with fb := Memory.build (fbSpace s.cfg) s.cfg.size f }

/-- FILL's byte (R134). -/
def fillByte : Color → Byte
  | .black => 0x00
  | .white => 0xFF

/-- `for i in 0 .. N-1: FB[i] <- b` (R134). -/
def State.fill (s : State) (c : Color) : State := s.setBytes fun _ => fillByte c

/-! ## The bus -/

/-- What the transport sends for a transaction: the register selector and then the bytes (R84). The probe sends none. -/
def BusTxn.wire : BusTxn → List Byte
  | .probe _ _ => []
  | .cmd _ b => [selCmd, b]
  | .data _ bs => selData :: bs

/-- `BusCmd` for each byte in order (R84). The outcome is ignored (R85). -/
def State.sendBytes (s : State) (bs : List Byte) : State :=
  { s with busLog := s.busLog ++ bs.map (.cmd s.cfg.devAddr) }

/-- The bytes of page `m`, column 0 first (R74, R76). -/
def pageBytes (c : Config) (fb : Memory) (m : Nat) : List Byte :=
  (List.range c.width).map fun k => fbByte c fb (m * c.width + k)

/-- The transactions of one page of a transfer (R211). -/
def pageTxns (c : Config) (fb : Memory) (m : Nat) : List BusTxn :=
  [.cmd c.devAddr (pageSelect c m), .cmd c.devAddr c.colLo, .cmd c.devAddr c.colHi, .data c.devAddr (pageBytes c fb m)]

/-- The transactions of `PageTransfer()` (R211): every page, in increasing order. -/
def transferTxns (c : Config) (fb : Memory) : List BusTxn := (List.range c.pages).flatMap (pageTxns c fb)

/-- `PageTransfer()` (R211): it writes nothing but `BUSLOG`. -/
def State.transfer (s : State) : State := { s with busLog := s.busLog ++ transferTxns s.cfg s.fb }

/-- `AutoFlush()` (R212). -/
def State.autoFlush (s : State) : State :=
  if s.cfg.autoFlush == .original && busOpen s then s.transfer else s

/-- The answer the next probe gets: the environment's, or a free value where it holds none (R86; log 4). -/
def State.nextProbe (s : State) : ProbeAnswer :=
  match s.probeIn with
  | a :: _ => a
  | [] => Config.freeProbe s.draws

/-- `BusProbe()` (R86): the transaction is logged with the answer it got, and the answer is used up. -/
def State.probe (s : State) : State :=
  { s with busLog := s.busLog ++ [.probe s.cfg.devAddr s.nextProbe], probeIn := s.probeIn.tail, draws := s.draws + 1 }

/-! ## How a command ends -/

/-- How the pseudocode of a command ends: with a status (`raise Err(code)`, or none), or with a fault. -/
inductive Ending where
  | ended (e : ErrCode)
  | faulted (r : Fault)
  deriving DecidableEq, Repr

/-- A command run to its end: the effects it made, and how it ended. -/
structure Run where
  state : State
  ending : Ending
  deriving DecidableEq, Repr

/-- The command ran to its end without an error. -/
def done (s : State) : Run := { state := s, ending := .ended .none }

/-- `raise Err(code)` (R251): the effects made before stay made, nothing after happens. -/
def raiseErr (e : ErrCode) (s : State) : Run := { state := s, ending := .ended e }

/-- `fault(reason)` (R258): the command does not end. -/
def raiseFault (r : Fault) (s : State) : Run := { state := s, ending := .faulted r }

/-- The state a command leaves: with its status written (R106), or marked as faulted with `OK`, `ERR` and `BUSY` not written
(R258; log 11). -/
def Run.final (r : Run) : State :=
  match r.ending with
  | .ended e => r.state.setStatus e
  | .faulted f => { r.state with fault := some f }

/-- What a command answers: the state at its end, or the fault it ran into. -/
def conclude (r : Run) : Outcome :=
  match r.ending with
  | .ended e => .next (r.state.setStatus e)
  | .faulted f => .fault f

/-- A controller command (R230 to R238): NOT_READY where the bus is closed, else its bytes as commands, in order. -/
def busCommand (s : State) (bs : List Byte) : Run :=
  if busOpen s then done (s.sendBytes bs) else raiseErr .notReady s

/-- The register values the running command is decoded from (R100). -/
def State.words (s : State) : CommandWords := ⟨s.cmd, s.arg0, s.arg1, s.arg2, s.arg3⟩

/-- The start of the command cycle (R105): `CMD <- opcode; BUSY <- 1`. -/
def State.start (s : State) (opcode : Byte) : State := { s with cmd := opcode, busy := true }

end Sys2Proof.Machine
end

