-- ==== Sys2Proof/Machine/Operands.lean ====
section
/-! DEFINITION. What commands read besides their operand fields: source memory (spec/20_memory.md R78, R79), glyphs
(R80 to R82, spec/42_text.md R182), and the text of a number (R192). -/

namespace Sys2Proof.Machine

open Sys2Proof

/-- `MemRead(a, 1)` (R78): nothing where the address is not admitted or passes `2^32 - 1`. -/
def State.memRead (s : State) (a : Nat) : Option Byte := Memory.read srcSpace s.src a

/-- The admitted bytes from `a` on, up to and including the first zero byte, and at most `n` of them (R79). -/
def readChars (m : Memory) (a : Nat) : Nat → List Byte
  | 0 => []
  | n + 1 =>
    match Memory.read srcSpace m a with
    | none => []
    | some b => if b = 0 then [b] else b :: readChars m (a + 1) n

/-- The characters of the string at `a`: every admitted byte up to the terminator. Source memory lists `src.length` bytes,
so no string of admitted bytes is longer (log 19). -/
def State.sourceChars (s : State) (a : Nat) : List Byte := readChars s.src a s.src.length

/-- Column `j` of a row word is set: the test `((r << j) AND 0x8000) != 0` (R180, R182). -/
def rowBit (r : Half) (j : Nat) : Bool := (r <<< j) &&& 0x8000 != 0

/-- The pixels of a glyph whose top-left corner is `(x, y)`, in the order they are written: a set bit in the colour, a clear
bit in its complement (R180). -/
def glyphPixels (f : Font) (ch : Byte) (x y : Nat) (c : Color) : List Pixel :=
  (List.range f.height).flatMap fun i =>
    (List.range f.width).map fun j =>
      { x := (x + j : Nat), y := (y + i : Nat), color := if rowBit (fontRow f (ch.toNat - f.base) i) j then c else c.not }

/-- The code of a decimal digit (R192). -/
def digitCode (d : Nat) : Byte := BitVec.ofNat 8 (0x30 + d)

/-- The digits of `n` in base 10 put before `acc`; `fuel` digits at most. -/
def decFrom : Nat → Nat → List Byte → List Byte
  | 0, _, acc => acc
  | fuel + 1, n, acc =>
    if n / 10 = 0 then digitCode (n % 10) :: acc
    else decFrom fuel (n / 10) (digitCode (n % 10) :: acc)

/-- `Dec(n)` (R192): the digit codes of `n`, most significant first, without leading zeros. A number has no more digits than
`n + 1`. -/
def dec (n : Nat) : List Byte := decFrom (n + 1) n []

/-- The text of an unsigned number, with its terminator (R194). -/
def numberText (v : Nat) : List Byte := dec v ++ [0]

/-- The text of a signed number: always a sign, then the magnitude, then the terminator (R197). -/
def signedText (v : Int) : List Byte := (if v < 0 then 0x2D else 0x2B) :: (dec v.natAbs ++ [0])

end Sys2Proof.Machine
end

