-- ==== Sys2Proof/Machine/Controller.lean ====
section
/-! DEFINITION. The page-transfer and display-controller commands: spec/43_controller.md. -/

namespace Sys2Proof.Machine

open Sys2Proof

/-- UPDATE (R215). -/
def execUpdate (s : State) : Outcome :=
  conclude (if busOpen s then done s.transfer else raiseErr .notReady s)

/-- CLEAR (R219): the clear happens even where the bus is closed. -/
def execClear (s : State) : Outcome :=
  let s' := s.fill .black
  conclude (if busOpen s' then done s'.transfer else raiseErr .notReady s')

/-- INIT after a probe that answered READY (R226): the script, the clear, a transfer that is not gated, the cursor, READY. -/
def State.bringUp (s : State) : State :=
  { ((s.sendBytes s.cfg.initScript).fill .black).transfer with cx := 0, cy := 0, ctrl := .ready }

/-- The effects of INIT (R226): `ctrl <- PROBING`, the probe, and then bring-up or FAILED. -/
def State.initEffect (s : State) : State :=
  let s' := { s with ctrl := .probing }.probe
  match s.nextProbe with
  | .ready => s'.bringUp
  | .notReady => { s' with ctrl := .failed }

/-- The error INIT raises (R226). -/
def initError : ProbeAnswer → ErrCode
  | .ready => .none
  | .notReady => .deviceNotPresent

/-- INIT (R226): never gated. -/
def execInit (s : State) : Outcome := conclude (raiseErr (initError s.nextProbe) s.initEffect)

/-- SET_POWER (R230). -/
def execSetPower (on : Bool) (s : State) : Outcome :=
  conclude (busCommand s (if on then s.cfg.powerOnSeq else s.cfg.powerOffSeq))

/-- INVERT_HW (R232): neither `inv` nor the framebuffer is touched. -/
def execInvertHw (on : Bool) (s : State) : Outcome :=
  conclude (busCommand s (if on then s.cfg.invOnCmd else s.cfg.invOffCmd))

/-- SCROLL_RIGHT (R234). -/
def execScrollRight (a b : Byte) (s : State) : Outcome := conclude (busCommand s (scrollSeq s.cfg .right a b))

/-- SCROLL_LEFT (R235). -/
def execScrollLeft (a b : Byte) (s : State) : Outcome := conclude (busCommand s (scrollSeq s.cfg .left a b))

/-- SCROLL_DIAG_RIGHT (R236). -/
def execScrollDiagRight (a b : Byte) (s : State) : Outcome := conclude (busCommand s (scrollSeq s.cfg .diagRight a b))

/-- SCROLL_DIAG_LEFT (R237). -/
def execScrollDiagLeft (a b : Byte) (s : State) : Outcome := conclude (busCommand s (scrollSeq s.cfg .diagLeft a b))

/-- STOP_SCROLL (R238). -/
def execStopScroll (s : State) : Outcome := conclude (busCommand s s.cfg.stopScrollSeq)

end Sys2Proof.Machine
end

