-- ==== Sys2Proof/Machine/Framebuffer.lean ====
section
/-! DEFINITION. The framebuffer and pixel/cursor commands: spec/40_framebuffer.md, and NOP (spec/30_encoding.md R108). -/

namespace Sys2Proof.Machine

open Sys2Proof

/-- NOP (R108). -/
def execNop (s : State) : Outcome := conclude (done s)

/-- FILL (R134): `inv` is not consulted. -/
def execFill (c : Color) (s : State) : Outcome := conclude (done (s.fill c))

/-- WRITE_PIXEL (R131). -/
def execWritePixel (x y : Nat) (c : Color) (s : State) : Outcome := conclude (done (s.draw [⟨x, y, c⟩]))

/-- TOGGLE_INVERT (R138): the flag flips and every byte is complemented. -/
def execToggleInvert (s : State) : Outcome :=
  conclude (done { s.setBytes (fun i => ~~~s.fbByte i) with inv := !s.inv })

/-- SET_CURSOR (R142): stored as given, not checked. -/
def execSetCursor (x y : Nat) (s : State) : Outcome :=
  conclude (done { s with cx := BitVec.ofNat 16 x, cy := BitVec.ofNat 16 y })

end Sys2Proof.Machine
end

