-- ==== Sys2Proof/Machine/Rasterizer.lean ====
section
/-! DEFINITION. The rasterizer commands: spec/41_rasterizer.md. Which points a line visits depends on nothing it draws, so
the points are a list, drawn in order. -/

namespace Sys2Proof.Machine

open Sys2Proof

/-! ## DRAW_LINE -/

/-- `clamp(v, lo, hi) = min(max(v, lo), hi)` (spec/00_scope.md R15). -/
def clamp (v lo hi : Int) : Int := min (max v lo) hi

/-- The points `(x, y0) .. (x, y1)` of a vertical run, top down (R152). -/
def verticalRun (x y0 y1 : Int) : List (Int × Int) :=
  (List.range (y1 - y0 + 1).toNat).map fun k : Nat => (x, y0 + (k : Int))

/-- The points `(x0, y) .. (x1, y)` of a horizontal run, left to right (R152). -/
def horizontalRun (x0 x1 y : Int) : List (Int × Int) :=
  (List.range (x1 - x0 + 1).toNat).map fun k : Nat => (x0 + (k : Int), y)

/-- The loop of R150's general case (R154) from `(x, y)` with error `err`; `n` points at most. -/
def bresenham (x1 y1 dx dy sx sy : Int) : Nat → Int → Int → Int → List (Int × Int)
  | 0, _, _, _ => []
  | n + 1, x, y, err =>
    (x, y) ::
      if x = x1 ∧ y = y1 then []
      else
        let ex := if err > -dx then err - dy else err
        let x' := if err > -dx then x + sx else x
        let ey := if err < dy then ex + dx else ex
        let y' := if err < dy then y + sy else y
        bresenham x1 y1 dx dy sx sy n x' y' ey

/-- The general case with its set-up (R153): `err = tdiv((dx > dy) ? dx : -dy, 2)` (C1). The loop ends at the endpoint after
`max(dx, dy) + 1` points (R155, R270; log 20). -/
def slopedLine (x0 y0 x1 y1 : Int) : List (Int × Int) :=
  let dx : Int := (x1 - x0).natAbs
  let dy : Int := (y1 - y0).natAbs
  let sx : Int := if x0 < x1 then 1 else -1
  let sy : Int := if y0 < y1 then 1 else -1
  bresenham x1 y1 dx dy sx sy ((max dx dy).toNat + 1) x0 y0 (Int.tdiv (if dx > dy then dx else -dy) 2)

/-- The points of a line between two points on the panel, in the order they are drawn (R150, R152). -/
def linePoints (x0 y0 x1 y1 : Int) : List (Int × Int) :=
  if x0 = x1 then verticalRun x0 (min y0 y1) (max y0 y1)
  else if y0 = y1 then horizontalRun (min x0 x1) (max x0 x1) y0
  else slopedLine x0 y0 x1 y1

/-- The points of a line whose endpoints are first clamped to the panel (R151). -/
def clampedLine (c : Config) (x0 y0 x1 y1 : Int) : List (Int × Int) :=
  linePoints (clamp x0 0 (c.width - 1)) (clamp y0 0 (c.height - 1)) (clamp x1 0 (c.width - 1)) (clamp y1 0 (c.height - 1))

/-- Points in one colour. -/
def inColor (c : Color) (ps : List (Int × Int)) : List Pixel := ps.map fun p => ⟨p.1, p.2, c⟩

/-- DRAW_LINE (R150), ending with AutoFlush on every path (R157). -/
def execDrawLine (x0 y0 x1 y1 : Int) (c : Color) (s : State) : Outcome :=
  conclude (done (s.draw (inColor c (clampedLine s.cfg x0 y0 x1 y1))).autoFlush)

/-! ## DRAW_BITMAP -/

/-- Pixels drawn, and whether a source byte that is not admitted ended the command after them. -/
structure Blit where
  points : List (Int × Int)
  unmapped : Bool
  deriving DecidableEq, Repr

/-- The columns of a row from column `i` on, `n` of them, with the shift register `sr` as column `i - 1` left it (R160). The
row's bytes start at `row`; its leftmost pixel is `(x, y)`. -/
def blitRow (m : Memory) (row x y : Nat) : Nat → Nat → Byte → Blit
  | 0, _, _ => ⟨[], false⟩
  | n + 1, i, sr =>
    match (if i % 8 = 0 then Memory.read srcSpace m (row + i / 8) else some (sr <<< 1)) with
    | none => ⟨[], true⟩
    | some sr' =>
      let rest := blitRow m row x y n (i + 1) sr'
      if sr' &&& 0x80 != 0 then ⟨(((x + i : Nat) : Int), ((y : Nat) : Int)) :: rest.points, rest.unmapped⟩ else rest

/-- `byteWidth = (w + 7) div 8` (R160). -/
def byteWidth (w : Nat) : Nat := (w + 7) / 8

/-- The rows from row `j` on, `n` of them; a row that runs into a byte that is not admitted is the last (R78). -/
def blitRows (m : Memory) (src w x y : Nat) : Nat → Nat → Blit
  | 0, _ => ⟨[], false⟩
  | n + 1, j =>
    let r := blitRow m (src + j * byteWidth w) x (y + j) w 0 0
    if r.unmapped then r
    else
      let rest := blitRows m src w x y n (j + 1)
      ⟨r.points ++ rest.points, rest.unmapped⟩

/-- DRAW_BITMAP (R160): it never flushes. The pixels before a byte that is not admitted stay drawn (I9). -/
def runDrawBitmap (x y src w h : Nat) (c : Color) (s : State) : Run :=
  let b := blitRows s.src src w x y h 0
  let s' := s.draw (inColor c b.points)
  if b.unmapped then raiseFault .srcUnmapped s' else done s'

/-- DRAW_BITMAP. -/
def execDrawBitmap (x y src w h : Nat) (c : Color) (s : State) : Outcome := conclude (runDrawBitmap x y src w h c s)

end Sys2Proof.Machine
end

