-- ==== Sys2Proof/Machine/Text.lean ====
section
/-! DEFINITION. The text-renderer commands: spec/42_text.md. -/

namespace Sys2Proof.Machine

open Sys2Proof

/-- `PutChar` (R180): the fit, then the glyph range, both before any pixel is written; then the glyph, opaque, and the cursor
advances by its width. -/
def putChar (f : Font) (c : Color) (ch : Byte) (s : State) : Except ErrCode State :=
  if s.cx.toNat + f.width > s.cfg.width ∨ s.cy.toNat + f.height > s.cfg.height then .error .textOverflow
  else if hasGlyph f ch then
    .ok { s.draw (glyphPixels f ch s.cx.toNat s.cy.toNat c) with cx := BitVec.ofNat 16 (s.cx.toNat + f.width) }
  else .error .glyphRange

/-- `RESULT <- zext_32(ch)` (R181, R186). -/
def State.setResult (s : State) (ch : Byte) : State := { s with result := ch.setWidth 32 }

/-- The loop of `PutString` (R186) over the characters that `next` yields. Where they run out, the next read is of an address
that is not admitted (R78). -/
def putChars (f : Font) (c : Color) : List Byte → State → Run
  | [], s => raiseFault .srcUnmapped s
  | ch :: rest, s =>
    if ch = 0 then done (s.setResult 0).autoFlush
    else
      match putChar f c ch s with
      | .error e => raiseErr e (s.setResult ch)
      | .ok s' => putChars f c rest s'

/-- `PutString` (R186): the cursor is set and the characters are drawn. -/
def putString (x y : Nat) (f : Font) (c : Color) (chars : List Byte) (s : State) : Run :=
  putChars f c chars { s with cx := BitVec.ofNat 16 x, cy := BitVec.ofNat 16 y }

/-- A text command with its font, or BAD_FONT before any other effect (spec/20_memory.md R81). -/
def withFont (font : Nat) (s : State) (k : Font → Run) : Run :=
  match s.cfg.fonts[font]? with
  | none => raiseErr .badFont s
  | some f => k f

/-- DRAW_CHAR (R181): `RESULT` is the character on success and on failure. -/
def runDrawChar (ch : Byte) (font : Nat) (c : Color) (s : State) : Run :=
  withFont font s fun f =>
    match putChar f c ch s with
    | .error e => raiseErr e (s.setResult ch)
    | .ok s' => done (s'.setResult ch)

/-- DRAW_CHAR. -/
def execDrawChar (ch : Byte) (font : Nat) (c : Color) (s : State) : Outcome := conclude (runDrawChar ch font c s)

/-- DRAW_STRING (R187): the characters come from source memory. -/
def runDrawString (x y src font : Nat) (c : Color) (s : State) : Run :=
  withFont font s fun f => putString x y f c (s.sourceChars src) s

/-- DRAW_STRING. -/
def execDrawString (x y src font : Nat) (c : Color) (s : State) : Outcome := conclude (runDrawString x y src font c s)

/-- DRAW_NUMBER (R194). -/
def execDrawNumber (x y v font : Nat) (c : Color) (s : State) : Outcome :=
  conclude (withFont font s fun f => putString x y f c (numberText v) s)

/-- DRAW_SIGNED_NUMBER (R197). -/
def execDrawSignedNumber (x y : Nat) (v : Int) (font : Nat) (c : Color) (s : State) : Outcome :=
  conclude (withFont font s fun f => putString x y f c (signedText v) s)

end Sys2Proof.Machine
end

