-- ==== Sys2Proof/Machine/Dispatch.lean ====
section
/-! DEFINITION. Which meaning each command has: one arm per row of spec/opcode_table.json (spec/30_encoding.md R104). -/

namespace Sys2Proof.Machine

open Sys2Proof

def exec (i : Instr) (s : State) : Host.Outcome State Fault Refusal :=
  match i with
  | .nop => Sys2Proof.Machine.execNop s
  | .fill c => Sys2Proof.Machine.execFill c s
  | .writePixel x y c => Sys2Proof.Machine.execWritePixel x y c s
  | .toggleInvert => Sys2Proof.Machine.execToggleInvert s
  | .setCursor x y => Sys2Proof.Machine.execSetCursor x y s
  | .drawLine x0 y0 x1 y1 c => Sys2Proof.Machine.execDrawLine x0 y0 x1 y1 c s
  | .drawBitmap x y src w h c => Sys2Proof.Machine.execDrawBitmap x y src w h c s
  | .drawChar ch f c => Sys2Proof.Machine.execDrawChar ch f c s
  | .drawString x y src f c => Sys2Proof.Machine.execDrawString x y src f c s
  | .drawNumber x y v f c => Sys2Proof.Machine.execDrawNumber x y v f c s
  | .drawSignedNumber x y v f c => Sys2Proof.Machine.execDrawSignedNumber x y v f c s
  | .update => Sys2Proof.Machine.execUpdate s
  | .clear => Sys2Proof.Machine.execClear s
  | .init => Sys2Proof.Machine.execInit s
  | .setPower on => Sys2Proof.Machine.execSetPower on s
  | .invertHw on => Sys2Proof.Machine.execInvertHw on s
  | .scrollRight a b => Sys2Proof.Machine.execScrollRight a b s
  | .scrollLeft a b => Sys2Proof.Machine.execScrollLeft a b s
  | .scrollDiagRight a b => Sys2Proof.Machine.execScrollDiagRight a b s
  | .scrollDiagLeft a b => Sys2Proof.Machine.execScrollDiagLeft a b s
  | .stopScroll => Sys2Proof.Machine.execStopScroll s

end Sys2Proof.Machine
end

