-- ==== Sys2Proof/Machine/HostPort.lean ====
section
/-! DEFINITION. The register window (spec/10_state.md R40 to R50): what a host access reaches, what it reads or writes, and
the command cycle that a write of `CMD` starts (spec/30_encoding.md R105, R107). -/

namespace Sys2Proof.Machine

open Sys2Proof

/-- The 32-bit registers (R40). -/
inductive Reg where
  | cmd
  | arg0
  | arg1
  | arg2
  | arg3
  | status
  | result
  | cursor
  deriving DecidableEq, Repr

/-- What an access reaches. -/
inductive Target where
  | elsewhere
  | reg (r : Reg)
  | fbWindow (i : Nat)
  | unassigned
  | violation
  deriving DecidableEq, Repr

/-- The number of bytes an access covers. -/
def AccessWidth.bytes : AccessWidth → Nat
  | .byte => 1
  | .half => 2
  | .word => 4
  | .dword => 8

/-- The register that is word `k` of the window (R40). -/
def regAt : Nat → Reg
  | 0 => .cmd
  | 1 => .arg0
  | 2 => .arg1
  | 3 => .arg2
  | 4 => .arg3
  | 5 => .status
  | 6 => .result
  | _ => .cursor

/-- The offset of `FBWIN[0]` (R40). -/
def fbWindowBase : Nat := 0x10000000

/-- What an access of `n` bytes at an offset of the window reaches (R40). A 32-bit register is reached by an aligned word
only, the framebuffer window by a byte only; an access that touches one in another way is a protocol violation (R292;
log 9). -/
def windowTarget (c : Config) (offset n : Nat) : Target :=
  if offset < 0x20 then (if n = 4 ∧ offset % 4 = 0 then .reg (regAt (offset / 4)) else .violation)
  else if offset < fbWindowBase + c.size ∧ fbWindowBase < offset + n then
    (if n = 1 then .fbWindow (offset - fbWindowBase) else .violation)
  else .unassigned

/-- What an access at an address of the host's reaches: the window is the addresses of the 32-bit offsets from
`c.windowBase` on (R40, R88, R283). An access with a byte beyond them is none of the engine's (log 27); one that begins below
the window and runs into it touches `CMD` (log 9). -/
def target (c : Config) (address : Nat) (width : AccessWidth) : Target :=
  let n := AccessWidth.bytes width
  if address + n ≤ c.windowBase ∨ c.windowBase + 2 ^ 32 < address + n then .elsewhere
  else if address < c.windowBase then .violation
  else windowTarget c (address - c.windowBase) n

/-! ## The command cycle -/

/-- A write of `CMD` (R41, R105): the command starts, is decoded from the registers, runs to its end and has its status
written, all in one step. An illegal opcode raises ILLEGAL_COMMAND and does nothing else (R107). -/
def runCommand (opcode : Byte) (s : State) : Outcome :=
  match decode (s.start opcode).words with
  | .ok i => exec i (s.start opcode)
  | .error _ => conclude (raiseErr .illegalCommand (s.start opcode))

/-! ## Writes and reads -/

/-- A write of `CMD` or of an operand register while a command runs breaks the protocol (R287). -/
def unlessBusy (s : State) (o : Outcome) : Outcome := if s.busy then .fault .hostProtocol else o

/-- A word written to a register: `CMD` starts a command (R41), the operand registers store it (R42), the read-only ones
ignore it (R49). -/
def writeReg (r : Reg) (v : Word) (s : State) : Outcome :=
  match r with
  | .cmd => unlessBusy s (runCommand (v.setWidth 8) s)
  | .arg0 => unlessBusy s (.next { s with arg0 := v })
  | .arg1 => unlessBusy s (.next { s with arg1 := v })
  | .arg2 => unlessBusy s (.next { s with arg2 := v })
  | .arg3 => unlessBusy s (.next { s with arg3 := v })
  | .status => .next s
  | .result => .next s
  | .cursor => .next s

/-- The word a register reads as (R41 to R46). While a command runs, `STATUS` but for `BUSY`, `RESULT` and `CURSOR` are any
value (R287, I13; log 8). -/
def readReg (r : Reg) (s : State) : Word :=
  match r with
  | .cmd => s.cmd.setWidth 32
  | .arg0 => s.arg0
  | .arg1 => s.arg1
  | .arg2 => s.arg2
  | .arg3 => s.arg3
  | .status => if s.busy then Config.freeRead s.draws &&& statusFields ||| 0x100 else statusWord s
  | .result => if s.busy then Config.freeRead s.draws else s.result
  | .cursor => if s.busy then Config.freeRead s.draws else cursorWord s

/-- The byte the framebuffer window reads as (R48), any value while a command runs (I13; log 8). -/
def readWindow (i : Nat) (s : State) : Word :=
  if s.busy then Config.freeRead s.draws &&& 0xFF else (s.fbByte i).setWidth 32

/-- A read returns `v` to the host and changes nothing of the engine; where it may be a free value (`free`), its index is used
up. -/
def State.answer (s : State) (v : Word) (free : Bool) : State := { s with rdata := v, draws := s.draws + free.toNat }

/-- One host access. Reads of unassigned offsets return 0 and writes to them, or to the framebuffer window, are ignored (R48,
R49). An access outside the register window leaves the engine alone, and a read there returns any value (log 27). -/
def serve (a : HostAccess) (s : State) : Outcome :=
  match a with
  | .read address width =>
    match target s.cfg address width with
    | .elsewhere => .next (s.answer (Config.freeRead s.draws) true)
    | .reg r => .next (s.answer (readReg r s) s.busy)
    | .fbWindow i => .next (s.answer (readWindow i s) s.busy)
    | .unassigned => .next (s.answer 0 false)
    | .violation => .fault .hostProtocol
  | .write address width v =>
    match target s.cfg address width with
    | .elsewhere => .next s
    | .reg r => writeReg r v s
    | .fbWindow _ => .next s
    | .unassigned => .next s
    | .violation => .fault .hostProtocol

/-! ## Programs (R38, R111) -/

/-- The offset of a register (R40). -/
def Reg.offset : Reg → Nat
  | .cmd => 0x00
  | .arg0 => 0x04
  | .arg1 => 0x08
  | .arg2 => 0x0C
  | .arg3 => 0x10
  | .status => 0x14
  | .result => 0x18
  | .cursor => 0x1C

/-- The host's write of a whole register, at its address. -/
def hostWrite (c : Config) (r : Reg) (v : Word) : HostAccess := .write (c.windowBase + Reg.offset r) .word v

/-- An assembled command (R111): the operand registers, and then `CMD`. -/
def registerWrites (c : Config) (i : Instr) : List HostAccess :=
  let w := encode i
  [hostWrite c .arg0 w.arg0, hostWrite c .arg1 w.arg1, hostWrite c .arg2 w.arg2, hostWrite c .arg3 w.arg3,
    hostWrite c .cmd (w.opcode.setWidth 32)]

/-- A program (R38): a host-side list of commands, in order. -/
def State.withProgram (s : State) (p : List Instr) : State := { s with host := s.host ++ p.flatMap (registerWrites s.cfg) }

end Sys2Proof.Machine
end

