-- ==== Sys2Proof/Machine/Step.lean ====
section
/-! DEFINITION. One step: the host's next access, or nothing where the host makes none (log 3). A configuration that breaks
a constraint is refused before anything runs (spec/60_exceptions.md R259). -/

namespace Sys2Proof.Machine

open Sys2Proof

/-- One step of the engine and its host. No step follows a fault (spec/10_state.md R53). -/
def step (s : State) : Host.Outcome State Fault Refusal :=
  match s.fault with
  | some r => .fault r
  | none =>
    if configWf s.cfg then
      match s.host with
      | [] => .next s
      | a :: rest => serve a { s with host := rest }
    else .refused .illFormedConfiguration

/-- The state with an opcode-table word as the host's next command: the operand registers hold its operand words, no command
is running, and the host's next access writes its opcode to `CMD` (log 3, log 15). -/
def State.withFetchWord (s : State) (nbits w : Nat) : State :=
  let t := tableWords nbits w
  { s with
    arg0 := t.arg0
    arg1 := t.arg1
    arg2 := t.arg2
    arg3 := t.arg3
    busy := false
    host := hostWrite s.cfg .cmd (t.opcode.setWidth 32) :: s.host }

end Sys2Proof.Machine
end

