-- ==== Sys2Proof/Safety.lean ====
section
/-! DEFINITION. What claims are stated in: the invariant of the states between commands, runs that stay within the
specification, and the parts of the state that a command may be said to leave alone. -/

namespace Sys2Proof.Machine

open Sys2Proof

/-- What holds between two steps of an engine that was configured and reset: the configuration breaks no constraint (R12),
the framebuffer and source memory are in canonical form (so `FB` has no byte outside `0 .. N-1`, R71), no command is in
progress (R47, R105), PROBING is not seen (R35), no fault is marked (R53), `OK` is set only where `ERR` is NONE (R43), and
`RESULT` is an 8-bit value, zero-extended (R45). -/
abbrev Inv (s : State) : Prop :=
  configWf s.cfg = true ∧ Memory.wf (fbSpace s.cfg) s.fb = true ∧ Memory.wf srcSpace s.src = true ∧
    s.busy = false ∧ s.ctrl ≠ .probing ∧ s.fault = none ∧ (s.ok = true → s.err = .none) ∧ s.result.toNat < 256

/-- What a statement about drawing assumes of a state, implied by `Inv`: the configuration breaks no constraint and the
memories are in canonical form. -/
abbrev StateWf (s : State) : Prop :=
  configWf s.cfg = true ∧ Memory.wf (fbSpace s.cfg) s.fb = true ∧ Memory.wf srcSpace s.src = true

/-- `(x, y)` is a pixel of the panel (R73). -/
abbrev OnPanel (s : State) (x y : Nat) : Prop := x < s.cfg.width ∧ y < s.cfg.height

/-- `n` steps from `s` stay within the specification: no fault (R258) and no refusal (R259). -/
def RunsCleanly (n : Nat) (s : State) : Prop := ∃ t, Host.Core.run Sys2Proof.core n s = .next t

/-! ## The parts of the state that a command leaves alone -/

/-- What no command writes: the configuration (R12), the operand registers (R42), `CMD` (R41), source memory (R78), the fault
mark (R53), and the host's side. -/
abbrev SameInputs (s t : State) : Prop :=
  t.cfg = s.cfg ∧ t.arg0 = s.arg0 ∧ t.arg1 = s.arg1 ∧ t.arg2 = s.arg2 ∧ t.arg3 = s.arg3 ∧ t.cmd = s.cmd ∧
    t.src = s.src ∧ t.host = s.host ∧ t.rdata = s.rdata ∧ t.fault = s.fault

/-- The probe's answers and the free values: of the commands only INIT uses any (R86). -/
abbrev SameDraws (s t : State) : Prop := t.probeIn = s.probeIn ∧ t.draws = s.draws

/-- Every framebuffer byte reads as before. -/
abbrev SameBytes (s t : State) : Prop := ∀ i, t.fbByte i = s.fbByte i

/-- The cursor is as before. -/
abbrev SameCursor (s t : State) : Prop := t.cx = s.cx ∧ t.cy = s.cy

/-- Everything but the framebuffer and the status is as before. -/
abbrev SameButFb (s t : State) : Prop :=
  SameCursor s t ∧ t.inv = s.inv ∧ t.ctrl = s.ctrl ∧ t.result = s.result ∧ t.busLog = s.busLog ∧
    SameInputs s t ∧ SameDraws s t

/-- Everything but `BUSLOG` and the status is as before. -/
abbrev SameButBus (s t : State) : Prop :=
  SameBytes s t ∧ SameCursor s t ∧ t.inv = s.inv ∧ t.ctrl = s.ctrl ∧ t.result = s.result ∧
    SameInputs s t ∧ SameDraws s t

/-- Everything but the status is as before. -/
abbrev SameButStatus (s t : State) : Prop := SameBytes s t ∧ SameButFb s t

/-! ## How a command ended -/

/-- The command ended without an error: `OK = 1`, `ERR = NONE`, `BUSY = 0` (R105, R106). -/
abbrev EndedOk (t : State) : Prop := t.ok = true ∧ t.err = .none ∧ t.busy = false

/-- The command ended with the error `e`: `OK = 0`, `ERR = e`, `BUSY = 0` (R105, R106, R251). -/
abbrev EndedWith (e : ErrCode) (t : State) : Prop := t.ok = false ∧ t.err = e ∧ t.busy = false

/-! ## The bus -/

/-- The bus is open (R210): `BUS_GATE = UNGATED` or `ctrl = READY`. -/
abbrev BusIsOpen (s : State) : Prop := s.cfg.busGate = .ungated ∨ s.ctrl = .ready

/-- A transaction of an engine configured as `c`: it goes to `DEV_ADDR`, and a data block is `W` bytes (R56, R84). -/
def txnOf (c : Config) : BusTxn → Prop
  | .probe d _ => d = c.devAddr
  | .cmd d _ => d = c.devAddr
  | .data d bs => d = c.devAddr ∧ bs.length = c.width

/-- The bytes of a data block (R84); none for the other transactions. -/
def BusTxn.block : BusTxn → List Byte
  | .probe _ _ => []
  | .cmd _ _ => []
  | .data _ bs => bs

/-- The bus traffic of `AutoFlush()` at the end of a command that began in `s` and leaves `t` (R212). -/
abbrev Flushed (s t : State) : Prop :=
  t.busLog =
    s.busLog ++ (if s.cfg.autoFlush = .original ∧ BusIsOpen s then transferTxns t.cfg t.fb else [])

/-- The bytes that a controller command sends as commands (R230, R232, R234 to R238). -/
def controllerBytes (c : Config) : Instr → Option (List Byte)
  | .setPower on => some (if on then c.powerOnSeq else c.powerOffSeq)
  | .invertHw on => some (if on then c.invOnCmd else c.invOffCmd)
  | .scrollRight s e => some (scrollSeq c .right s e)
  | .scrollLeft s e => some (scrollSeq c .left s e)
  | .scrollDiagRight s e => some (scrollSeq c .diagRight s e)
  | .scrollDiagLeft s e => some (scrollSeq c .diagLeft s e)
  | .stopScroll => some c.stopScrollSeq
  | _ => none

/-! ## Operand bits (R102) -/

/-- The bits of the operand registers that the command of an opcode reads, as masks, from the tables of R102 and R104. -/
def readMask (opcode : Byte) : CommandWords :=
  let all : Word := 0xFFFFFFFF
  let masks (a0 a1 a2 a3 : Word) : CommandWords := ⟨opcode, a0, a1, a2, a3⟩
  if opcode ∈ [0x01, 0x41, 0x42] then masks 0 0 0 0x00000001
  else if opcode = 0x02 then masks all 0 0 0x00000001
  else if opcode = 0x04 then masks all 0 0 0
  else if opcode = 0x10 then masks all all 0 0x00000001
  else if opcode = 0x11 then masks all all all 0x00000001
  else if opcode = 0x20 then masks 0 0 0 0x00FFFF01
  else if opcode = 0x21 then masks all 0 all 0x0000FF01
  else if opcode ∈ [0x22, 0x23] then masks all all 0 0x0000FF01
  else if opcode ∈ [0x43, 0x44, 0x45, 0x46] then masks 0x00FF00FF 0 0 0
  else masks 0 0 0 0

/-- The opcodes that are not assigned (R107). -/
def unassignedOpcode (opcode : Byte) : Bool :=
  let n := opcode.toNat
  decide (0x05 ≤ n ∧ n ≤ 0x0F) || decide (0x12 ≤ n ∧ n ≤ 0x1F) || decide (0x24 ≤ n ∧ n ≤ 0x2F) ||
    decide (0x32 ≤ n ∧ n ≤ 0x3F) || decide (0x48 ≤ n)

/-- The commands whose last effect is a transfer of the framebuffer, where they make one: UPDATE, CLEAR, INIT, and those that
end with AutoFlush (R214). -/
def mayTransfer : Instr → Bool
  | .update => true
  | .clear => true
  | .init => true
  | .drawLine _ _ _ _ _ => true
  | .drawString _ _ _ _ _ => true
  | .drawNumber _ _ _ _ _ => true
  | .drawSignedNumber _ _ _ _ _ => true
  | _ => false

/-- The commands that may write framebuffer bytes (spec/20_memory.md R70). -/
def mayWriteBytes : Instr → Bool
  | .fill _ => true
  | .writePixel _ _ _ => true
  | .toggleInvert => true
  | .drawLine _ _ _ _ _ => true
  | .drawBitmap _ _ _ _ _ _ => true
  | .drawChar _ _ _ => true
  | .drawString _ _ _ _ _ => true
  | .drawNumber _ _ _ _ _ => true
  | .drawSignedNumber _ _ _ _ _ => true
  | .clear => true
  | .init => true
  | _ => false

/-- The font a command draws with. -/
def fontOf : Instr → Option Nat
  | .drawChar _ f _ => some f
  | .drawString _ _ _ f _ => some f
  | .drawNumber _ _ _ f _ => some f
  | .drawSignedNumber _ _ _ f _ => some f
  | _ => none

/-- The text commands: they alone write `RESULT` (R45). -/
def isText (i : Instr) : Bool := (fontOf i).isSome

/-- The commands that may write the cursor (R33). -/
def mayMoveCursor : Instr → Bool
  | .setCursor _ _ => true
  | .init => true
  | i => isText i

/-! ## Pixel commands one after another (R140) -/

/-- Commands one after another. -/
def execAll : List Instr → State → Outcome
  | [], s => .next s
  | i :: rest, s =>
    match exec i s with
    | .next t => execAll rest t
    | .fault r => .fault r
    | .refused r => .refused r

/-- TOGGLE_INVERT and WRITE_PIXEL. -/
def isPixelCommand : Instr → Bool
  | .toggleInvert => true
  | .writePixel _ _ _ => true
  | _ => false

/-- The colour that the last WRITE_PIXEL of `(x, y)` in a list of commands asked for. -/
def lastWritten (x y : Nat) : List Instr → Option Color
  | [] => none
  | .writePixel x' y' c :: rest => (lastWritten x y rest).or (if x' = x ∧ y' = y then some c else none)
  | _ :: rest => lastWritten x y rest

/-! ## Text (R182, R183, R186) -/

/-- What a string or number command draws: the position, the font, the colour, and `next(k)`, the `k`-th character, nothing
where reading it faults (R186, R187, R194, R197). -/
structure TextJob where
  x : Nat
  y : Nat
  font : Nat
  color : Color
  next : Nat → Option Byte

/-- The text of a string or number command. -/
def textJob (s : State) : Instr → Option TextJob
  | .drawString x y src font c => some ⟨x, y, font, c, fun k => s.memRead (src + k)⟩
  | .drawNumber x y v font c => some ⟨x, y, font, c, fun k => (dec v ++ [0])[k]?⟩
  | .drawSignedNumber x y v font c =>
    some ⟨x, y, font, c, fun k => ((if v < 0 then 0x2D else 0x2B) :: (dec v.natAbs ++ [0]))[k]?⟩
  | _ => none

/-- The characters `cs` are what `next` yields first, and none of them ends the string. -/
abbrev Yields (next : Nat → Option Byte) (cs : List Byte) : Prop :=
  ∀ k, k < cs.length → next k = cs[k]? ∧ cs[k]? ≠ some 0

/-- The bit of row `i`, column `j` of a character's glyph: bit `15 - j` of the row word (R182). -/
def glyphBit (f : Font) (ch : Byte) (i j : Nat) : Bool := (fontRow f (ch.toNat - f.base) i).getLsbD (15 - j)

/-- The glyph bit that a text drawn at `(x, y)` has at `(px, py)`: character `k` fills the columns from `x + k * width`. -/
def textBit (f : Font) (cs : List Byte) (x y px py : Nat) : Option Bool :=
  if x ≤ px ∧ y ≤ py ∧ py < y + f.height then
    (cs[(px - x) / f.width]?).map fun ch => glyphBit f ch (py - y) ((px - x) % f.width)
  else none

/-- The text is drawn, opaque: inside its cells a pixel is (b XNOR c) XOR `inv` (R183); outside every pixel, and every byte
that holds no pixel of a cell, is as before. -/
def TextDrawn (f : Font) (c : Color) (cs : List Byte) (x y : Nat) (s t : State) : Prop :=
  (∀ px py, px < s.cfg.width → py < s.cfg.height →
    t.pixel px py =
      match textBit f cs x y px py with
      | some b => (b == colorBit c) != s.inv
      | none => s.pixel px py) ∧
  ∀ i, (∀ px py, textBit f cs x y px py ≠ none → i ≠ pixelIndex s.cfg px py) → t.fbByte i = s.fbByte i

/-- What a text command never writes (R187, R194, R197). -/
abbrev SameButText (s t : State) : Prop := t.inv = s.inv ∧ t.ctrl = s.ctrl ∧ SameInputs s t ∧ SameDraws s t

/-! ## Bitmaps (R161) -/

/-- Source byte `k` of row `j` of a bitmap of width `w` (R160). -/
def bitmapByte (s : State) (src w j k : Nat) : Option Byte := s.memRead (src + j * ((w + 7) / 8) + k)

/-- The pixel in column `i` of row `j` of a bitmap is set: bit `7 - (i mod 8)` of its byte (R161). -/
def bitmapBit (s : State) (src w j i : Nat) : Bool :=
  match bitmapByte s src w j (i / 8) with
  | some b => b.getLsbD (7 - i % 8)
  | none => false

/-- Every source byte that DRAW_BITMAP reads is admitted (R163). -/
def BitmapReadable (s : State) (src w h : Nat) : Prop :=
  ∀ j k, j < h → k < (w + 7) / 8 → bitmapByte s src w j k ≠ none

/-! ## Errors (R250) -/

/-- The errors that a command may end with, from the table of R250. -/
def mayRaise : Instr → List ErrCode
  | .drawChar _ _ _ => [.textOverflow, .glyphRange, .badFont]
  | .drawString _ _ _ _ _ => [.textOverflow, .glyphRange, .badFont]
  | .drawNumber _ _ _ _ _ => [.textOverflow, .glyphRange, .badFont]
  | .drawSignedNumber _ _ _ _ _ => [.textOverflow, .glyphRange, .badFont]
  | .update => [.notReady]
  | .clear => [.notReady]
  | .setPower _ => [.notReady]
  | .invertHw _ => [.notReady]
  | .scrollRight _ _ => [.notReady]
  | .scrollLeft _ _ => [.notReady]
  | .scrollDiagRight _ _ => [.notReady]
  | .scrollDiagLeft _ _ => [.notReady]
  | .stopScroll => [.notReady]
  | .init => [.deviceNotPresent]
  | .nop => []
  | .fill _ => []
  | .writePixel _ _ _ => []
  | .toggleInvert => []
  | .setCursor _ _ => []
  | .drawLine _ _ _ _ _ => []
  | .drawBitmap _ _ _ _ _ _ => []

end Sys2Proof.Machine
end

