-- ==== Sys2Proof/Certificates/Slice0/Obligations.lean ====
section
/-! DEFINITION. The statements about the engine, for the provers. Each is about `exec`, `step` or an operation they call, for
every configuration (the configuration is a field of the state, log 1). A docstring names the rule of spec/ a statement
formalises, or says that it rests on the model's own choice and names the log entry. -/

open Sys2Proof Sys2Proof.Machine

/-! ## Reset -/

/-- R60: what every piece of state holds after reset, for every configuration; `State.reset` is one such state. -/
def Obligations.ResetHoldsSpecifiedValues : Prop :=
  (∀ c : Config,
    (∀ i, i < c.size → (State.resetWith c).fbByte i = 0x00) ∧
      (State.resetWith c).cx = 0 ∧ (State.resetWith c).cy = 0 ∧ (State.resetWith c).inv = false ∧
      (State.resetWith c).ctrl = .uninit ∧ (State.resetWith c).initialized = false ∧ (State.resetWith c).cmd = 0x00 ∧
      (State.resetWith c).arg0 = 0 ∧ (State.resetWith c).arg1 = 0 ∧ (State.resetWith c).arg2 = 0 ∧
      (State.resetWith c).arg3 = 0 ∧ (State.resetWith c).ok = false ∧ (State.resetWith c).err.code = 0 ∧
      (State.resetWith c).busy = false ∧ (State.resetWith c).result = 0 ∧ (State.resetWith c).busLog = []) ∧
  ∃ c : Config, State.reset = State.resetWith c

/-- The model's own invariant (Safety.lean) holds after reset, of every configuration that breaks no constraint and so of
`State.reset`, whose configuration is the model's choice (log 2). -/
def Obligations.ResetMeetsInvariant : Prop :=
  (∀ c : Config, configWf c = true → Inv (State.resetWith c)) ∧ Inv State.reset

/-! ## Encoding -/

/-- Words of spec/95_test_vectors.md section 2 and R111, field by field, and what they stand for. -/
def Obligations.DecodesWordsOfTheSpec : Prop :=
  decode ⟨0x00, 0, 0, 0, 0⟩ = .ok .nop ∧
  decode ⟨0x02, 0x000D0005, 0, 0, 0x00000001⟩ = .ok (.writePixel 5 13 .white) ∧
  decode ⟨0x04, 0x000300C8, 0, 0, 0⟩ = .ok (.setCursor 200 3) ∧
  decode ⟨0x10, 0x00000000, 0x000A000A, 0, 0x00000001⟩ = .ok (.drawLine 0 0 10 10 .white) ∧
  decode ⟨0x10, 0x0003FFFB, 0x000300C8, 0, 0x00000001⟩ = .ok (.drawLine (-5) 3 200 3 .white) ∧
  decode ⟨0x20, 0, 0, 0, 0x00410101⟩ = .ok (.drawChar 0x41 1 .white) ∧
  decode ⟨0x23, 0, 0xFFFFFFF9, 0, 0x00000001⟩ = .ok (.drawSignedNumber 0 0 (-7) 0 .white) ∧
  decode ⟨0x30, 0, 0, 0, 0⟩ = .ok .update ∧
  decode ⟨0x41, 0, 0, 0, 0⟩ = .ok (.setPower false) ∧
  decode ⟨0x43, 0x00070000, 0, 0, 0⟩ = .ok (.scrollRight 0 7)

/-- Decode and encode agree on every well-formed instruction, with every operand at every value its field holds. -/
def Obligations.DecodeInvertsEncode : Prop :=
  ∀ i : Instr, WellFormed i → decode (encode i) = .ok i

/-- R113 and R107: decoding is total, and refuses exactly the unassigned opcodes; a command with one of those changes only
`CMD`, `OK` and `ERR` (and is over). -/
def Obligations.IllegalOpcodesRaiseIllegalCommand : Prop :=
  (∀ w : CommandWords,
    if unassignedOpcode w.opcode = true then decode w = .error (.illegalOpcode w.opcode) else ∃ i, decode w = .ok i) ∧
  ∀ (opcode : Byte) (s : State), unassignedOpcode opcode = true →
    runCommand opcode s = .next { s with cmd := opcode, ok := false, err := .illegalCommand, busy := false }

/-- Every decoded operand lies in the range that R103 gives its field. -/
def Obligations.DecodedOperandsFitTheirFields : Prop :=
  ∀ (w : CommandWords) (i : Instr), decode w = .ok i → WellFormed i

/-- R109: operand bits that a command does not read are ignored. -/
def Obligations.UnreadBitsAreIgnored : Prop :=
  ∀ w w' : CommandWords, w.opcode = w'.opcode →
    w.arg0 &&& (readMask w.opcode).arg0 = w'.arg0 &&& (readMask w.opcode).arg0 →
    w.arg1 &&& (readMask w.opcode).arg1 = w'.arg1 &&& (readMask w.opcode).arg1 →
    w.arg2 &&& (readMask w.opcode).arg2 = w'.arg2 &&& (readMask w.opcode).arg2 →
    w.arg3 &&& (readMask w.opcode).arg3 = w'.arg3 &&& (readMask w.opcode).arg3 → decode w = decode w'

/-! ## The command cycle and the host -/

/-- A step whose access is a word write of `CMD`, at offset 0 of the register window wherever that sits (R40, R283), is the decoded command's, started (R105): `CMD` holds the opcode, `BUSY` is
set, the access is used up. An opcode that does not decode ends with ILLEGAL_COMMAND (R107). That a step is the host's next
access is the model's choice (log 3). -/
def Obligations.CommandWriteRunsTheDecodedCommand : Prop :=
  ∀ (s : State) (data : Word) (rest : List HostAccess), configWf s.cfg = true → s.fault = none → s.busy = false →
    s.host = .write (s.cfg.windowBase + 0x00) .word data :: rest →
    (∀ i, decode ⟨data.setWidth 8, s.arg0, s.arg1, s.arg2, s.arg3⟩ = .ok i →
      step s = exec i { s with host := rest, cmd := data.setWidth 8, busy := true }) ∧
    (∀ e, decode ⟨data.setWidth 8, s.arg0, s.arg1, s.arg2, s.arg3⟩ = .error e →
      step s = .next { s with
        host := rest, cmd := data.setWidth 8, ok := false, err := .illegalCommand, busy := false })

/-- The state with an opcode-table word runs that word's instruction in its next step (log 3, log 15). -/
def Obligations.FetchWordRunsItsInstruction : Prop :=
  ∀ (s : State) (nbits w : Nat) (i : Instr), configWf s.cfg = true → s.fault = none →
    decodeTableWord nbits w = some i →
    step (s.withFetchWord nbits w) =
      exec i { s with
        arg0 := (tableWords nbits w).arg0, arg1 := (tableWords nbits w).arg1, arg2 := (tableWords nbits w).arg2,
        arg3 := (tableWords nbits w).arg3, cmd := (tableWords nbits w).opcode, busy := true }

/-- The five register writes of an assembled command (R111) run it with its own operands. That a step is one host access is
the model's choice (log 3). -/
def Obligations.AssembledCommandRuns : Prop :=
  ∀ (i : Instr) (s : State) (rest : List HostAccess), WellFormed i → configWf s.cfg = true → s.fault = none →
    s.busy = false → s.host = registerWrites s.cfg i ++ rest →
    Host.Core.run Sys2Proof.core 5 s =
      exec i { s with
        arg0 := (encode i).arg0, arg1 := (encode i).arg1, arg2 := (encode i).arg2, arg3 := (encode i).arg3,
        cmd := (encode i).opcode, busy := true, host := rest }

/-- A host-side list of commands none of which reads source memory runs to its end without a fault or a refusal, from every
state of the invariant (R258, R259; the host's queue is the model's choice, log 3). -/
def Obligations.ProgramsWithoutSourceReadsRunCleanly : Prop :=
  ∀ (p : List Instr) (s : State), Inv s → s.host = [] →
    (∀ i ∈ p, WellFormed i ∧ (encode i).opcode ≠ 0x11 ∧ (encode i).opcode ≠ 0x21) →
    RunsCleanly (5 * p.length) (s.withProgram p)

/-- R42: the host's write of an operand register stores all 32 bits and changes no other state; a read returns them; no
command writes them; they reset to 0. -/
def Obligations.OperandRegistersHoldWhatTheHostWrote : Prop :=
  (∀ (s : State) (v : Word), s.busy = false →
    serve (.write (s.cfg.windowBase + 0x04) .word v) s = .next { s with arg0 := v } ∧
    serve (.write (s.cfg.windowBase + 0x08) .word v) s = .next { s with arg1 := v } ∧
    serve (.write (s.cfg.windowBase + 0x0C) .word v) s = .next { s with arg2 := v } ∧
    serve (.write (s.cfg.windowBase + 0x10) .word v) s = .next { s with arg3 := v }) ∧
  (∀ s : State, readReg .arg0 s = s.arg0 ∧ readReg .arg1 s = s.arg1 ∧ readReg .arg2 s = s.arg2 ∧
    readReg .arg3 s = s.arg3) ∧
  (∀ (i : Instr) (s t : State), exec i s = .next t →
    t.arg0 = s.arg0 ∧ t.arg1 = s.arg1 ∧ t.arg2 = s.arg2 ∧ t.arg3 = s.arg3) ∧
  ∀ c : Config, (State.resetWith c).arg0 = 0 ∧ (State.resetWith c).arg1 = 0 ∧ (State.resetWith c).arg2 = 0 ∧
    (State.resetWith c).arg3 = 0

/-- What a host read of each register and of the framebuffer window returns while no command runs, at the offsets of R40; it
changes no state of the engine. Where the answer is kept, `rdata`, is the model's choice (log 14). -/
def Obligations.HostReadsReturnRegisters : Prop :=
  ∀ s : State, s.busy = false →
    serve (.read (s.cfg.windowBase + 0x00) .word) s = .next { s with rdata := s.cmd.setWidth 32 } ∧
    serve (.read (s.cfg.windowBase + 0x04) .word) s = .next { s with rdata := s.arg0 } ∧
    serve (.read (s.cfg.windowBase + 0x08) .word) s = .next { s with rdata := s.arg1 } ∧
    serve (.read (s.cfg.windowBase + 0x0C) .word) s = .next { s with rdata := s.arg2 } ∧
    serve (.read (s.cfg.windowBase + 0x10) .word) s = .next { s with rdata := s.arg3 } ∧
    serve (.read (s.cfg.windowBase + 0x14) .word) s = .next { s with rdata := statusWord s } ∧
    serve (.read (s.cfg.windowBase + 0x18) .word) s = .next { s with rdata := s.result } ∧
    serve (.read (s.cfg.windowBase + 0x1C) .word) s = .next { s with rdata := s.cy ++ s.cx } ∧
    ∀ i, configWf s.cfg = true → i < s.cfg.size →
      serve (.read (s.cfg.windowBase + (0x10000000 + i)) .byte) s = .next { s with rdata := (s.fbByte i).setWidth 32 }

/-- R49: writes of the read-only registers, of the framebuffer window and of unassigned offsets change no state; a read of
an unassigned offset returns 0; the reserved bits of `STATUS` read 0. That an unassigned offset may be accessed with any
width and alignment is the model's choice (log 9, unsafe), and so is where a read's answer is kept, `rdata` (log 14). -/
def Obligations.ReadOnlyOffsetsIgnoreWrites : Prop :=
  ∀ s : State,
    (∀ v, serve (.write (s.cfg.windowBase + 0x14) .word v) s = .next s ∧ serve (.write (s.cfg.windowBase + 0x18) .word v) s = .next s ∧
      serve (.write (s.cfg.windowBase + 0x1C) .word v) s = .next s) ∧
    (∀ i v, configWf s.cfg = true → i < s.cfg.size →
      serve (.write (s.cfg.windowBase + (0x10000000 + i)) .byte v) s = .next s) ∧
    (∀ (offset : Nat) (width : AccessWidth) (v : Word), 0x20 ≤ offset →
      offset + AccessWidth.bytes width ≤ 2 ^ 32 →
      (offset + AccessWidth.bytes width ≤ 0x10000000 ∨ 0x10000000 + s.cfg.size ≤ offset) →
      serve (.write (s.cfg.windowBase + offset) width v) s = .next s ∧
        serve (.read (s.cfg.windowBase + offset) width) s = .next { s with rdata := 0 }) ∧
    statusWord s &&& 0xFFFFC8E0 = 0

/-- R292: an access of a 32-bit register that is not an aligned word, or of the framebuffer window that is not a byte, is a
protocol violation, wherever the register window sits (R283). -/
def Obligations.MisshapenAccessesFault : Prop :=
  ∀ (s : State) (offset : Nat) (width : AccessWidth) (v : Word), configWf s.cfg = true →
    ((offset < 0x20 ∧ ¬(width = .word ∧ offset % 4 = 0)) ∨
      (0x10000000 ≤ offset ∧ offset < 0x10000000 + s.cfg.size ∧ width ≠ .byte)) →
    serve (.read (s.cfg.windowBase + offset) width) s = .fault .hostProtocol ∧
      serve (.write (s.cfg.windowBase + offset) width v) s = .fault .hostProtocol

/-- The register window is the host's addresses of the 32-bit offsets from the base that the platform gives it (R40, R88,
R283). That an access with a byte beyond them leaves the engine alone and reads a free value is the model's choice (log 27),
and so is that one running into the window from below touches `CMD` (log 9). -/
def Obligations.AccessesOutsideTheWindowMissTheEngine : Prop :=
  ∀ (s : State) (address : Nat) (width : AccessWidth) (v : Word),
    ((address + AccessWidth.bytes width ≤ s.cfg.windowBase ∨
        s.cfg.windowBase + 2 ^ 32 < address + AccessWidth.bytes width) →
      serve (.write address width v) s = .next s ∧
        ∃ t, serve (.read address width) s = .next t ∧ t = { s with rdata := t.rdata, draws := s.draws + 1 }) ∧
    (address < s.cfg.windowBase → s.cfg.windowBase < address + AccessWidth.bytes width →
      serve (.read address width) s = .fault .hostProtocol ∧ serve (.write address width v) s = .fault .hostProtocol)

/-- While a command runs, a write of `CMD` or of an operand register is a protocol violation, and `STATUS` reads with `BUSY`
set (R287). What its other fields read as is a free value in the model (log 8), so this says nothing about them. -/
def Obligations.BusyEngineRejectsHostWrites : Prop :=
  ∀ (s : State) (v : Word), s.busy = true →
    serve (.write (s.cfg.windowBase + 0x00) .word v) s = .fault .hostProtocol ∧ serve (.write (s.cfg.windowBase + 0x04) .word v) s = .fault .hostProtocol ∧
    serve (.write (s.cfg.windowBase + 0x08) .word v) s = .fault .hostProtocol ∧ serve (.write (s.cfg.windowBase + 0x0C) .word v) s = .fault .hostProtocol ∧
    serve (.write (s.cfg.windowBase + 0x10) .word v) s = .fault .hostProtocol ∧
    ∃ t, serve (.read (s.cfg.windowBase + 0x14) .word) s = .next t ∧ t.rdata.getLsbD 8 = true

/-- A configuration that breaks a constraint of R12 or R13 never runs. R259 refuses it when the model is built; that the
refusal is a step's answer instead is the model's choice (log 1). So are the two last clauses on lists (log 12), the
display-on command as a field of the configuration (log 13), and that a font holds exactly `count * height` row words
(`f.rows.length`, log 21), which R13 does not list as a constraint. -/
def Obligations.IllFormedConfigurationIsRefused : Prop :=
  (∀ s : State, s.fault = none → configWf s.cfg = false → step s = .refused .illFormedConfiguration) ∧
  ∀ c : Config, configWf c = true ↔
    (1 ≤ c.width ∧ c.width ≤ 32767 ∧ 8 ≤ c.height ∧ c.height ≤ 32760 ∧ c.height % 8 = 0) ∧
    (1 ≤ c.fonts.length ∧ c.fonts.length ≤ 256 ∧
      ∀ f ∈ c.fonts, 1 ≤ f.count ∧ f.base + f.count ≤ 256 ∧ 1 ≤ f.width ∧ f.width ≤ 16 ∧ 1 ≤ f.height ∧
        f.rows.length = f.count * f.height) ∧
    c.pageSel.length = c.height / 8 ∧ c.initScript.getLast? = some c.displayOn ∧ 1 ≤ c.probeTimeout ∧
    c.width ≤ c.xferCap ∧ c.scrolls.activate ≠ [] ∧ c.scrolls.verticalArea ≠ []

/-- Every step keeps the model's invariant: the configuration stays well-formed, the framebuffer and source memory stay in
canonical form, no command stays in progress, PROBING is never seen, `OK` is set only with `ERR = NONE`, `RESULT` stays an
8-bit value. -/
def Obligations.StepKeepsInv : Prop :=
  ∀ s t : State, Inv s → step s = .next t → Inv t

/-- `STATUS` shows its fields where R43 puts them, and the encodings of `CTRL` (R35) and `ERR` (R250). -/
def Obligations.StatusWordShowsItsFields : Prop :=
  (∀ s : State,
    (statusWord s).getLsbD 0 = s.ok ∧ (statusWord s).extractLsb' 1 4 = BitVec.ofNat 4 s.err.code ∧
    (statusWord s).extractLsb' 5 3 = 0 ∧ (statusWord s).getLsbD 8 = s.busy ∧
    (statusWord s).getLsbD 9 = decide (s.ctrl = .ready) ∧ (statusWord s).getLsbD 10 = s.inv ∧
    (statusWord s).getLsbD 11 = false ∧ (statusWord s).extractLsb' 12 2 = BitVec.ofNat 2 s.ctrl.code ∧
    (statusWord s).extractLsb' 14 18 = 0) ∧
  [Ctrl.uninit, .probing, .failed, .ready].map Ctrl.code = [0, 1, 2, 3] ∧
  [ErrCode.none, .textOverflow, .glyphRange, .badFont, .notReady, .deviceNotPresent, .illegalCommand].map ErrCode.code =
    [0, 1, 2, 3, 4, 5, 6]

/-! ## Framebuffer and cursor commands -/

/-- R108: NOP writes the status and nothing else. -/
def Obligations.NopChangesOnlyTheStatus : Prop :=
  ∀ s : State, ∃ t, exec .nop s = .next t ∧ t = { s with ok := true, err := .none, busy := false } ∧
    (statusWord t).extractLsb' 0 5 = 0b00001#5

/-- R134: FILL writes 0x00 or 0xFF to every byte, whatever `inv` is, and nothing else. -/
def Obligations.FillSetsEveryByte : Prop :=
  ∀ (c : Color) (s : State), ∃ t, exec (.fill c) s = .next t ∧ EndedOk t ∧
    (∀ i, i < s.cfg.size → t.fbByte i = if c = .white then 0xFF else 0x00) ∧ SameButFb s t

/-- R131: on the panel, WRITE_PIXEL sets or clears one bit of one byte, by the colour XOR `inv`; off the panel it does
nothing; no other byte changes, and nothing else but the status. -/
def Obligations.WritePixelChangesOneBitOfOneByte : Prop :=
  ∀ (x y : Nat) (c : Color) (s : State), StateWf s → ∃ t, exec (.writePixel x y c) s = .next t ∧ EndedOk t ∧
    SameButFb s t ∧
    (OnPanel s x y →
      t.fbByte (x + y / 8 * s.cfg.width) =
        if (if s.inv then c.not else c) = .white then s.fbByte (x + y / 8 * s.cfg.width) ||| 1#8 <<< (y % 8)
        else s.fbByte (x + y / 8 * s.cfg.width) &&& ~~~(1#8 <<< (y % 8))) ∧
    ∀ i, (OnPanel s x y → i ≠ x + y / 8 * s.cfg.width) → t.fbByte i = s.fbByte i

/-- R132: on the panel, the pixel written reads as the colour XOR `inv`, and every other pixel is unchanged. -/
def Obligations.WritePixelStoresColorXorInv : Prop :=
  ∀ (x y : Nat) (c : Color) (s : State), StateWf s → OnPanel s x y → ∃ t, exec (.writePixel x y c) s = .next t ∧
    t.pixel x y = (decide (c = .white) ^^ s.inv) ∧
    ∀ x' y', OnPanel s x' y' → (x' ≠ x ∨ y' ≠ y) → t.pixel x' y' = s.pixel x' y'

/-- R133: off the panel, WRITE_PIXEL leaves every framebuffer byte unchanged. -/
def Obligations.WritePixelOffPanelChangesNothing : Prop :=
  ∀ (x y : Nat) (c : Color) (s : State), ¬OnPanel s x y → ∃ t, exec (.writePixel x y c) s = .next t ∧ EndedOk t ∧
    SameButStatus s t

/-- R138: TOGGLE_INVERT flips `inv`, complements every byte, and writes nothing else. -/
def Obligations.ToggleInvertComplementsEveryByte : Prop :=
  ∀ s : State, ∃ t, exec .toggleInvert s = .next t ∧ EndedOk t ∧ t.inv = !s.inv ∧
    (∀ i, i < s.cfg.size → t.fbByte i = s.fbByte i ^^^ 0xFF) ∧
    SameCursor s t ∧ t.ctrl = s.ctrl ∧ t.result = s.result ∧ t.busLog = s.busLog ∧ SameInputs s t ∧ SameDraws s t

/-- R139: TOGGLE_INVERT twice restores the whole framebuffer and `inv`. -/
def Obligations.ToggleInvertTwiceRestores : Prop :=
  ∀ s : State, StateWf s → ∃ t u, exec .toggleInvert s = .next t ∧ exec .toggleInvert t = .next u ∧ u.fb = s.fb ∧
    u.inv = s.inv

/-- R140, for TOGGLE_INVERT and WRITE_PIXEL commands after a FILL: every pixel is the colour last asked for there (the FILL's
colour XOR the `inv` of that FILL where none was) XOR the present `inv`. -/
def Obligations.PixelViewSurvivesToggles : Prop :=
  ∀ (fillColor : Color) (is : List Instr) (s : State), StateWf s → (∀ i ∈ is, isPixelCommand i = true) →
    ∃ t, execAll (.fill fillColor :: is) s = .next t ∧
      ∀ x y, OnPanel s x y →
        t.pixel x y =
          (match lastWritten x y is with
            | some v => decide (v = .white) ^^ t.inv
            | none => (decide (fillColor = .white) ^^ s.inv) ^^ t.inv)

/-- R142: SET_CURSOR stores both coordinates, in range or not, and nothing else; off the panel, the next DRAW_CHAR in a font
that exists fails with TEXT_OVERFLOW. -/
def Obligations.SetCursorStoresWithoutCheck : Prop :=
  ∀ (x y : Nat) (s : State), x < 65536 → y < 65536 → ∃ t, exec (.setCursor x y) s = .next t ∧ EndedOk t ∧
    t.cx.toNat = x ∧ t.cy.toNat = y ∧ SameBytes s t ∧ t.inv = s.inv ∧ t.ctrl = s.ctrl ∧ t.result = s.result ∧
    t.busLog = s.busLog ∧ SameInputs s t ∧ SameDraws s t ∧
    (StateWf s → ¬OnPanel s x y → ∀ ch font color, font < s.cfg.fonts.length →
      ∃ u, exec (.drawChar ch font color) t = .next u ∧ EndedWith .textOverflow u)

/-! ## Rasterizer -/

/-- R157: DRAW_LINE draws its points (whose list the next statements pin down) in the colour XOR `inv`, changes no other
pixel and no byte that holds none of them, and ends with AutoFlush. -/
def Obligations.DrawLineDrawsItsPointsAndFlushes : Prop :=
  ∀ (x0 y0 x1 y1 : Int) (c : Color) (s : State), StateWf s → ∃ t, exec (.drawLine x0 y0 x1 y1 c) s = .next t ∧ EndedOk t ∧
    (∀ x y, OnPanel s x y →
      t.pixel x y =
        if ((x : Int), (y : Int)) ∈ clampedLine s.cfg x0 y0 x1 y1 then decide (c = .white) ^^ s.inv else s.pixel x y) ∧
    (∀ i, (∀ p ∈ clampedLine s.cfg x0 y0 x1 y1, i ≠ pixelIndex s.cfg p.1.toNat p.2.toNat) → t.fbByte i = s.fbByte i) ∧
    Flushed s t ∧ SameCursor s t ∧ t.inv = s.inv ∧ t.ctrl = s.ctrl ∧ t.result = s.result ∧ SameInputs s t ∧ SameDraws s t

/-- R151: DRAW_LINE is DRAW_LINE of its four coordinates clamped each on its own axis; every point it then visits is on the
panel; the rule's example. -/
def Obligations.LineEndpointsAreClamped : Prop :=
  (∀ (x0 y0 x1 y1 : Int) (c : Color) (s : State),
    exec (.drawLine x0 y0 x1 y1 c) s =
      exec (.drawLine (min (max x0 0) (s.cfg.width - 1)) (min (max y0 0) (s.cfg.height - 1))
        (min (max x1 0) (s.cfg.width - 1)) (min (max y1 0) (s.cfg.height - 1)) c) s) ∧
  (∀ (c : Config) (x0 y0 x1 y1 : Int), configWf c = true → ∀ p ∈ clampedLine c x0 y0 x1 y1,
    0 ≤ p.1 ∧ p.1 < c.width ∧ 0 ≤ p.2 ∧ p.2 < c.height) ∧
  ∀ c : Config, configWf c = true → c.width = 128 →
    clampedLine c (-5) 3 200 3 = (List.range 128).map fun (k : Nat) => ((k : Int), (3 : Int))

/-- R152: a vertical or horizontal line is a run of every point between its endpoints, both included, in increasing order,
so the same in both directions; equal endpoints give one point. -/
def Obligations.AxisLinesAreInclusiveRuns : Prop :=
  (∀ x y0 y1 : Int,
    linePoints x y0 x y1 = (List.range ((y1 - y0).natAbs + 1)).map (fun (k : Nat) => (x, min y0 y1 + (k : Int))) ∧
      linePoints x y0 x y1 = linePoints x y1 x y0) ∧
  (∀ y x0 x1 : Int,
    linePoints x0 y x1 y = (List.range ((x1 - x0).natAbs + 1)).map (fun (k : Nat) => (min x0 x1 + (k : Int), y)) ∧
      linePoints x0 y x1 y = linePoints x1 y x0 y) ∧
  ∀ x y : Int, linePoints x y x y = [(x, y)]

/-- R155: a line that is neither vertical nor horizontal has `max(dx, dy) + 1` distinct points, from the first endpoint to
the second; neighbours differ in some coordinate, by at most 1 in each, and never away from the second endpoint; every
point lies in the endpoints' box, and within half a pixel, on the minor axis, of the ideal line; the rule's two examples. -/
def Obligations.SlopedLineIsEightConnected : Prop :=
  (∀ x0 y0 x1 y1 : Int, x0 ≠ x1 → y0 ≠ y1 →
    (linePoints x0 y0 x1 y1).length = max (x1 - x0).natAbs (y1 - y0).natAbs + 1 ∧
    (linePoints x0 y0 x1 y1).Nodup ∧
    (linePoints x0 y0 x1 y1).head? = some (x0, y0) ∧ (linePoints x0 y0 x1 y1).getLast? = some (x1, y1) ∧
    (linePoints x0 y0 x1 y1).IsChain (fun p q =>
      p ≠ q ∧ (q.1 - p.1).natAbs ≤ 1 ∧ (q.2 - p.2).natAbs ≤ 1 ∧
        0 ≤ (q.1 - p.1) * (x1 - x0) ∧ 0 ≤ (q.2 - p.2) * (y1 - y0)) ∧
    ∀ p ∈ linePoints x0 y0 x1 y1,
      min x0 x1 ≤ p.1 ∧ p.1 ≤ max x0 x1 ∧ min y0 y1 ≤ p.2 ∧ p.2 ≤ max y0 y1 ∧
        2 * ((p.2 - y0) * (x1 - x0) - (p.1 - x0) * (y1 - y0)).natAbs ≤ max (x1 - x0).natAbs (y1 - y0).natAbs) ∧
  linePoints 0 0 2 1 = [(0, 0), (1, 0), (2, 1)] ∧ linePoints 2 1 0 0 = [(2, 1), (1, 1), (0, 0)]

/-- R156: the source's two examples, on every panel that holds them. -/
def Obligations.LineExamplesOfTheSource : Prop :=
  ∀ (c : Color) (s : State), StateWf s → 11 ≤ s.cfg.height →
    (∃ t, exec (.drawLine 0 0 0 10 c) s = .next t ∧
      ∀ x y, OnPanel s x y →
        t.pixel x y = if x = 0 ∧ y ≤ 10 then decide (c = .white) ^^ s.inv else s.pixel x y) ∧
    (11 ≤ s.cfg.width →
      ∃ t, exec (.drawLine 0 0 10 10 c) s = .next t ∧
        ∀ x y, OnPanel s x y →
          t.pixel x y = if x = y ∧ x ≤ 10 then decide (c = .white) ^^ s.inv else s.pixel x y)

/-- R161: where every source byte it reads is admitted, DRAW_BITMAP writes exactly the pixels whose source bit is set, the
first column being the high bit of a row's first byte; every other pixel, every byte that holds none of them, and everything
else but the status is unchanged. -/
def Obligations.DrawBitmapDrawsTheSetBits : Prop :=
  ∀ (x y src w h : Nat) (c : Color) (s : State), StateWf s → BitmapReadable s src w h →
    ∃ t, exec (.drawBitmap x y src w h c) s = .next t ∧ EndedOk t ∧
      (∀ px py, OnPanel s px py →
        t.pixel px py =
          if x ≤ px ∧ px < x + w ∧ y ≤ py ∧ py < y + h ∧ bitmapBit s src w (py - y) (px - x) = true then
            decide (c = .white) ^^ s.inv
          else s.pixel px py) ∧
      (∀ k, (∀ i j, i < w → j < h → OnPanel s (x + i) (y + j) → bitmapBit s src w j i = true →
          k ≠ pixelIndex s.cfg (x + i) (y + j)) → t.fbByte k = s.fbByte k) ∧
      SameButFb s t

/-- DRAW_BITMAP leaves the specification exactly where one of the bytes it reads is not admitted (R78, R163). Which bytes
are admitted is the model's list of source bytes (log 7). -/
def Obligations.DrawBitmapFaultsOffMemory : Prop :=
  ∀ (x y src w h : Nat) (c : Color) (s : State),
    exec (.drawBitmap x y src w h c) s = .fault .srcUnmapped ↔ ¬BitmapReadable s src w h

/-! ## Text -/

/-- R183: a character that fits and has a glyph is drawn opaque, a pixel being (b XNOR c) XOR `inv`; the cursor advances by
the glyph's width; `RESULT` is the character; nothing else changes, and the bus is silent. -/
def Obligations.DrawCharDrawsAnOpaqueGlyph : Prop :=
  ∀ (ch : Byte) (font : Nat) (c : Color) (s : State) (f : Font), StateWf s → s.cfg.fonts[font]? = some f →
    s.cx.toNat + f.width ≤ s.cfg.width → s.cy.toNat + f.height ≤ s.cfg.height →
    f.base ≤ ch.toNat → ch.toNat < f.base + f.count →
    ∃ t, exec (.drawChar ch font c) s = .next t ∧ EndedOk t ∧
      (∀ i j, i < f.height → j < f.width →
        t.pixel (s.cx.toNat + j) (s.cy.toNat + i) =
          ((fontRow f (ch.toNat - f.base) i).getLsbD (15 - j) == decide (c = .white) ^^ s.inv)) ∧
      (∀ x y, OnPanel s x y →
        ¬(s.cx.toNat ≤ x ∧ x < s.cx.toNat + f.width ∧ s.cy.toNat ≤ y ∧ y < s.cy.toNat + f.height) →
        t.pixel x y = s.pixel x y) ∧
      (∀ k, (∀ i j, i < f.height → j < f.width → k ≠ pixelIndex s.cfg (s.cx.toNat + j) (s.cy.toNat + i)) →
        t.fbByte k = s.fbByte k) ∧
      t.cx.toNat = s.cx.toNat + f.width ∧ t.cy = s.cy ∧ t.result = ch.setWidth 32 ∧
      t.inv = s.inv ∧ t.ctrl = s.ctrl ∧ t.busLog = s.busLog ∧ SameInputs s t ∧ SameDraws s t

/-- A character that does not fit, or fits and has no glyph, writes no pixel and does not move the cursor; the fit is
checked first; `RESULT` is the character (R181, R184, R255). -/
def Obligations.DrawCharFailureDrawsNothing : Prop :=
  ∀ (ch : Byte) (font : Nat) (c : Color) (s : State) (f : Font), s.cfg.fonts[font]? = some f →
    (s.cfg.width < s.cx.toNat + f.width ∨ s.cfg.height < s.cy.toNat + f.height →
      exec (.drawChar ch font c) s =
        .next { s with result := ch.setWidth 32, ok := false, err := .textOverflow, busy := false }) ∧
    (s.cx.toNat + f.width ≤ s.cfg.width → s.cy.toNat + f.height ≤ s.cfg.height →
      (ch.toNat < f.base ∨ f.base + f.count ≤ ch.toNat) →
      exec (.drawChar ch font c) s =
        .next { s with result := ch.setWidth 32, ok := false, err := .glyphRange, busy := false })

/-- R81: a text command with a font that does not exist ends with BAD_FONT before any other effect. -/
def Obligations.BadFontHasNoOtherEffect : Prop :=
  ∀ (i : Instr) (font : Nat) (s : State), fontOf i = some font → s.cfg.fonts.length ≤ font →
    exec i s = .next { s with ok := false, err := .badFont, busy := false }

/-- The string and number commands draw every character up to the terminator, opaque, from `(x, y)` to the right; the cursor
ends just after the last, `RESULT` is 0, and AutoFlush follows. An empty string only sets the cursor and flushes
(R186, R187, R191, R194, R197). The admitted source bytes are the model's list (log 7). -/
def Obligations.TextDrawsItsCharacters : Prop :=
  ∀ (i : Instr) (s : State) (job : TextJob) (f : Font) (cs : List Byte), WellFormed i → StateWf s →
    textJob s i = some job → s.cfg.fonts[job.font]? = some f → Yields job.next cs → job.next cs.length = some 0 →
    (cs ≠ [] → job.x + cs.length * f.width ≤ s.cfg.width ∧ job.y + f.height ≤ s.cfg.height) →
    (∀ ch ∈ cs, f.base ≤ ch.toNat ∧ ch.toNat < f.base + f.count) →
    ∃ t, exec i s = .next t ∧ EndedOk t ∧ TextDrawn f job.color cs job.x job.y s t ∧ t.result = 0 ∧
      t.cx.toNat = job.x + cs.length * f.width ∧ t.cy.toNat = job.y ∧ Flushed s t ∧ SameButText s t

/-- R188: the first character that fails ends the string: what was drawn before it stays, the cursor stays after the last
glyph drawn, nothing is flushed, and `RESULT` is the character. The fit is checked before the glyph range. -/
def Obligations.TextStopsAtTheFirstFailure : Prop :=
  ∀ (i : Instr) (s : State) (job : TextJob) (f : Font) (cs : List Byte) (ch : Byte), WellFormed i → StateWf s →
    textJob s i = some job → s.cfg.fonts[job.font]? = some f → Yields job.next cs → job.next cs.length = some ch →
    ch ≠ 0 →
    (cs ≠ [] → job.x + cs.length * f.width ≤ s.cfg.width ∧ job.y + f.height ≤ s.cfg.height) →
    (∀ d ∈ cs, f.base ≤ d.toNat ∧ d.toNat < f.base + f.count) →
    (s.cfg.width < job.x + (cs.length + 1) * f.width ∨ s.cfg.height < job.y + f.height ∨
      ch.toNat < f.base ∨ f.base + f.count ≤ ch.toNat) →
    ∃ t, exec i s = .next t ∧
      EndedWith
        (if s.cfg.width < job.x + (cs.length + 1) * f.width ∨ s.cfg.height < job.y + f.height then .textOverflow
          else .glyphRange) t ∧
      TextDrawn f job.color cs job.x job.y s t ∧ t.result = ch.setWidth 32 ∧
      t.cx.toNat = job.x + cs.length * f.width ∧ t.cy.toNat = job.y ∧ t.busLog = s.busLog ∧ SameButText s t

/-- R189: DRAW_STRING of `n` characters with glyphs that is too wide for its row fails with TEXT_OVERFLOW at the first index
`k` with `x + width * (k + 1) > W`, with no pixel of that or a later character; too low on the panel, at the first
character; and with GLYPH_RANGE at a character before that index that has no glyph. -/
def Obligations.TooWideStringReportsFirstOverflow : Prop :=
  ∀ (x y src font : Nat) (c : Color) (s : State) (f : Font) (cs : List Byte),
    WellFormed (.drawString x y src font c) → StateWf s → s.cfg.fonts[font]? = some f → cs ≠ [] →
    Yields (fun k => s.memRead (src + k)) cs →
    ((∀ d ∈ cs, f.base ≤ d.toNat ∧ d.toNat < f.base + f.count) → y + f.height ≤ s.cfg.height →
      s.cfg.width < x + f.width * cs.length →
      ∃ k t, k < cs.length ∧ s.cfg.width < x + f.width * (k + 1) ∧ (∀ k' < k, x + f.width * (k' + 1) ≤ s.cfg.width) ∧
        exec (.drawString x y src font c) s = .next t ∧ EndedWith .textOverflow t ∧
        some t.result = (cs[k]?).map (BitVec.setWidth 32) ∧ TextDrawn f c (cs.take k) x y s t) ∧
    (s.cfg.height < y + f.height →
      ∃ t, exec (.drawString x y src font c) s = .next t ∧ EndedWith .textOverflow t ∧
        some t.result = (cs.head?).map (BitVec.setWidth 32) ∧ SameBytes s t) ∧
    ∀ k, k < cs.length → y + f.height ≤ s.cfg.height → x + f.width * (k + 1) ≤ s.cfg.width →
      (∀ d ∈ cs.take k, f.base ≤ d.toNat ∧ d.toNat < f.base + f.count) →
      (∀ d, cs[k]? = some d → d.toNat < f.base ∨ f.base + f.count ≤ d.toNat) →
      ∃ t, exec (.drawString x y src font c) s = .next t ∧ EndedWith .glyphRange t ∧
        some t.result = (cs[k]?).map (BitVec.setWidth 32) ∧ TextDrawn f c (cs.take k) x y s t

/-- DRAW_STRING leaves the specification where, after characters that it draws, the next byte is not admitted (R78, R187).
Which bytes are admitted is the model's list of source bytes (log 7). -/
def Obligations.DrawStringFaultsOffMemory : Prop :=
  ∀ (x y src font : Nat) (c : Color) (s : State) (f : Font) (cs : List Byte),
    WellFormed (.drawString x y src font c) → StateWf s → s.cfg.fonts[font]? = some f →
    Yields (fun k => s.memRead (src + k)) cs → s.memRead (src + cs.length) = none →
    (cs ≠ [] → x + cs.length * f.width ≤ s.cfg.width ∧ y + f.height ≤ s.cfg.height) →
    (∀ ch ∈ cs, f.base ≤ ch.toNat ∧ ch.toNat < f.base + f.count) →
    exec (.drawString x y src font c) s = .fault .srcUnmapped

/-- R192: `Dec(n)` is the digits of `n` in base 10, most significant first, without leading zeros, digit `d` being the code
`0x30 + d`; the signs are 0x2B and 0x2D. -/
def Obligations.DecimalTextSpellsTheNumber : Prop :=
  (∀ n : Nat,
    (∀ d ∈ dec n, 0x30 ≤ d.toNat ∧ d.toNat ≤ 0x39) ∧
    (dec n).foldl (fun a d => a * 10 + (d.toNat - 0x30)) 0 = n ∧
    (n ≠ 0 → ∃ d rest, dec n = d :: rest ∧ d ≠ 0x30)) ∧
  dec 0 = [0x30] ∧
  ∀ v : Int, signedText v = (if v < 0 then 0x2D else 0x2B) :: (dec v.natAbs ++ [0])

/-- R193: an unsigned value is at most 10 digits and a terminator; a signed one at most 12 bytes, the longest with that many
being -2147483648. -/
def Obligations.NumberTextFitsItsBuffer : Prop :=
  (∀ v : Nat, v < 2 ^ 32 → (numberText v).length ≤ 11) ∧
  (∀ v : Int, -2 ^ 31 ≤ v → v < 2 ^ 31 → (signedText v).length ≤ 12) ∧
  signedText (-2147483648) = [0x2D, 0x32, 0x31, 0x34, 0x37, 0x34, 0x38, 0x33, 0x36, 0x34, 0x38, 0x00]

/-! ## Page transfer and display controller -/

/-- R215 and R213: with the bus open, UPDATE sends, for each page in increasing order, its page-select byte, the
column-reset pair, and its `W` bytes; the blocks together are the framebuffer. With the bus closed it raises NOT_READY.
Nothing else changes. -/
def Obligations.UpdateSendsEveryPage : Prop :=
  ∀ s : State,
    (BusIsOpen s → ∃ t more, exec .update s = .next t ∧ EndedOk t ∧ SameButBus s t ∧ t.busLog = s.busLog ++ more ∧
      more.length = 4 * s.cfg.pages ∧
      (∀ m, m < s.cfg.pages →
        (∀ b, s.cfg.pageSel[m]? = some b → more[4 * m]? = some (.cmd s.cfg.devAddr b)) ∧
        more[4 * m + 1]? = some (.cmd s.cfg.devAddr s.cfg.colLo) ∧
        more[4 * m + 2]? = some (.cmd s.cfg.devAddr s.cfg.colHi) ∧
        more[4 * m + 3]? =
          some (.data s.cfg.devAddr ((List.range s.cfg.width).map fun k => s.fbByte (m * s.cfg.width + k)))) ∧
      more.flatMap BusTxn.block = (List.range s.cfg.size).map s.fbByte) ∧
    (¬BusIsOpen s → ∃ t, exec .update s = .next t ∧ EndedWith .notReady t ∧ SameButStatus s t)

/-- R219: CLEAR writes 0x00 to every byte, then, with the bus open, transfers the framebuffer, and with the bus closed raises
NOT_READY and sends nothing. -/
def Obligations.ClearClearsThenTransfers : Prop :=
  ∀ s : State, ∃ t, exec .clear s = .next t ∧ (∀ i, i < s.cfg.size → t.fbByte i = 0x00) ∧
    (if BusIsOpen s then EndedOk t ∧ t.busLog = s.busLog ++ transferTxns t.cfg t.fb
      else EndedWith .notReady t ∧ t.busLog = s.busLog) ∧
    SameCursor s t ∧ t.inv = s.inv ∧ t.ctrl = s.ctrl ∧ t.result = s.result ∧ SameInputs s t ∧ SameDraws s t

/-- R226: INIT probes; on READY it sends the script, clears the framebuffer, transfers it, resets the cursor and sets READY;
on NOT_READY it sets FAILED and raises DEVICE_NOT_PRESENT, and nothing else changes. The answer is a free input. -/
def Obligations.InitFollowsTheProbe : Prop :=
  ∀ s : State,
    (s.nextProbe = .ready → ∃ t, exec .init s = .next t ∧ EndedOk t ∧ (∀ i, i < s.cfg.size → t.fbByte i = 0x00) ∧
      t.cx = 0 ∧ t.cy = 0 ∧ t.ctrl = .ready ∧ t.inv = s.inv ∧ t.result = s.result ∧ SameInputs s t ∧
      t.busLog = s.busLog ++ [.probe s.cfg.devAddr .ready] ++ s.cfg.initScript.map (.cmd s.cfg.devAddr) ++
        transferTxns t.cfg t.fb ∧
      (s.inv = false → statusWord t = 0x00003201)) ∧
    (s.nextProbe = .notReady → ∃ t, exec .init s = .next t ∧ EndedWith .deviceNotPresent t ∧ SameBytes s t ∧
      SameCursor s t ∧ t.ctrl = .failed ∧ t.inv = s.inv ∧ t.result = s.result ∧ SameInputs s t ∧
      t.busLog = s.busLog ++ [.probe s.cfg.devAddr .notReady])

/-- INIT uses up one answer of the environment's, or one free value where it holds none, and no other command uses any
(R86; the list and the free values are the model's, log 4). -/
def Obligations.OnlyInitUsesProbeAnswers : Prop :=
  ∀ (i : Instr) (s t : State), exec i s = .next t →
    (i = .init → t.probeIn = s.probeIn.tail ∧ t.draws = s.draws + 1) ∧ (i ≠ .init → SameDraws s t)

/-- R225: INIT runs in any state and leaves READY or FAILED; no other command changes `ctrl`. -/
def Obligations.OnlyInitChangesCtrl : Prop :=
  (∀ s : State, ∃ t, exec .init s = .next t ∧ (t.ctrl = .ready ∨ t.ctrl = .failed)) ∧
  ∀ (i : Instr) (s t : State), exec i s = .next t → i ≠ .init → t.ctrl = s.ctrl

/-- R240, with R230, R232, R234, R235, R238, R239 (and the sending of R236 and R237, whose vertical scroll area the next
statement is about): SET_POWER, INVERT_HW, the scrolls (for every page range) and STOP_SCROLL send their
list as commands, in order, with the bus open, raise NOT_READY with it closed, and change nothing else. -/
def Obligations.ControllerCommandsSendTheirLists : Prop :=
  ∀ (i : Instr) (bs : List Byte) (s : State), controllerBytes s.cfg i = some bs →
    (BusIsOpen s → ∃ t, exec i s = .next t ∧ EndedOk t ∧ t.busLog = s.busLog ++ bs.map (.cmd s.cfg.devAddr) ∧
      SameButBus s t) ∧
    (¬BusIsOpen s → ∃ t, exec i s = .next t ∧ EndedWith .notReady t ∧ SameButStatus s t)

/-- Every scroll list ends with the scroll-activate command, and before it a diagonal one programs the vertical scroll area
(R233). The split of a list into these parts is the model's (log 12). -/
def Obligations.ScrollListsEndWithActivate : Prop :=
  ∀ (c : Config) (s e : Byte), configWf c = true →
    c.scrolls.activate ≠ [] ∧ c.scrolls.verticalArea ≠ [] ∧
    (∀ kind, ∃ body, scrollSeq c kind s e = body ++ c.scrolls.activate) ∧
    ∀ kind, kind = .diagRight ∨ kind = .diagLeft →
      ∃ a b, scrollSeq c kind s e = a ++ c.scrolls.verticalArea ++ b ++ c.scrolls.activate

/-- R210: the bus is open where it is not gated or INIT has succeeded; while it is closed, no command but INIT sends; INIT is
never gated. -/
def Obligations.BusStaysSilentWhileClosed : Prop :=
  (∀ s : State, busOpen s = true ↔ s.cfg.busGate = .ungated ∨ s.ctrl = .ready) ∧
  (∀ (i : Instr) (s t : State), ¬BusIsOpen s → i ≠ .init → exec i s = .next t → t.busLog = s.busLog) ∧
  ∀ s : State, ∃ t more, exec .init s = .next t ∧ t.busLog = s.busLog ++ .probe s.cfg.devAddr s.nextProbe :: more

/-- R52: no step removes from `BUSLOG`, and what it appends are transactions of the engine's device; it is empty after
reset. -/
def Obligations.BusLogOnlyGrows : Prop :=
  (∀ s t : State, step s = .next t → ∃ more, t.busLog = s.busLog ++ more ∧ ∀ x ∈ more, txnOf s.cfg x) ∧
  ∀ c : Config, (State.resetWith c).busLog = []

/-- R214: framebuffer contents reach the bus in a page transfer only, and only UPDATE, CLEAR, INIT and the commands that end
with AutoFlush make one. -/
def Obligations.OnlyTransfersSendPixels : Prop :=
  ∀ (i : Instr) (s t : State), exec i s = .next t →
    ∃ more, (∀ x ∈ more, x.block = []) ∧
      (t.busLog = s.busLog ++ more ∨ (mayTransfer i = true ∧ t.busLog = s.busLog ++ more ++ transferTxns t.cfg t.fb))

/-! ## All commands -/

/-- A command that ends writes `ERR`, sets `OK` exactly where `ERR` is NONE, and is over (R105, R106, R107). Of which error
`ERR` holds, this says only that it is NONE or one that the table of R250 lists for the command. A run that faults does not
end: `FAULT` is marked, and `OK`, `ERR` and `BUSY` are not written (R258); that it answers a fault, and that the marked state
is `Run.final`, is the model's choice (log 11). -/
def Obligations.EveryCommandWritesItsStatus : Prop :=
  (∀ (opcode : Byte) (s t : State), runCommand opcode s = .next t →
    t.busy = false ∧ (t.ok = true ↔ t.err = .none) ∧ t.cmd = opcode) ∧
  (∀ (opcode : Byte) (s t : State) (i : Instr), decode ⟨opcode, s.arg0, s.arg1, s.arg2, s.arg3⟩ = .ok i →
    runCommand opcode s = .next t → t.err = .none ∨ t.err ∈ mayRaise i) ∧
  ∀ (r : Run) (f : Fault), r.ending = .faulted f →
    conclude r = .fault f ∧ r.final.fault = some f ∧ r.final.ok = r.state.ok ∧ r.final.err = r.state.err ∧
      r.final.busy = r.state.busy

/-- No command is refused, and only DRAW_BITMAP and DRAW_STRING can fault, on a source read (R258). -/
def Obligations.OnlySourceReadsFault : Prop :=
  ∀ (i : Instr) (s : State),
    (∃ t, exec i s = .next t) ∨
      (exec i s = .fault .srcUnmapped ∧
        ((∃ x y src w h c, i = .drawBitmap x y src w h c) ∨ ∃ x y src font c, i = .drawString x y src font c))

/-- Who writes what (R31, R33, R34, R42, R45, R70): a command that is not one of a piece of state's writers leaves it
alone, and no command writes the operand registers, `CMD`, source memory, the configuration or the host's side. -/
def Obligations.EachFieldHasItsWriters : Prop :=
  ∀ (i : Instr) (s t : State), exec i s = .next t →
    (i ≠ .toggleInvert → t.inv = s.inv) ∧
    (mayMoveCursor i = false → SameCursor s t) ∧
    (isText i = false → t.result = s.result) ∧
    (mayWriteBytes i = false → SameBytes s t) ∧
    (i ≠ .init → controllerBytes s.cfg i = none → mayTransfer i = false → t.busLog = s.busLog) ∧
    SameInputs s t

/-- R284: a command that is not of the page-transfer or controller units has the same effect on the framebuffer, the cursor,
`inv` and `RESULT`, and ends with the same status, whatever the controller's state and the bus traffic so far. -/
def Obligations.DrawingIgnoresControllerState : Prop :=
  ∀ (i : Instr) (s t : State) (k : Ctrl) (log : List BusTxn), (encode i).opcode.toNat < 0x30 → exec i s = .next t →
    ∃ u, exec i { s with ctrl := k, busLog := log } = .next u ∧ u.fb = t.fb ∧ u.cx = t.cx ∧ u.cy = t.cy ∧
      u.inv = t.inv ∧ u.result = t.result ∧ u.ok = t.ok ∧ u.err = t.err ∧ u.ctrl = k
end

