-- ==== Sys2Proof/Laws/Memory.lean ====
section
/-! SUPPORT. Laws of memory: every operation keeps the canonical form; a read after a write at the same address gives the
value written, and a write leaves every other address alone; canonical memories that read alike are equal. -/

namespace Sys2Proof.Machine

open Sys2Proof

/-! ## The canonical form -/

/-- Rising addresses, said of the list as a whole. -/
theorem Memory.rising_iff (lo : Option Nat) (m : Memory) :
    Memory.rising lo m = true ↔
      (∀ l, lo = some l → ∀ c ∈ m, l < c.1) ∧ m.Pairwise fun c d => c.1 < d.1 := by
  induction m generalizing lo with
  | nil => simp [Memory.rising]
  | cons c rest ih =>
    obtain ⟨a, b⟩ := c
    cases lo with
    | none => simp [Memory.rising, ih]
    | some l =>
      simp only [Memory.rising, Bool.and_eq_true, decide_eq_true_eq, ih, Option.some.injEq, List.mem_cons,
        List.pairwise_cons]
      constructor
      · rintro ⟨hla, hr, hp⟩
        refine ⟨?_, fun d hd => hr a rfl d hd, hp⟩
        rintro _ rfl d (rfl | hd)
        · exact hla
        · exact hla.trans (hr a rfl d hd)
      · rintro ⟨hl, hr, hp⟩
        exact ⟨hl l rfl _ (Or.inl rfl), fun _ h d hd => h ▸ hr d hd, hp⟩

/-- The canonical form, said of the list as a whole. -/
theorem Memory.wf_iff (sp : Space) (m : Memory) :
    Memory.wf sp m = true ↔
      m.Pairwise (fun c d => c.1 < d.1) ∧ ∀ c ∈ m, c.1 < sp.limit ∧ sp.unlisted ≠ some c.2 := by
  simp [Memory.wf, Memory.rising_iff, Bool.and_eq_true]

theorem Memory.wf_nil (sp : Space) : Memory.wf sp [] = true := by simp [Memory.wf_iff]

theorem Memory.mem_insert {m : Memory} {k : Nat} {v : Byte} {c : Host.Cell} (h : c ∈ Memory.insert m k v) :
    c = (k, v) ∨ c ∈ m := by
  induction m with
  | nil => simpa [Memory.insert] using h
  | cons d rest ih =>
    obtain ⟨a, b⟩ := d
    simp only [Memory.insert] at h
    split_ifs at h with h1 h2
    · simpa using h
    · simp only [List.mem_cons] at h ⊢
      tauto
    · simp only [List.mem_cons] at h ⊢
      rcases h with h | h
      · exact Or.inr (Or.inl h)
      · rcases ih h with h | h
        · exact Or.inl h
        · exact Or.inr (Or.inr h)

theorem Memory.erase_sublist (m : Memory) (k : Nat) : (Memory.erase m k).Sublist m := by
  induction m with
  | nil => exact List.Sublist.refl _
  | cons d rest ih =>
    obtain ⟨a, b⟩ := d
    simp only [Memory.erase]
    split_ifs
    · exact List.sublist_cons_self _ _
    · exact ih.cons_cons _

theorem Memory.pairwise_insert {m : Memory} (k : Nat) (v : Byte) (h : m.Pairwise fun c d => c.1 < d.1) :
    (Memory.insert m k v).Pairwise fun c d => c.1 < d.1 := by
  induction m with
  | nil => simp [Memory.insert]
  | cons d rest ih =>
    obtain ⟨a, b⟩ := d
    rw [List.pairwise_cons] at h
    simp only [Memory.insert]
    split_ifs with h1 h2
    · refine List.pairwise_cons.2 ⟨?_, List.pairwise_cons.2 h⟩
      intro c hc
      rcases List.mem_cons.1 hc with rfl | hc
      · exact h1
      · exact h1.trans (h.1 c hc)
    · subst h2
      exact List.pairwise_cons.2 h
    · refine List.pairwise_cons.2 ⟨?_, ih h.2⟩
      intro c hc
      rcases Memory.mem_insert hc with rfl | hc
      · simp only; omega
      · exact h.1 c hc

/-- Writing keeps the canonical form. -/
theorem Memory.wf_write {sp : Space} {m : Memory} (a : Nat) (v : Byte) (h : Memory.wf sp m = true) :
    Memory.wf sp (Memory.write sp m a v) = true := by
  rw [Memory.wf_iff] at h ⊢
  unfold Memory.write
  split_ifs with h1 h2
  · exact ⟨h.1.sublist (Memory.erase_sublist m a), fun c hc => h.2 c ((Memory.erase_sublist m a).subset hc)⟩
  · refine ⟨Memory.pairwise_insert a v h.1, fun c hc => ?_⟩
    rcases Memory.mem_insert hc with rfl | hc
    · exact ⟨h1, h2⟩
    · exact h.2 c hc
  · exact h

/-- A memory built address by address is in canonical form. -/
theorem Memory.wf_build (sp : Space) (n : Nat) (f : Nat → Byte) (hn : n ≤ sp.limit) :
    Memory.wf sp (Memory.build sp n f) = true := by
  rw [Memory.wf_iff]
  constructor
  · unfold Memory.build
    rw [List.pairwise_filterMap]
    refine List.pairwise_lt_range.imp ?_
    intro a b hab c hc d hd
    split_ifs at hc hd
    simp only [Option.some.injEq] at hc hd
    subst hc hd
    exact hab
  · intro c hc
    obtain ⟨i, hi, hc⟩ := List.mem_filterMap.1 hc
    split_ifs at hc with hu
    simp only [Option.some.injEq] at hc
    subst hc
    exact ⟨(List.mem_range.1 hi).trans_le hn, hu⟩

/-! ## Reading -/

theorem Memory.lookup_eq_none {m : Memory} {k : Nat} (h : ∀ c ∈ m, c.1 ≠ k) : m.lookup k = none := by
  induction m with
  | nil => rfl
  | cons d rest ih =>
    obtain ⟨a, b⟩ := d
    have hne : a ≠ k := h _ List.mem_cons_self
    simp only [Memory.lookup, hne, if_false]
    exact ih fun c hc => h c (List.mem_cons_of_mem _ hc)

theorem Memory.mem_of_lookup {m : Memory} {k : Nat} {v : Byte} (h : m.lookup k = some v) : (k, v) ∈ m := by
  induction m with
  | nil => cases h
  | cons d rest ih =>
    obtain ⟨a, b⟩ := d
    simp only [Memory.lookup] at h
    split_ifs at h with hk
    · subst hk
      cases h
      exact List.mem_cons_self
    · exact List.mem_cons_of_mem _ (ih h)

theorem Memory.lookup_of_mem {m : Memory} {k : Nat} {v : Byte} (hp : m.Pairwise fun c d => c.1 < d.1) (h : (k, v) ∈ m) :
    m.lookup k = some v := by
  induction m with
  | nil => cases h
  | cons d rest ih =>
    obtain ⟨a, b⟩ := d
    rw [List.pairwise_cons] at hp
    simp only [Memory.lookup]
    rcases List.mem_cons.1 h with h | h
    · cases h
      simp
    · have := hp.1 _ h
      simp only at this
      rw [if_neg (by omega)]
      exact ih hp.2 h

theorem Memory.lookup_insert_self (m : Memory) (k : Nat) (v : Byte) : Memory.lookup (Memory.insert m k v) k = some v := by
  induction m with
  | nil => simp [Memory.insert, Memory.lookup]
  | cons d rest ih =>
    obtain ⟨a, b⟩ := d
    simp only [Memory.insert]
    split_ifs with h1 h2
    · simp [Memory.lookup]
    · simp [Memory.lookup]
    · simp only [Memory.lookup]
      rw [if_neg (by omega)]
      exact ih

theorem Memory.lookup_insert_of_ne (m : Memory) {k j : Nat} (v : Byte) (h : j ≠ k) :
    Memory.lookup (Memory.insert m k v) j = m.lookup j := by
  induction m with
  | nil => simp [Memory.insert, Memory.lookup, h.symm]
  | cons d rest ih =>
    obtain ⟨a, b⟩ := d
    simp only [Memory.insert]
    split_ifs with h1 h2
    · simp [Memory.lookup, h.symm]
    · subst h2
      simp [Memory.lookup, h.symm]
    · simp only [Memory.lookup, ih]

theorem Memory.lookup_erase_self {m : Memory} (k : Nat) (hp : m.Pairwise fun c d => c.1 < d.1) :
    Memory.lookup (Memory.erase m k) k = none := by
  induction m with
  | nil => rfl
  | cons d rest ih =>
    obtain ⟨a, b⟩ := d
    rw [List.pairwise_cons] at hp
    simp only [Memory.erase]
    split_ifs with h
    · subst h
      exact Memory.lookup_eq_none fun c hc => (hp.1 c hc).ne'
    · simp only [Memory.lookup, if_neg h]
      exact ih hp.2

theorem Memory.lookup_erase_of_ne (m : Memory) {k j : Nat} (h : j ≠ k) :
    Memory.lookup (Memory.erase m k) j = m.lookup j := by
  induction m with
  | nil => rfl
  | cons d rest ih =>
    obtain ⟨a, b⟩ := d
    simp only [Memory.erase]
    split_ifs with hk
    · subst hk
      simp [Memory.lookup, h.symm]
    · simp only [Memory.lookup, ih]

/-- A read after a write at the same address gives the value written. -/
theorem Memory.read_write_self {sp : Space} {m : Memory} {a : Nat} (v : Byte) (ha : a < sp.limit)
    (h : Memory.wf sp m = true) : Memory.read sp (Memory.write sp m a v) a = some v := by
  unfold Memory.read Memory.write
  rw [if_pos ha, if_pos ha]
  split_ifs with hu
  · rw [Memory.lookup_erase_self a ((Memory.wf_iff sp m).1 h).1, hu]
    rfl
  · rw [Memory.lookup_insert_self]
    rfl

/-- A write leaves every other address alone. -/
theorem Memory.read_write_of_ne (sp : Space) (m : Memory) {a j : Nat} (v : Byte) (h : j ≠ a) :
    Memory.read sp (Memory.write sp m a v) j = Memory.read sp m j := by
  unfold Memory.read Memory.write
  split_ifs <;> first | rfl | rw [Memory.lookup_erase_of_ne m h] | rw [Memory.lookup_insert_of_ne m v h]

theorem Memory.lookup_build (sp : Space) (n : Nat) (f : Nat → Byte) (i : Nat) :
    Memory.lookup (Memory.build sp n f) i =
      if i < n then (if sp.unlisted = some (f i) then none else some (f i)) else none := by
  have hp : (Memory.build sp n f).Pairwise fun c d => c.1 < d.1 :=
    ((Memory.wf_iff { sp with limit := n } _).1 (Memory.wf_build { sp with limit := n } n f le_rfl)).1
  have hmem : ∀ v, (i, v) ∈ Memory.build sp n f ↔ i < n ∧ sp.unlisted ≠ some (f i) ∧ v = f i := by
    intro v
    unfold Memory.build
    rw [List.mem_filterMap]
    constructor
    · rintro ⟨j, hj, hv⟩
      split_ifs at hv with hu
      simp only [Option.some.injEq, Prod.mk.injEq] at hv
      obtain ⟨rfl, rfl⟩ := hv
      exact ⟨List.mem_range.1 hj, hu, rfl⟩
    · rintro ⟨hi, hu, rfl⟩
      exact ⟨i, List.mem_range.2 hi, by rw [if_neg hu]⟩
  split_ifs with hi hu
  · cases hl : Memory.lookup (Memory.build sp n f) i with
    | none => rfl
    | some v => exact absurd hu ((hmem v).1 (Memory.mem_of_lookup hl)).2.1
  · exact Memory.lookup_of_mem hp ((hmem _).2 ⟨hi, hu, rfl⟩)
  · cases hl : Memory.lookup (Memory.build sp n f) i with
    | none => rfl
    | some v => exact absurd ((hmem v).1 (Memory.mem_of_lookup hl)).1 hi

/-- A memory built address by address reads as it was built. -/
theorem Memory.read_build (sp : Space) (n : Nat) (f : Nat → Byte) {i : Nat} (hi : i < n) (hn : n ≤ sp.limit) :
    Memory.read sp (Memory.build sp n f) i = some (f i) := by
  unfold Memory.read
  rw [if_pos (hi.trans_le hn), Memory.lookup_build, if_pos hi]
  split_ifs with hu
  · simpa using hu
  · rfl

/-! ## Equal memories are equal lists -/

theorem Memory.ext_lookup {m m' : Memory} (h : m.Pairwise fun c d => c.1 < d.1) (h' : m'.Pairwise fun c d => c.1 < d.1)
    (hl : ∀ k, m.lookup k = m'.lookup k) : m = m' := by
  induction m generalizing m' with
  | nil =>
    cases m' with
    | nil => rfl
    | cons d _ =>
      have := hl d.1
      simp [Memory.lookup] at this
  | cons c rest ih =>
    cases m' with
    | nil =>
      have := hl c.1
      simp [Memory.lookup] at this
    | cons d rest' =>
      obtain ⟨a, b⟩ := c
      obtain ⟨a', b'⟩ := d
      rw [List.pairwise_cons] at h h'
      have key : a = a' := by
        by_contra hne
        rcases Nat.lt_or_gt_of_ne hne with hlt | hgt
        · have := hl a
          rw [Memory.lookup, if_pos rfl, Memory.lookup, if_neg (Ne.symm hne),
            Memory.lookup_eq_none fun c hc => by have := h'.1 c hc; simp only at this; omega] at this
          cases this
        · have := hl a'
          rw [Memory.lookup, if_neg hne, Memory.lookup, if_pos rfl,
            Memory.lookup_eq_none fun c hc => by have := h.1 c hc; simp only at this; omega] at this
          cases this
      subst key
      have hb := hl a
      simp only [Memory.lookup, if_true, Option.some.injEq] at hb
      subst hb
      rw [ih h.2 h'.2 fun k => ?_]
      by_cases hk : a = k
      · subst hk
        rw [Memory.lookup_eq_none fun c hc => (h.1 c hc).ne', Memory.lookup_eq_none fun c hc => (h'.1 c hc).ne']
      · simpa [Memory.lookup, hk] using hl k

/-- Canonical memories that read alike are equal. -/
theorem Memory.ext_read {sp : Space} {m m' : Memory} (h : Memory.wf sp m = true) (h' : Memory.wf sp m' = true)
    (hr : ∀ a, a < sp.limit → Memory.read sp m a = Memory.read sp m' a) : m = m' := by
  rw [Memory.wf_iff] at h h'
  refine Memory.ext_lookup h.1 h'.1 fun k => ?_
  by_cases hk : k < sp.limit
  · have := hr k hk
    unfold Memory.read at this
    rw [if_pos hk, if_pos hk] at this
    cases hm : m.lookup k with
    | none =>
      cases hm' : m'.lookup k with
      | none => rfl
      | some v =>
        rw [hm, hm'] at this
        exact absurd this (h'.2 _ (Memory.mem_of_lookup hm')).2
    | some v =>
      cases hm' : m'.lookup k with
      | none =>
        rw [hm, hm'] at this
        exact absurd this.symm (h.2 _ (Memory.mem_of_lookup hm)).2
      | some v' =>
        rw [hm, hm'] at this
        simpa using this
  · rw [Memory.lookup_eq_none fun c hc => by have := (h.2 c hc).1; omega,
      Memory.lookup_eq_none fun c hc => by have := (h'.2 c hc).1; omega]

end Sys2Proof.Machine
end

