-- ==== Sys2Proof/Laws/State.lean ====
section
/-! SUPPORT. What each named update of the state does to each field: one lemma a field, by definition, so that no proof
unfolds a record update. -/

namespace Sys2Proof.Machine

open Sys2Proof

variable (s : State)

/-! ## `State.draw` -/

@[simp] theorem State.draw_cfg (ps : List Pixel) : (s.draw ps).cfg = s.cfg := rfl
@[simp] theorem State.draw_fb (ps : List Pixel) : (s.draw ps).fb = ps.foldl (plot s.cfg s.inv) s.fb := rfl
@[simp] theorem State.draw_cx (ps : List Pixel) : (s.draw ps).cx = s.cx := rfl
@[simp] theorem State.draw_cy (ps : List Pixel) : (s.draw ps).cy = s.cy := rfl
@[simp] theorem State.draw_inv (ps : List Pixel) : (s.draw ps).inv = s.inv := rfl
@[simp] theorem State.draw_ctrl (ps : List Pixel) : (s.draw ps).ctrl = s.ctrl := rfl
@[simp] theorem State.draw_arg0 (ps : List Pixel) : (s.draw ps).arg0 = s.arg0 := rfl
@[simp] theorem State.draw_arg1 (ps : List Pixel) : (s.draw ps).arg1 = s.arg1 := rfl
@[simp] theorem State.draw_arg2 (ps : List Pixel) : (s.draw ps).arg2 = s.arg2 := rfl
@[simp] theorem State.draw_arg3 (ps : List Pixel) : (s.draw ps).arg3 = s.arg3 := rfl
@[simp] theorem State.draw_cmd (ps : List Pixel) : (s.draw ps).cmd = s.cmd := rfl
@[simp] theorem State.draw_ok (ps : List Pixel) : (s.draw ps).ok = s.ok := rfl
@[simp] theorem State.draw_err (ps : List Pixel) : (s.draw ps).err = s.err := rfl
@[simp] theorem State.draw_busy (ps : List Pixel) : (s.draw ps).busy = s.busy := rfl
@[simp] theorem State.draw_result (ps : List Pixel) : (s.draw ps).result = s.result := rfl
@[simp] theorem State.draw_busLog (ps : List Pixel) : (s.draw ps).busLog = s.busLog := rfl
@[simp] theorem State.draw_fault (ps : List Pixel) : (s.draw ps).fault = s.fault := rfl
@[simp] theorem State.draw_src (ps : List Pixel) : (s.draw ps).src = s.src := rfl
@[simp] theorem State.draw_host (ps : List Pixel) : (s.draw ps).host = s.host := rfl
@[simp] theorem State.draw_probeIn (ps : List Pixel) : (s.draw ps).probeIn = s.probeIn := rfl
@[simp] theorem State.draw_rdata (ps : List Pixel) : (s.draw ps).rdata = s.rdata := rfl
@[simp] theorem State.draw_draws (ps : List Pixel) : (s.draw ps).draws = s.draws := rfl

/-! ## `State.setBytes` -/

@[simp] theorem State.setBytes_cfg (f : Nat → Byte) : (s.setBytes f).cfg = s.cfg := rfl
@[simp] theorem State.setBytes_fb (f : Nat → Byte) : (s.setBytes f).fb = Memory.build (fbSpace s.cfg) s.cfg.size f := rfl
@[simp] theorem State.setBytes_cx (f : Nat → Byte) : (s.setBytes f).cx = s.cx := rfl
@[simp] theorem State.setBytes_cy (f : Nat → Byte) : (s.setBytes f).cy = s.cy := rfl
@[simp] theorem State.setBytes_inv (f : Nat → Byte) : (s.setBytes f).inv = s.inv := rfl
@[simp] theorem State.setBytes_ctrl (f : Nat → Byte) : (s.setBytes f).ctrl = s.ctrl := rfl
@[simp] theorem State.setBytes_arg0 (f : Nat → Byte) : (s.setBytes f).arg0 = s.arg0 := rfl
@[simp] theorem State.setBytes_arg1 (f : Nat → Byte) : (s.setBytes f).arg1 = s.arg1 := rfl
@[simp] theorem State.setBytes_arg2 (f : Nat → Byte) : (s.setBytes f).arg2 = s.arg2 := rfl
@[simp] theorem State.setBytes_arg3 (f : Nat → Byte) : (s.setBytes f).arg3 = s.arg3 := rfl
@[simp] theorem State.setBytes_cmd (f : Nat → Byte) : (s.setBytes f).cmd = s.cmd := rfl
@[simp] theorem State.setBytes_ok (f : Nat → Byte) : (s.setBytes f).ok = s.ok := rfl
@[simp] theorem State.setBytes_err (f : Nat → Byte) : (s.setBytes f).err = s.err := rfl
@[simp] theorem State.setBytes_busy (f : Nat → Byte) : (s.setBytes f).busy = s.busy := rfl
@[simp] theorem State.setBytes_result (f : Nat → Byte) : (s.setBytes f).result = s.result := rfl
@[simp] theorem State.setBytes_busLog (f : Nat → Byte) : (s.setBytes f).busLog = s.busLog := rfl
@[simp] theorem State.setBytes_fault (f : Nat → Byte) : (s.setBytes f).fault = s.fault := rfl
@[simp] theorem State.setBytes_src (f : Nat → Byte) : (s.setBytes f).src = s.src := rfl
@[simp] theorem State.setBytes_host (f : Nat → Byte) : (s.setBytes f).host = s.host := rfl
@[simp] theorem State.setBytes_probeIn (f : Nat → Byte) : (s.setBytes f).probeIn = s.probeIn := rfl
@[simp] theorem State.setBytes_rdata (f : Nat → Byte) : (s.setBytes f).rdata = s.rdata := rfl
@[simp] theorem State.setBytes_draws (f : Nat → Byte) : (s.setBytes f).draws = s.draws := rfl

/-! ## `State.fill` -/

@[simp] theorem State.fill_cfg (c : Color) : (s.fill c).cfg = s.cfg := rfl
@[simp] theorem State.fill_fb (c : Color) : (s.fill c).fb = Memory.build (fbSpace s.cfg) s.cfg.size fun _ => fillByte c := rfl
@[simp] theorem State.fill_cx (c : Color) : (s.fill c).cx = s.cx := rfl
@[simp] theorem State.fill_cy (c : Color) : (s.fill c).cy = s.cy := rfl
@[simp] theorem State.fill_inv (c : Color) : (s.fill c).inv = s.inv := rfl
@[simp] theorem State.fill_ctrl (c : Color) : (s.fill c).ctrl = s.ctrl := rfl
@[simp] theorem State.fill_arg0 (c : Color) : (s.fill c).arg0 = s.arg0 := rfl
@[simp] theorem State.fill_arg1 (c : Color) : (s.fill c).arg1 = s.arg1 := rfl
@[simp] theorem State.fill_arg2 (c : Color) : (s.fill c).arg2 = s.arg2 := rfl
@[simp] theorem State.fill_arg3 (c : Color) : (s.fill c).arg3 = s.arg3 := rfl
@[simp] theorem State.fill_cmd (c : Color) : (s.fill c).cmd = s.cmd := rfl
@[simp] theorem State.fill_ok (c : Color) : (s.fill c).ok = s.ok := rfl
@[simp] theorem State.fill_err (c : Color) : (s.fill c).err = s.err := rfl
@[simp] theorem State.fill_busy (c : Color) : (s.fill c).busy = s.busy := rfl
@[simp] theorem State.fill_result (c : Color) : (s.fill c).result = s.result := rfl
@[simp] theorem State.fill_busLog (c : Color) : (s.fill c).busLog = s.busLog := rfl
@[simp] theorem State.fill_fault (c : Color) : (s.fill c).fault = s.fault := rfl
@[simp] theorem State.fill_src (c : Color) : (s.fill c).src = s.src := rfl
@[simp] theorem State.fill_host (c : Color) : (s.fill c).host = s.host := rfl
@[simp] theorem State.fill_probeIn (c : Color) : (s.fill c).probeIn = s.probeIn := rfl
@[simp] theorem State.fill_rdata (c : Color) : (s.fill c).rdata = s.rdata := rfl
@[simp] theorem State.fill_draws (c : Color) : (s.fill c).draws = s.draws := rfl

/-! ## `State.sendBytes` -/

@[simp] theorem State.sendBytes_cfg (bs : List Byte) : (s.sendBytes bs).cfg = s.cfg := rfl
@[simp] theorem State.sendBytes_fb (bs : List Byte) : (s.sendBytes bs).fb = s.fb := rfl
@[simp] theorem State.sendBytes_cx (bs : List Byte) : (s.sendBytes bs).cx = s.cx := rfl
@[simp] theorem State.sendBytes_cy (bs : List Byte) : (s.sendBytes bs).cy = s.cy := rfl
@[simp] theorem State.sendBytes_inv (bs : List Byte) : (s.sendBytes bs).inv = s.inv := rfl
@[simp] theorem State.sendBytes_ctrl (bs : List Byte) : (s.sendBytes bs).ctrl = s.ctrl := rfl
@[simp] theorem State.sendBytes_arg0 (bs : List Byte) : (s.sendBytes bs).arg0 = s.arg0 := rfl
@[simp] theorem State.sendBytes_arg1 (bs : List Byte) : (s.sendBytes bs).arg1 = s.arg1 := rfl
@[simp] theorem State.sendBytes_arg2 (bs : List Byte) : (s.sendBytes bs).arg2 = s.arg2 := rfl
@[simp] theorem State.sendBytes_arg3 (bs : List Byte) : (s.sendBytes bs).arg3 = s.arg3 := rfl
@[simp] theorem State.sendBytes_cmd (bs : List Byte) : (s.sendBytes bs).cmd = s.cmd := rfl
@[simp] theorem State.sendBytes_ok (bs : List Byte) : (s.sendBytes bs).ok = s.ok := rfl
@[simp] theorem State.sendBytes_err (bs : List Byte) : (s.sendBytes bs).err = s.err := rfl
@[simp] theorem State.sendBytes_busy (bs : List Byte) : (s.sendBytes bs).busy = s.busy := rfl
@[simp] theorem State.sendBytes_result (bs : List Byte) : (s.sendBytes bs).result = s.result := rfl
@[simp] theorem State.sendBytes_busLog (bs : List Byte) : (s.sendBytes bs).busLog = s.busLog ++ bs.map (.cmd s.cfg.devAddr) := rfl
@[simp] theorem State.sendBytes_fault (bs : List Byte) : (s.sendBytes bs).fault = s.fault := rfl
@[simp] theorem State.sendBytes_src (bs : List Byte) : (s.sendBytes bs).src = s.src := rfl
@[simp] theorem State.sendBytes_host (bs : List Byte) : (s.sendBytes bs).host = s.host := rfl
@[simp] theorem State.sendBytes_probeIn (bs : List Byte) : (s.sendBytes bs).probeIn = s.probeIn := rfl
@[simp] theorem State.sendBytes_rdata (bs : List Byte) : (s.sendBytes bs).rdata = s.rdata := rfl
@[simp] theorem State.sendBytes_draws (bs : List Byte) : (s.sendBytes bs).draws = s.draws := rfl

/-! ## `State.transfer` -/

@[simp] theorem State.transfer_cfg : (s.transfer).cfg = s.cfg := rfl
@[simp] theorem State.transfer_fb : (s.transfer).fb = s.fb := rfl
@[simp] theorem State.transfer_cx : (s.transfer).cx = s.cx := rfl
@[simp] theorem State.transfer_cy : (s.transfer).cy = s.cy := rfl
@[simp] theorem State.transfer_inv : (s.transfer).inv = s.inv := rfl
@[simp] theorem State.transfer_ctrl : (s.transfer).ctrl = s.ctrl := rfl
@[simp] theorem State.transfer_arg0 : (s.transfer).arg0 = s.arg0 := rfl
@[simp] theorem State.transfer_arg1 : (s.transfer).arg1 = s.arg1 := rfl
@[simp] theorem State.transfer_arg2 : (s.transfer).arg2 = s.arg2 := rfl
@[simp] theorem State.transfer_arg3 : (s.transfer).arg3 = s.arg3 := rfl
@[simp] theorem State.transfer_cmd : (s.transfer).cmd = s.cmd := rfl
@[simp] theorem State.transfer_ok : (s.transfer).ok = s.ok := rfl
@[simp] theorem State.transfer_err : (s.transfer).err = s.err := rfl
@[simp] theorem State.transfer_busy : (s.transfer).busy = s.busy := rfl
@[simp] theorem State.transfer_result : (s.transfer).result = s.result := rfl
@[simp] theorem State.transfer_busLog : (s.transfer).busLog = s.busLog ++ transferTxns s.cfg s.fb := rfl
@[simp] theorem State.transfer_fault : (s.transfer).fault = s.fault := rfl
@[simp] theorem State.transfer_src : (s.transfer).src = s.src := rfl
@[simp] theorem State.transfer_host : (s.transfer).host = s.host := rfl
@[simp] theorem State.transfer_probeIn : (s.transfer).probeIn = s.probeIn := rfl
@[simp] theorem State.transfer_rdata : (s.transfer).rdata = s.rdata := rfl
@[simp] theorem State.transfer_draws : (s.transfer).draws = s.draws := rfl

/-! ## `State.probe` -/

@[simp] theorem State.probe_cfg : (s.probe).cfg = s.cfg := rfl
@[simp] theorem State.probe_fb : (s.probe).fb = s.fb := rfl
@[simp] theorem State.probe_cx : (s.probe).cx = s.cx := rfl
@[simp] theorem State.probe_cy : (s.probe).cy = s.cy := rfl
@[simp] theorem State.probe_inv : (s.probe).inv = s.inv := rfl
@[simp] theorem State.probe_ctrl : (s.probe).ctrl = s.ctrl := rfl
@[simp] theorem State.probe_arg0 : (s.probe).arg0 = s.arg0 := rfl
@[simp] theorem State.probe_arg1 : (s.probe).arg1 = s.arg1 := rfl
@[simp] theorem State.probe_arg2 : (s.probe).arg2 = s.arg2 := rfl
@[simp] theorem State.probe_arg3 : (s.probe).arg3 = s.arg3 := rfl
@[simp] theorem State.probe_cmd : (s.probe).cmd = s.cmd := rfl
@[simp] theorem State.probe_ok : (s.probe).ok = s.ok := rfl
@[simp] theorem State.probe_err : (s.probe).err = s.err := rfl
@[simp] theorem State.probe_busy : (s.probe).busy = s.busy := rfl
@[simp] theorem State.probe_result : (s.probe).result = s.result := rfl
@[simp] theorem State.probe_busLog : (s.probe).busLog = s.busLog ++ [.probe s.cfg.devAddr s.nextProbe] := rfl
@[simp] theorem State.probe_fault : (s.probe).fault = s.fault := rfl
@[simp] theorem State.probe_src : (s.probe).src = s.src := rfl
@[simp] theorem State.probe_host : (s.probe).host = s.host := rfl
@[simp] theorem State.probe_probeIn : (s.probe).probeIn = s.probeIn.tail := rfl
@[simp] theorem State.probe_rdata : (s.probe).rdata = s.rdata := rfl
@[simp] theorem State.probe_draws : (s.probe).draws = s.draws + 1 := rfl

/-! ## `State.setStatus` -/

@[simp] theorem State.setStatus_cfg (e : ErrCode) : (s.setStatus e).cfg = s.cfg := rfl
@[simp] theorem State.setStatus_fb (e : ErrCode) : (s.setStatus e).fb = s.fb := rfl
@[simp] theorem State.setStatus_cx (e : ErrCode) : (s.setStatus e).cx = s.cx := rfl
@[simp] theorem State.setStatus_cy (e : ErrCode) : (s.setStatus e).cy = s.cy := rfl
@[simp] theorem State.setStatus_inv (e : ErrCode) : (s.setStatus e).inv = s.inv := rfl
@[simp] theorem State.setStatus_ctrl (e : ErrCode) : (s.setStatus e).ctrl = s.ctrl := rfl
@[simp] theorem State.setStatus_arg0 (e : ErrCode) : (s.setStatus e).arg0 = s.arg0 := rfl
@[simp] theorem State.setStatus_arg1 (e : ErrCode) : (s.setStatus e).arg1 = s.arg1 := rfl
@[simp] theorem State.setStatus_arg2 (e : ErrCode) : (s.setStatus e).arg2 = s.arg2 := rfl
@[simp] theorem State.setStatus_arg3 (e : ErrCode) : (s.setStatus e).arg3 = s.arg3 := rfl
@[simp] theorem State.setStatus_cmd (e : ErrCode) : (s.setStatus e).cmd = s.cmd := rfl
@[simp] theorem State.setStatus_ok (e : ErrCode) : (s.setStatus e).ok = (e == .none) := rfl
@[simp] theorem State.setStatus_err (e : ErrCode) : (s.setStatus e).err = e := rfl
@[simp] theorem State.setStatus_busy (e : ErrCode) : (s.setStatus e).busy = false := rfl
@[simp] theorem State.setStatus_result (e : ErrCode) : (s.setStatus e).result = s.result := rfl
@[simp] theorem State.setStatus_busLog (e : ErrCode) : (s.setStatus e).busLog = s.busLog := rfl
@[simp] theorem State.setStatus_fault (e : ErrCode) : (s.setStatus e).fault = s.fault := rfl
@[simp] theorem State.setStatus_src (e : ErrCode) : (s.setStatus e).src = s.src := rfl
@[simp] theorem State.setStatus_host (e : ErrCode) : (s.setStatus e).host = s.host := rfl
@[simp] theorem State.setStatus_probeIn (e : ErrCode) : (s.setStatus e).probeIn = s.probeIn := rfl
@[simp] theorem State.setStatus_rdata (e : ErrCode) : (s.setStatus e).rdata = s.rdata := rfl
@[simp] theorem State.setStatus_draws (e : ErrCode) : (s.setStatus e).draws = s.draws := rfl

/-! ## `State.setResult` -/

@[simp] theorem State.setResult_cfg (ch : Byte) : (s.setResult ch).cfg = s.cfg := rfl
@[simp] theorem State.setResult_fb (ch : Byte) : (s.setResult ch).fb = s.fb := rfl
@[simp] theorem State.setResult_cx (ch : Byte) : (s.setResult ch).cx = s.cx := rfl
@[simp] theorem State.setResult_cy (ch : Byte) : (s.setResult ch).cy = s.cy := rfl
@[simp] theorem State.setResult_inv (ch : Byte) : (s.setResult ch).inv = s.inv := rfl
@[simp] theorem State.setResult_ctrl (ch : Byte) : (s.setResult ch).ctrl = s.ctrl := rfl
@[simp] theorem State.setResult_arg0 (ch : Byte) : (s.setResult ch).arg0 = s.arg0 := rfl
@[simp] theorem State.setResult_arg1 (ch : Byte) : (s.setResult ch).arg1 = s.arg1 := rfl
@[simp] theorem State.setResult_arg2 (ch : Byte) : (s.setResult ch).arg2 = s.arg2 := rfl
@[simp] theorem State.setResult_arg3 (ch : Byte) : (s.setResult ch).arg3 = s.arg3 := rfl
@[simp] theorem State.setResult_cmd (ch : Byte) : (s.setResult ch).cmd = s.cmd := rfl
@[simp] theorem State.setResult_ok (ch : Byte) : (s.setResult ch).ok = s.ok := rfl
@[simp] theorem State.setResult_err (ch : Byte) : (s.setResult ch).err = s.err := rfl
@[simp] theorem State.setResult_busy (ch : Byte) : (s.setResult ch).busy = s.busy := rfl
@[simp] theorem State.setResult_result (ch : Byte) : (s.setResult ch).result = ch.setWidth 32 := rfl
@[simp] theorem State.setResult_busLog (ch : Byte) : (s.setResult ch).busLog = s.busLog := rfl
@[simp] theorem State.setResult_fault (ch : Byte) : (s.setResult ch).fault = s.fault := rfl
@[simp] theorem State.setResult_src (ch : Byte) : (s.setResult ch).src = s.src := rfl
@[simp] theorem State.setResult_host (ch : Byte) : (s.setResult ch).host = s.host := rfl
@[simp] theorem State.setResult_probeIn (ch : Byte) : (s.setResult ch).probeIn = s.probeIn := rfl
@[simp] theorem State.setResult_rdata (ch : Byte) : (s.setResult ch).rdata = s.rdata := rfl
@[simp] theorem State.setResult_draws (ch : Byte) : (s.setResult ch).draws = s.draws := rfl

/-! ## `State.start` -/

@[simp] theorem State.start_cfg (op : Byte) : (s.start op).cfg = s.cfg := rfl
@[simp] theorem State.start_fb (op : Byte) : (s.start op).fb = s.fb := rfl
@[simp] theorem State.start_cx (op : Byte) : (s.start op).cx = s.cx := rfl
@[simp] theorem State.start_cy (op : Byte) : (s.start op).cy = s.cy := rfl
@[simp] theorem State.start_inv (op : Byte) : (s.start op).inv = s.inv := rfl
@[simp] theorem State.start_ctrl (op : Byte) : (s.start op).ctrl = s.ctrl := rfl
@[simp] theorem State.start_arg0 (op : Byte) : (s.start op).arg0 = s.arg0 := rfl
@[simp] theorem State.start_arg1 (op : Byte) : (s.start op).arg1 = s.arg1 := rfl
@[simp] theorem State.start_arg2 (op : Byte) : (s.start op).arg2 = s.arg2 := rfl
@[simp] theorem State.start_arg3 (op : Byte) : (s.start op).arg3 = s.arg3 := rfl
@[simp] theorem State.start_cmd (op : Byte) : (s.start op).cmd = op := rfl
@[simp] theorem State.start_ok (op : Byte) : (s.start op).ok = s.ok := rfl
@[simp] theorem State.start_err (op : Byte) : (s.start op).err = s.err := rfl
@[simp] theorem State.start_busy (op : Byte) : (s.start op).busy = true := rfl
@[simp] theorem State.start_result (op : Byte) : (s.start op).result = s.result := rfl
@[simp] theorem State.start_busLog (op : Byte) : (s.start op).busLog = s.busLog := rfl
@[simp] theorem State.start_fault (op : Byte) : (s.start op).fault = s.fault := rfl
@[simp] theorem State.start_src (op : Byte) : (s.start op).src = s.src := rfl
@[simp] theorem State.start_host (op : Byte) : (s.start op).host = s.host := rfl
@[simp] theorem State.start_probeIn (op : Byte) : (s.start op).probeIn = s.probeIn := rfl
@[simp] theorem State.start_rdata (op : Byte) : (s.start op).rdata = s.rdata := rfl
@[simp] theorem State.start_draws (op : Byte) : (s.start op).draws = s.draws := rfl

/-! ## `State.answer` -/

@[simp] theorem State.answer_cfg (v : Word) (free : Bool) : (s.answer v free).cfg = s.cfg := rfl
@[simp] theorem State.answer_fb (v : Word) (free : Bool) : (s.answer v free).fb = s.fb := rfl
@[simp] theorem State.answer_cx (v : Word) (free : Bool) : (s.answer v free).cx = s.cx := rfl
@[simp] theorem State.answer_cy (v : Word) (free : Bool) : (s.answer v free).cy = s.cy := rfl
@[simp] theorem State.answer_inv (v : Word) (free : Bool) : (s.answer v free).inv = s.inv := rfl
@[simp] theorem State.answer_ctrl (v : Word) (free : Bool) : (s.answer v free).ctrl = s.ctrl := rfl
@[simp] theorem State.answer_arg0 (v : Word) (free : Bool) : (s.answer v free).arg0 = s.arg0 := rfl
@[simp] theorem State.answer_arg1 (v : Word) (free : Bool) : (s.answer v free).arg1 = s.arg1 := rfl
@[simp] theorem State.answer_arg2 (v : Word) (free : Bool) : (s.answer v free).arg2 = s.arg2 := rfl
@[simp] theorem State.answer_arg3 (v : Word) (free : Bool) : (s.answer v free).arg3 = s.arg3 := rfl
@[simp] theorem State.answer_cmd (v : Word) (free : Bool) : (s.answer v free).cmd = s.cmd := rfl
@[simp] theorem State.answer_ok (v : Word) (free : Bool) : (s.answer v free).ok = s.ok := rfl
@[simp] theorem State.answer_err (v : Word) (free : Bool) : (s.answer v free).err = s.err := rfl
@[simp] theorem State.answer_busy (v : Word) (free : Bool) : (s.answer v free).busy = s.busy := rfl
@[simp] theorem State.answer_result (v : Word) (free : Bool) : (s.answer v free).result = s.result := rfl
@[simp] theorem State.answer_busLog (v : Word) (free : Bool) : (s.answer v free).busLog = s.busLog := rfl
@[simp] theorem State.answer_fault (v : Word) (free : Bool) : (s.answer v free).fault = s.fault := rfl
@[simp] theorem State.answer_src (v : Word) (free : Bool) : (s.answer v free).src = s.src := rfl
@[simp] theorem State.answer_host (v : Word) (free : Bool) : (s.answer v free).host = s.host := rfl
@[simp] theorem State.answer_probeIn (v : Word) (free : Bool) : (s.answer v free).probeIn = s.probeIn := rfl
@[simp] theorem State.answer_rdata (v : Word) (free : Bool) : (s.answer v free).rdata = v := rfl
@[simp] theorem State.answer_draws (v : Word) (free : Bool) : (s.answer v free).draws = s.draws + free.toNat := rfl

/-! ## `State.bringUp` -/

@[simp] theorem State.bringUp_cfg : (s.bringUp).cfg = s.cfg := rfl
@[simp] theorem State.bringUp_fb : (s.bringUp).fb = Memory.build (fbSpace s.cfg) s.cfg.size fun _ => fillByte .black := rfl
@[simp] theorem State.bringUp_cx : (s.bringUp).cx = 0 := rfl
@[simp] theorem State.bringUp_cy : (s.bringUp).cy = 0 := rfl
@[simp] theorem State.bringUp_inv : (s.bringUp).inv = s.inv := rfl
@[simp] theorem State.bringUp_ctrl : (s.bringUp).ctrl = .ready := rfl
@[simp] theorem State.bringUp_arg0 : (s.bringUp).arg0 = s.arg0 := rfl
@[simp] theorem State.bringUp_arg1 : (s.bringUp).arg1 = s.arg1 := rfl
@[simp] theorem State.bringUp_arg2 : (s.bringUp).arg2 = s.arg2 := rfl
@[simp] theorem State.bringUp_arg3 : (s.bringUp).arg3 = s.arg3 := rfl
@[simp] theorem State.bringUp_cmd : (s.bringUp).cmd = s.cmd := rfl
@[simp] theorem State.bringUp_ok : (s.bringUp).ok = s.ok := rfl
@[simp] theorem State.bringUp_err : (s.bringUp).err = s.err := rfl
@[simp] theorem State.bringUp_busy : (s.bringUp).busy = s.busy := rfl
@[simp] theorem State.bringUp_result : (s.bringUp).result = s.result := rfl
@[simp] theorem State.bringUp_busLog : (s.bringUp).busLog = s.busLog ++ s.cfg.initScript.map (.cmd s.cfg.devAddr) ++ transferTxns s.cfg (s.fill .black).fb := rfl
@[simp] theorem State.bringUp_fault : (s.bringUp).fault = s.fault := rfl
@[simp] theorem State.bringUp_src : (s.bringUp).src = s.src := rfl
@[simp] theorem State.bringUp_host : (s.bringUp).host = s.host := rfl
@[simp] theorem State.bringUp_probeIn : (s.bringUp).probeIn = s.probeIn := rfl
@[simp] theorem State.bringUp_rdata : (s.bringUp).rdata = s.rdata := rfl
@[simp] theorem State.bringUp_draws : (s.bringUp).draws = s.draws := rfl

/-! ## `State.autoFlush` -/

@[simp] theorem State.autoFlush_cfg : s.autoFlush.cfg = s.cfg := by unfold State.autoFlush; split <;> rfl
@[simp] theorem State.autoFlush_fb : s.autoFlush.fb = s.fb := by unfold State.autoFlush; split <;> rfl
@[simp] theorem State.autoFlush_cx : s.autoFlush.cx = s.cx := by unfold State.autoFlush; split <;> rfl
@[simp] theorem State.autoFlush_cy : s.autoFlush.cy = s.cy := by unfold State.autoFlush; split <;> rfl
@[simp] theorem State.autoFlush_inv : s.autoFlush.inv = s.inv := by unfold State.autoFlush; split <;> rfl
@[simp] theorem State.autoFlush_ctrl : s.autoFlush.ctrl = s.ctrl := by unfold State.autoFlush; split <;> rfl
@[simp] theorem State.autoFlush_arg0 : s.autoFlush.arg0 = s.arg0 := by unfold State.autoFlush; split <;> rfl
@[simp] theorem State.autoFlush_arg1 : s.autoFlush.arg1 = s.arg1 := by unfold State.autoFlush; split <;> rfl
@[simp] theorem State.autoFlush_arg2 : s.autoFlush.arg2 = s.arg2 := by unfold State.autoFlush; split <;> rfl
@[simp] theorem State.autoFlush_arg3 : s.autoFlush.arg3 = s.arg3 := by unfold State.autoFlush; split <;> rfl
@[simp] theorem State.autoFlush_cmd : s.autoFlush.cmd = s.cmd := by unfold State.autoFlush; split <;> rfl
@[simp] theorem State.autoFlush_ok : s.autoFlush.ok = s.ok := by unfold State.autoFlush; split <;> rfl
@[simp] theorem State.autoFlush_err : s.autoFlush.err = s.err := by unfold State.autoFlush; split <;> rfl
@[simp] theorem State.autoFlush_busy : s.autoFlush.busy = s.busy := by unfold State.autoFlush; split <;> rfl
@[simp] theorem State.autoFlush_result : s.autoFlush.result = s.result := by unfold State.autoFlush; split <;> rfl
theorem State.autoFlush_busLog :
    s.autoFlush.busLog =
      if s.cfg.autoFlush == .original && busOpen s then s.busLog ++ transferTxns s.cfg s.fb else s.busLog := by
  unfold State.autoFlush
  split <;> rfl
@[simp] theorem State.autoFlush_fault : s.autoFlush.fault = s.fault := by unfold State.autoFlush; split <;> rfl
@[simp] theorem State.autoFlush_src : s.autoFlush.src = s.src := by unfold State.autoFlush; split <;> rfl
@[simp] theorem State.autoFlush_host : s.autoFlush.host = s.host := by unfold State.autoFlush; split <;> rfl
@[simp] theorem State.autoFlush_probeIn : s.autoFlush.probeIn = s.probeIn := by unfold State.autoFlush; split <;> rfl
@[simp] theorem State.autoFlush_rdata : s.autoFlush.rdata = s.rdata := by unfold State.autoFlush; split <;> rfl
@[simp] theorem State.autoFlush_draws : s.autoFlush.draws = s.draws := by unfold State.autoFlush; split <;> rfl

/-! ## `State.initEffect` -/

theorem State.initEffect_ready (h : s.nextProbe = .ready) :
    s.initEffect = { s with ctrl := .probing }.probe.bringUp := by simp [State.initEffect, h]

theorem State.initEffect_notReady (h : s.nextProbe = .notReady) :
    s.initEffect = { { s with ctrl := .probing }.probe with ctrl := .failed } := by simp [State.initEffect, h]

/-- INIT's effects reach the framebuffer, the cursor, `ctrl`, the bus, and the probe's inputs only (R281). -/
theorem State.initEffect_frame :
    s.initEffect =
      { s with
        fb := s.initEffect.fb, cx := s.initEffect.cx, cy := s.initEffect.cy, ctrl := s.initEffect.ctrl,
        busLog := s.initEffect.busLog, probeIn := s.initEffect.probeIn, draws := s.initEffect.draws } := by
  cases h : s.nextProbe
  · rw [State.initEffect_ready s h]
    rfl
  · rw [State.initEffect_notReady s h]
    rfl

@[simp] theorem State.initEffect_cfg : s.initEffect.cfg = s.cfg := by rw [State.initEffect_frame]
@[simp] theorem State.initEffect_inv : s.initEffect.inv = s.inv := by rw [State.initEffect_frame]
@[simp] theorem State.initEffect_arg0 : s.initEffect.arg0 = s.arg0 := by rw [State.initEffect_frame]
@[simp] theorem State.initEffect_arg1 : s.initEffect.arg1 = s.arg1 := by rw [State.initEffect_frame]
@[simp] theorem State.initEffect_arg2 : s.initEffect.arg2 = s.arg2 := by rw [State.initEffect_frame]
@[simp] theorem State.initEffect_arg3 : s.initEffect.arg3 = s.arg3 := by rw [State.initEffect_frame]
@[simp] theorem State.initEffect_cmd : s.initEffect.cmd = s.cmd := by rw [State.initEffect_frame]
@[simp] theorem State.initEffect_ok : s.initEffect.ok = s.ok := by rw [State.initEffect_frame]
@[simp] theorem State.initEffect_err : s.initEffect.err = s.err := by rw [State.initEffect_frame]
@[simp] theorem State.initEffect_busy : s.initEffect.busy = s.busy := by rw [State.initEffect_frame]
@[simp] theorem State.initEffect_result : s.initEffect.result = s.result := by rw [State.initEffect_frame]
@[simp] theorem State.initEffect_fault : s.initEffect.fault = s.fault := by rw [State.initEffect_frame]
@[simp] theorem State.initEffect_src : s.initEffect.src = s.src := by rw [State.initEffect_frame]
@[simp] theorem State.initEffect_host : s.initEffect.host = s.host := by rw [State.initEffect_frame]
@[simp] theorem State.initEffect_rdata : s.initEffect.rdata = s.rdata := by rw [State.initEffect_frame]
@[simp] theorem State.initEffect_probeIn : s.initEffect.probeIn = s.probeIn.tail := by
  cases h : s.nextProbe
  · rw [State.initEffect_ready s h]
    rfl
  · rw [State.initEffect_notReady s h]
    rfl
@[simp] theorem State.initEffect_draws : s.initEffect.draws = s.draws + 1 := by
  cases h : s.nextProbe
  · rw [State.initEffect_ready s h]
    rfl
  · rw [State.initEffect_notReady s h]
    rfl

/-! ## Reads that an update leaves alone -/

@[simp] theorem State.fbByte_setStatus (e : ErrCode) (i : Nat) : (s.setStatus e).fbByte i = s.fbByte i := rfl
@[simp] theorem State.fbByte_setResult (ch : Byte) (i : Nat) : (s.setResult ch).fbByte i = s.fbByte i := rfl
@[simp] theorem State.fbByte_sendBytes (bs : List Byte) (i : Nat) : (s.sendBytes bs).fbByte i = s.fbByte i := rfl
@[simp] theorem State.fbByte_transfer (i : Nat) : s.transfer.fbByte i = s.fbByte i := rfl
@[simp] theorem State.fbByte_probe (i : Nat) : s.probe.fbByte i = s.fbByte i := rfl
@[simp] theorem State.fbByte_start (op : Byte) (i : Nat) : (s.start op).fbByte i = s.fbByte i := rfl
@[simp] theorem State.fbByte_answer (v : Word) (free : Bool) (i : Nat) : (s.answer v free).fbByte i = s.fbByte i := rfl
@[simp] theorem State.fbByte_autoFlush (i : Nat) : s.autoFlush.fbByte i = s.fbByte i := by
  simp [State.fbByte]

@[simp] theorem State.pixel_setStatus (e : ErrCode) (x y : Nat) : (s.setStatus e).pixel x y = s.pixel x y := rfl
@[simp] theorem State.pixel_setResult (ch : Byte) (x y : Nat) : (s.setResult ch).pixel x y = s.pixel x y := rfl
@[simp] theorem State.pixel_autoFlush (x y : Nat) : s.autoFlush.pixel x y = s.pixel x y := by
  simp [State.pixel]

/-! ## The bus gate depends on the gate policy and on `ctrl` only -/

theorem busOpen_congr {s t : State} (hc : t.cfg = s.cfg) (hk : t.ctrl = s.ctrl) : busOpen t = busOpen s := by
  simp [busOpen, State.initialized, hc, hk]

@[simp] theorem busOpen_draw (ps : List Pixel) : busOpen (s.draw ps) = busOpen s := rfl
@[simp] theorem busOpen_fill (c : Color) : busOpen (s.fill c) = busOpen s := rfl
@[simp] theorem busOpen_setResult (ch : Byte) : busOpen (s.setResult ch) = busOpen s := rfl
@[simp] theorem busOpen_setStatus (e : ErrCode) : busOpen (s.setStatus e) = busOpen s := rfl
@[simp] theorem busOpen_start (op : Byte) : busOpen (s.start op) = busOpen s := rfl

/-! ## How a command concludes -/

@[simp] theorem conclude_done : conclude (done s) = .next (s.setStatus .none) := rfl
@[simp] theorem conclude_raiseErr (e : ErrCode) : conclude (raiseErr e s) = .next (s.setStatus e) := rfl
@[simp] theorem conclude_raiseFault (r : Fault) : conclude (raiseFault r s) = .fault r := rfl

/-- A command that answers a next state ended with a status, and that state is what it left. -/
theorem conclude_eq_next {r : Run} {t : State} (h : conclude r = .next t) :
    ∃ e, r.ending = .ended e ∧ t = r.state.setStatus e := by
  unfold conclude at h
  split at h
  · rename_i e he
    exact ⟨e, he, by cases h; rfl⟩
  · cases h

/-- A command that answers a fault ran into it. -/
theorem conclude_eq_fault {r : Run} {f : Fault} (h : conclude r = .fault f) : r.ending = .faulted f := by
  unfold conclude at h
  split at h
  · cases h
  · cases h; assumption

/-- No command is refused. -/
theorem conclude_ne_refused (r : Run) (f : Refusal) : conclude r ≠ .refused f := by
  unfold conclude
  split <;> simp

end Sys2Proof.Machine
end

