-- ==== Sys2Proof/Laws/Framebuffer.lean ====
section
/-! SUPPORT. Laws of the framebuffer: which byte and bit a pixel is (spec/20_memory.md R72), what one pixel write does to
every byte and every pixel (spec/40_framebuffer.md R130), what a list of pixel writes does, and the whole-buffer writes. -/

namespace Sys2Proof.Machine

open Sys2Proof

/-! ## The panel -/

theorem panel_of_configWf {c : Config} (h : configWf c = true) :
    1 ≤ c.width ∧ c.width ≤ 32767 ∧ 8 ≤ c.height ∧ c.height ≤ 32760 ∧ c.height % 8 = 0 := by
  simp only [configWf, panelWf, Bool.and_eq_true, decide_eq_true_eq] at h
  omega

theorem fontWf_of_getElem {c : Config} {k : Nat} {f : Font} (h : configWf c = true) (hf : c.fonts[k]? = some f) :
    fontWf f = true := by
  simp only [configWf, fontsWf, Bool.and_eq_true, List.all_eq_true] at h
  exact h.2.2 f (List.mem_of_getElem? hf)

theorem font_bounds {f : Font} (h : fontWf f = true) :
    1 ≤ f.count ∧ f.base + f.count ≤ 256 ∧ 1 ≤ f.width ∧ f.width ≤ 16 ∧ 1 ≤ f.height ∧
      f.rows.length = f.count * f.height := by
  simp only [fontWf, Bool.and_eq_true, decide_eq_true_eq] at h
  tauto

theorem inBounds_iff (c : Config) (x y : Int) :
    inBounds c x y = true ↔ 0 ≤ x ∧ x < c.width ∧ 0 ≤ y ∧ y < c.height := by
  simp [inBounds]

theorem inBounds_natCast (c : Config) (x y : Nat) : inBounds c x y = true ↔ x < c.width ∧ y < c.height := by
  rw [inBounds_iff]
  omega

/-- A pixel of the panel lies in a byte of the framebuffer. -/
theorem pixelIndex_lt {c : Config} {x y : Nat} (h8 : c.height % 8 = 0) (hx : x < c.width) (hy : y < c.height) :
    pixelIndex c x y < c.size := by
  have hq : y / 8 + 1 ≤ c.height / 8 := by omega
  have hm := Nat.mul_le_mul_left c.width hq
  rw [Nat.mul_add, Nat.mul_one] at hm
  unfold pixelIndex Config.size Config.pages
  rw [Nat.mul_comm (y / 8)]
  omega

/-- Two pixels share a byte exactly when they share their column and page. -/
theorem pixelIndex_eq_iff {c : Config} {x y x' y' : Nat} (hx : x < c.width) (hx' : x' < c.width) :
    pixelIndex c x y = pixelIndex c x' y' ↔ x = x' ∧ y / 8 = y' / 8 := by
  unfold pixelIndex
  constructor
  · intro h
    have hmod := congrArg (· % c.width) h
    simp only [Nat.add_mul_mod_self_right, Nat.mod_eq_of_lt hx, Nat.mod_eq_of_lt hx'] at hmod
    subst hmod
    exact ⟨rfl, Nat.eq_of_mul_eq_mul_right (Nat.zero_lt_of_lt hx) (by omega)⟩
  · rintro ⟨rfl, h⟩
    rw [h]

/-- Two pixels of one byte are the same pixel exactly when their bits agree. -/
theorem row_eq_of_page_bit {y y' : Nat} (h : y / 8 = y' / 8) (hb : y % 8 = y' % 8) : y = y' := by
  omega

/-! ## One byte -/

theorem getLsbD_pixelMask (y k : Nat) (hk : k < 8) : (pixelMask y).getLsbD k = decide (k = y % 8) := by
  have key : ∀ r < 8, ∀ j < 8, (1#8 <<< r).getLsbD j = decide (j = r) := by decide
  exact key _ (Nat.mod_lt _ (by omega)) _ hk

theorem getLsbD_setBits (color : Color) (b : Byte) (y k : Nat) (hk : k < 8) :
    (setBits color b (pixelMask y)).getLsbD k = if k = y % 8 then colorBit color else b.getLsbD k := by
  cases color
  · rw [setBits, BitVec.getLsbD_and, BitVec.getLsbD_not, getLsbD_pixelMask y k hk]
    by_cases h : k = y % 8 <;> simp [h, hk, colorBit]
  · rw [setBits, BitVec.getLsbD_or, getLsbD_pixelMask y k hk]
    by_cases h : k = y % 8 <;> simp [h, colorBit]

/-! ## One pixel write -/

theorem wf_plot {c : Config} {m : Memory} (inv : Bool) (p : Pixel) (h : Memory.wf (fbSpace c) m = true) :
    Memory.wf (fbSpace c) (plot c inv m p) = true := by
  by_cases hb : inBounds c p.x p.y = true
  · simp only [plot, hb, if_true]
    exact Memory.wf_write _ _ h
  · simpa [plot, hb] using h

/-- A pixel write off the panel does nothing (R130). -/
theorem plot_of_not_inBounds {c : Config} (inv : Bool) (m : Memory) {p : Pixel} (h : ¬ inBounds c p.x p.y = true) :
    plot c inv m p = m := by
  simp [plot, h]

/-- A pixel write leaves every other byte alone (R75). -/
theorem fbByte_plot_of_ne {c : Config} (inv : Bool) (m : Memory) {p : Pixel} {i : Nat}
    (h : inBounds c p.x p.y = true → i ≠ pixelIndex c p.x.toNat p.y.toNat) :
    fbByte c (plot c inv m p) i = fbByte c m i := by
  by_cases hb : inBounds c p.x p.y = true
  · simp only [plot, hb, if_true, fbByte, Memory.read_write_of_ne _ _ _ (h hb)]
  · rw [plot_of_not_inBounds inv m hb]

/-- The byte that a pixel write on the panel leaves (R75, R130). -/
theorem fbByte_plot_self {c : Config} (inv : Bool) {m : Memory} {p : Pixel} (h8 : c.height % 8 = 0)
    (hm : Memory.wf (fbSpace c) m = true) (hb : inBounds c p.x p.y = true) :
    fbByte c (plot c inv m p) (pixelIndex c p.x.toNat p.y.toNat) =
      setBits (if inv then p.color.not else p.color) (fbByte c m (pixelIndex c p.x.toNat p.y.toNat))
        (pixelMask p.y.toNat) := by
  have hxy := (inBounds_iff c p.x p.y).1 hb
  have hi : pixelIndex c p.x.toNat p.y.toNat < (fbSpace c).limit := pixelIndex_lt h8 (by omega) (by omega)
  unfold plot
  rw [if_pos hb]
  simp only [fbByte]
  rw [Memory.read_write_self _ hi hm]
  rfl

theorem colorBit_flip (color : Color) (inv : Bool) :
    colorBit (if inv then color.not else color) = (colorBit color != inv) := by
  cases color <;> cases inv <;> rfl

/-- What one pixel write does to every pixel of the panel: the pixel it is at becomes the colour XOR `inv`, every other one
is left alone (R132, R133). -/
theorem pixel_plot {c : Config} (inv : Bool) {m : Memory} (p : Pixel) (h8 : c.height % 8 = 0)
    (hm : Memory.wf (fbSpace c) m = true) {x y : Nat} (hx : x < c.width) (hy : y < c.height) :
    (fbByte c (plot c inv m p) (pixelIndex c x y)).getLsbD (y % 8) =
      if p.x = x ∧ p.y = y then (colorBit p.color != inv)
      else (fbByte c m (pixelIndex c x y)).getLsbD (y % 8) := by
  by_cases hb : inBounds c p.x p.y = true
  · have hxy := (inBounds_iff c p.x p.y).1 hb
    by_cases hi : pixelIndex c x y = pixelIndex c p.x.toNat p.y.toNat
    · have hxy' := (pixelIndex_eq_iff (y := y) (y' := p.y.toNat) hx (by omega)).1 hi
      rw [hi, fbByte_plot_self inv h8 hm hb, getLsbD_setBits _ _ _ _ (Nat.mod_lt _ (by omega)), colorBit_flip]
      by_cases hbit : y % 8 = p.y.toNat % 8
      · have := row_eq_of_page_bit hxy'.2 hbit
        rw [if_pos hbit, if_pos (by omega)]
      · rw [if_neg hbit, if_neg (by rintro ⟨_, h⟩; exact hbit (by rw [h]; simp))]
    · rw [fbByte_plot_of_ne inv m fun _ => hi, if_neg]
      rintro ⟨h1, h2⟩
      exact hi (by rw [h1, h2]; simp)
  · rw [plot_of_not_inBounds inv m hb, if_neg]
    rintro ⟨h1, h2⟩
    exact hb (by rw [h1, h2]; exact (inBounds_natCast c x y).2 ⟨hx, hy⟩)

/-! ## Pixel writes one after another -/

theorem wf_foldl_plot {c : Config} (inv : Bool) (ps : List Pixel) {m : Memory} (h : Memory.wf (fbSpace c) m = true) :
    Memory.wf (fbSpace c) (ps.foldl (plot c inv) m) = true := by
  induction ps generalizing m with
  | nil => exact h
  | cons p rest ih => exact ih (wf_plot inv p h)

theorem fbByte_foldl_plot_of_ne {c : Config} (inv : Bool) (ps : List Pixel) (m : Memory) {i : Nat}
    (h : ∀ p ∈ ps, inBounds c p.x p.y = true → i ≠ pixelIndex c p.x.toNat p.y.toNat) :
    fbByte c (ps.foldl (plot c inv) m) i = fbByte c m i := by
  induction ps generalizing m with
  | nil => rfl
  | cons p rest ih =>
    rw [List.foldl_cons, ih _ fun q hq => h q (List.mem_cons_of_mem _ hq),
      fbByte_plot_of_ne inv m (h p List.mem_cons_self)]

/-- The colour last asked for at `(x, y)` by a list of pixel writes. -/
def lastColorAt (ps : List Pixel) (x y : Nat) : Option Color :=
  (ps.reverse.find? fun p => decide (p.x = (x : Int) ∧ p.y = (y : Int))).map Pixel.color

theorem lastColorAt_cons (p : Pixel) (ps : List Pixel) (x y : Nat) :
    lastColorAt (p :: ps) x y =
      (lastColorAt ps x y).or (if p.x = (x : Int) ∧ p.y = (y : Int) then some p.color else none) := by
  unfold lastColorAt
  rw [List.reverse_cons, List.find?_append]
  cases hf : ps.reverse.find? fun p => decide (p.x = (x : Int) ∧ p.y = (y : Int)) with
  | some q => simp
  | none => by_cases h : p.x = (x : Int) ∧ p.y = (y : Int) <;> simp [h]

/-- What a list of pixel writes does to every pixel of the panel: the last colour asked for there, XOR `inv`. -/
theorem pixel_foldl_plot {c : Config} (inv : Bool) (ps : List Pixel) {m : Memory} (h8 : c.height % 8 = 0)
    (hm : Memory.wf (fbSpace c) m = true) {x y : Nat} (hx : x < c.width) (hy : y < c.height) :
    (fbByte c (ps.foldl (plot c inv) m) (pixelIndex c x y)).getLsbD (y % 8) =
      match lastColorAt ps x y with
      | some color => colorBit color != inv
      | none => (fbByte c m (pixelIndex c x y)).getLsbD (y % 8) := by
  induction ps generalizing m with
  | nil => rfl
  | cons p rest ih =>
    rw [List.foldl_cons, ih (wf_plot inv p hm), lastColorAt_cons, pixel_plot inv p h8 hm hx hy]
    cases lastColorAt rest x y with
    | some color => rfl
    | none =>
      by_cases h : p.x = x ∧ p.y = y
      · simp [h]
      · simp [h]

theorem lastColorAt_eq_none {ps : List Pixel} {x y : Nat} (h : ∀ p ∈ ps, ¬(p.x = (x : Int) ∧ p.y = (y : Int))) :
    lastColorAt ps x y = none := by
  induction ps with
  | nil => rfl
  | cons p rest ih =>
    rw [lastColorAt_cons, ih fun q hq => h q (List.mem_cons_of_mem _ hq), if_neg (h p List.mem_cons_self)]
    rfl

/-- Where every write at `(x, y)` asks for the same colour and there is one, that colour decides. -/
theorem lastColorAt_eq_some {ps : List Pixel} {x y : Nat} {color : Color}
    (hex : ∃ p ∈ ps, p.x = (x : Int) ∧ p.y = (y : Int))
    (hcol : ∀ p ∈ ps, p.x = (x : Int) ∧ p.y = (y : Int) → p.color = color) : lastColorAt ps x y = some color := by
  induction ps with
  | nil =>
    obtain ⟨_, h, _⟩ := hex
    cases h
  | cons p rest ih =>
    rw [lastColorAt_cons]
    by_cases hr : ∃ q ∈ rest, q.x = (x : Int) ∧ q.y = (y : Int)
    · rw [ih hr fun q hq => hcol q (List.mem_cons_of_mem _ hq)]
      rfl
    · rw [lastColorAt_eq_none fun q hq h => hr ⟨q, hq, h⟩]
      obtain ⟨q, hq, hxy⟩ := hex
      rcases List.mem_cons.1 hq with rfl | hq
      · rw [if_pos hxy, hcol q List.mem_cons_self hxy]
        rfl
      · exact absurd ⟨q, hq, hxy⟩ hr

/-! ## Whole states -/

/-- What drawing does to every pixel of the panel. -/
theorem State.pixel_draw (s : State) (ps : List Pixel) (h8 : s.cfg.height % 8 = 0)
    (hm : Memory.wf (fbSpace s.cfg) s.fb = true) {x y : Nat} (hx : x < s.cfg.width) (hy : y < s.cfg.height) :
    (s.draw ps).pixel x y =
      match lastColorAt ps x y with
      | some color => colorBit color != s.inv
      | none => s.pixel x y :=
  pixel_foldl_plot s.inv ps h8 hm hx hy

/-- Drawing points in one colour: exactly the points become the colour XOR `inv`. -/
theorem State.pixel_draw_of_color (s : State) (ps : List Pixel) (color : Color) (hc : ∀ p ∈ ps, p.color = color)
    (h8 : s.cfg.height % 8 = 0) (hm : Memory.wf (fbSpace s.cfg) s.fb = true) {x y : Nat} (hx : x < s.cfg.width)
    (hy : y < s.cfg.height) (hp : Prop) [Decidable hp] (hiff : hp ↔ ∃ p ∈ ps, p.x = (x : Int) ∧ p.y = (y : Int)) :
    (s.draw ps).pixel x y = if hp then (colorBit color != s.inv) else s.pixel x y := by
  rw [State.pixel_draw s ps h8 hm hx hy]
  split_ifs with h
  · rw [lastColorAt_eq_some (hiff.1 h) fun p hp _ => hc p hp]
  · rw [lastColorAt_eq_none fun p hp' hxy => h (hiff.2 ⟨p, hp', hxy⟩)]

theorem State.fbByte_draw_of_ne (s : State) (ps : List Pixel) {i : Nat}
    (h : ∀ p ∈ ps, inBounds s.cfg p.x p.y = true → i ≠ pixelIndex s.cfg p.x.toNat p.y.toNat) :
    (s.draw ps).fbByte i = s.fbByte i :=
  fbByte_foldl_plot_of_ne s.inv ps s.fb h

theorem State.wf_draw (s : State) (ps : List Pixel) (h : Memory.wf (fbSpace s.cfg) s.fb = true) :
    Memory.wf (fbSpace (s.draw ps).cfg) (s.draw ps).fb = true :=
  wf_foldl_plot s.inv ps h

theorem State.wf_setBytes (s : State) (f : Nat → Byte) :
    Memory.wf (fbSpace (s.setBytes f).cfg) (s.setBytes f).fb = true :=
  Memory.wf_build _ _ _ le_rfl

/-- A whole-buffer write gives every byte its value (R75). -/
theorem State.fbByte_setBytes (s : State) (f : Nat → Byte) {i : Nat} (h : i < s.cfg.size) :
    (s.setBytes f).fbByte i = f i := by
  simp only [State.fbByte, State.setBytes_cfg, State.setBytes_fb, Machine.fbByte]
  rw [Memory.read_build _ _ _ h le_rfl]
  rfl

/-- There is no byte at or above `N`. -/
theorem fbByte_of_size_le (c : Config) (m : Memory) {i : Nat} (h : c.size ≤ i) : fbByte c m i = 0 := by
  unfold fbByte Memory.read
  rw [if_neg (by simpa [fbSpace] using h)]
  rfl

end Sys2Proof.Machine
end

