-- ==== Sys2Proof/Laws/Bitmap.lean ====
section
/-! SUPPORT. Laws of the bitmap blitter (spec/41_rasterizer.md R160): the shift register in closed form (R161), which points a
blit visits, and when it runs into a byte that is not admitted (R163). -/

namespace Sys2Proof.Machine

open Sys2Proof

/-- The high bit of a byte shifted left `k` times is its bit `7 - k`. -/
theorem highBit_shift (b : Byte) {k : Nat} (hk : k < 8) : ((b <<< k) &&& 0x80 != 0) = b.getLsbD (7 - k) := by
  have key : ∀ b : Byte, ∀ k < 8, ((b <<< k) &&& 0x80 != 0) = b.getLsbD (7 - k) := by decide +kernel
  exact key b k hk

/-- The bit of column `i` in a row whose bytes start at `row`. -/
def sourceBit (m : Memory) (row i : Nat) : Bool :=
  match Memory.read srcSpace m (row + i / 8) with
  | some b => b.getLsbD (7 - i % 8)
  | none => false

/-- What the shift register holds as column `i` begins: the byte of the column before, shifted so far. -/
def ShiftInv (m : Memory) (row i : Nat) (sr : Byte) : Prop :=
  i % 8 ≠ 0 → ∃ b, Memory.read srcSpace m (row + i / 8) = some b ∧ sr = b <<< (i % 8 - 1)

/-- The shift register's byte at column `i`. -/
theorem shift_step {m : Memory} {row i : Nat} {sr : Byte} (h : ShiftInv m row i sr) :
    (if i % 8 = 0 then Memory.read srcSpace m (row + i / 8) else some (sr <<< 1)) =
      (Memory.read srcSpace m (row + i / 8)).map fun b : Byte => b <<< (i % 8) := by
  split_ifs with h8
  · rw [h8]
    cases Memory.read srcSpace m (row + i / 8) <;> simp
  · obtain ⟨b, hb, rfl⟩ := h h8
    rw [hb, Option.map_some, ← BitVec.shiftLeft_add, Nat.sub_add_cancel (by omega)]

theorem shiftInv_succ {m : Memory} {row i : Nat} {b : Byte} (hb : Memory.read srcSpace m (row + i / 8) = some b) :
    ShiftInv m row (i + 1) (b <<< (i % 8)) := by
  intro h8
  refine ⟨b, ?_, ?_⟩
  · rwa [show (i + 1) / 8 = i / 8 by omega]
  · rw [show (i + 1) % 8 - 1 = i % 8 by omega]

/-- The columns of a row: it runs into a byte that is not admitted exactly where one it reads is not, and else it visits
exactly the columns whose bit is set. -/
theorem blitRow_spec (m : Memory) (row x y n i : Nat) (sr : Byte) (h : ShiftInv m row i sr) :
    ((blitRow m row x y n i sr).unmapped = false ↔ ∀ k, i ≤ k → k < i + n → Memory.read srcSpace m (row + k / 8) ≠ none) ∧
      ((blitRow m row x y n i sr).unmapped = false → ∀ p : Int × Int,
        p ∈ (blitRow m row x y n i sr).points ↔
          ∃ k, i ≤ k ∧ k < i + n ∧ sourceBit m row k = true ∧ p = (((x + k : Nat) : Int), ((y : Nat) : Int))) := by
  induction n generalizing i sr with
  | zero => exact ⟨by simp [blitRow]; omega, fun _ p => by simp [blitRow]; omega⟩
  | succ n ih =>
    rw [blitRow, shift_step h]
    cases hb : Memory.read srcSpace m (row + i / 8) with
    | none =>
      simp only [Option.map_none]
      refine ⟨⟨fun hf => ?_, fun hk => absurd hb (hk i le_rfl (by omega))⟩, fun hf => ?_⟩ <;> cases hf
    | some b =>
      obtain ⟨h1, h2⟩ := ih (i + 1) (b <<< (i % 8)) (shiftInv_succ hb)
      have hbit : sourceBit m row i = b.getLsbD (7 - i % 8) := by simp only [sourceBit, hb]
      have hall : (∀ k, i + 1 ≤ k → k < i + 1 + n → Memory.read srcSpace m (row + k / 8) ≠ none) ↔
          ∀ k, i ≤ k → k < i + (n + 1) → Memory.read srcSpace m (row + k / 8) ≠ none := by
        refine ⟨fun hk k hi hn => ?_, fun hk k hi hn => hk k (by omega) (by omega)⟩
        rcases Nat.eq_or_lt_of_le hi with rfl | hlt
        · rw [hb]; simp
        · exact hk k hlt (by omega)
      simp only [Option.map_some, highBit_shift b (Nat.mod_lt i (show 0 < 8 by omega)), ← hbit]
      cases hs : sourceBit m row i
      · simp only [Bool.false_eq_true, if_false]
        refine ⟨h1.trans hall, fun hf p => (h2 hf p).trans ⟨?_, ?_⟩⟩
        · rintro ⟨k, hk, hn, hsk, rfl⟩
          exact ⟨k, by omega, by omega, hsk, rfl⟩
        · rintro ⟨k, hk, hn, hsk, rfl⟩
          rcases Nat.eq_or_lt_of_le hk with rfl | hlt
          · rw [hs] at hsk; cases hsk
          · exact ⟨k, hlt, by omega, hsk, rfl⟩
      · simp only [if_true]
        refine ⟨h1.trans hall, fun hf p => ?_⟩
        rw [List.mem_cons, h2 hf p]
        constructor
        · rintro (rfl | ⟨k, hk, hn, hsk, rfl⟩)
          · exact ⟨i, le_rfl, by omega, hs, rfl⟩
          · exact ⟨k, by omega, by omega, hsk, rfl⟩
        · rintro ⟨k, hk, hn, hsk, rfl⟩
          rcases Nat.eq_or_lt_of_le hk with rfl | hlt
          · exact Or.inl rfl
          · exact Or.inr ⟨k, hlt, by omega, hsk, rfl⟩

/-- The rows of a bitmap. -/
theorem blitRows_spec (m : Memory) (src w x y n j : Nat) :
    ((blitRows m src w x y n j).unmapped = false ↔
      ∀ r k, j ≤ r → r < j + n → k < w → Memory.read srcSpace m (src + r * byteWidth w + k / 8) ≠ none) ∧
      ((blitRows m src w x y n j).unmapped = false → ∀ p : Int × Int,
        p ∈ (blitRows m src w x y n j).points ↔
          ∃ r k, j ≤ r ∧ r < j + n ∧ k < w ∧ sourceBit m (src + r * byteWidth w) k = true ∧
            p = (((x + k : Nat) : Int), ((y + r : Nat) : Int))) := by
  induction n generalizing j with
  | zero => exact ⟨by simp [blitRows]; omega, fun _ p => by simp [blitRows]; omega⟩
  | succ n ih =>
    obtain ⟨r1, r2⟩ := blitRow_spec m (src + j * byteWidth w) x (y + j) w 0 0 (fun h => absurd rfl h)
    obtain ⟨h1, h2⟩ := ih (j + 1)
    rw [blitRows]
    cases hu : (blitRow m (src + j * byteWidth w) x (y + j) w 0 0).unmapped
    · simp only [Bool.false_eq_true, if_false]
      have r1 := r1.1 hu
      refine ⟨h1.trans ⟨fun h r k hj hn hk => ?_, fun h r k hj hn hk => h r k (by omega) (by omega) hk⟩, fun hf p => ?_⟩
      · rcases Nat.eq_or_lt_of_le hj with rfl | hlt
        · exact r1 k (by omega) (by omega)
        · exact h r k hlt (by omega) hk
      · rw [List.mem_append, r2 hu p, h2 hf p]
        constructor
        · rintro (⟨k, _, hk, hs, rfl⟩ | ⟨r, k, hj, hn, hk, hs, rfl⟩)
          · exact ⟨j, k, le_rfl, by omega, by omega, hs, rfl⟩
          · exact ⟨r, k, by omega, by omega, hk, hs, rfl⟩
        · rintro ⟨r, k, hj, hn, hk, hs, rfl⟩
          rcases Nat.eq_or_lt_of_le hj with rfl | hlt
          · exact Or.inl ⟨k, by omega, by omega, hs, rfl⟩
          · exact Or.inr ⟨r, k, hlt, by omega, hk, hs, rfl⟩
    · simp only [if_true]
      rw [hu]
      refine ⟨⟨fun hf => absurd hf (by simp), fun h => ?_⟩, fun hf => absurd hf (by simp)⟩
      have : (blitRow m (src + j * byteWidth w) x (y + j) w 0 0).unmapped = false :=
        r1.2 fun k _ hk => h j k le_rfl (by omega) (by omega)
      rw [hu] at this
      cases this

/-- DRAW_BITMAP reads the bytes of R163: one is not admitted exactly where a column's byte is not. -/
theorem bitmapReadable_iff (s : State) (src w h : Nat) :
    BitmapReadable s src w h ↔
      ∀ r k, 0 ≤ r → r < 0 + h → k < w → Memory.read srcSpace s.src (src + r * byteWidth w + k / 8) ≠ none := by
  constructor
  · intro hb r k _ hr hk
    exact hb r (k / 8) (by omega) (by omega)
  · intro hb r k hr hk
    have := hb r (8 * k) (Nat.zero_le _) (by omega) (by omega)
    rwa [show 8 * k / 8 = k by omega] at this

end Sys2Proof.Machine
end

