-- ==== Sys2Proof/Laws/Bus.lean ====
section
/-! SUPPORT. Laws of the bus: the gate (spec/43_controller.md R210), the transactions of a page transfer, by position (R211,
R213), and which device a transaction goes to. -/

namespace Sys2Proof.Machine

open Sys2Proof

/-- R210. -/
theorem busOpen_iff (s : State) : busOpen s = true ↔ BusIsOpen s := by
  simp [busOpen, State.initialized]

theorem busOpen_eq_false (s : State) : busOpen s = false ↔ ¬BusIsOpen s := by
  rw [← busOpen_iff, Bool.not_eq_true]

/-! ## A page transfer -/

/-- Pieces of one length put together, by position. -/
theorem getElem?_flatMap_range {α : Type} {d : Nat} {g : Nat → List α} (hd : ∀ m, (g m).length = d) (n : Nat) {m k : Nat}
    (hm : m < n) (hk : k < d) : ((List.range n).flatMap g)[d * m + k]? = (g m)[k]? := by
  induction n with
  | zero => omega
  | succ n ih =>
    have hlen : ((List.range n).flatMap g).length = d * n := by
      rw [List.length_flatMap]
      simp [hd, Nat.mul_comm]
    rw [List.range_succ, List.flatMap_append, List.flatMap_singleton]
    rcases Nat.eq_or_lt_of_le (Nat.le_of_lt_succ hm) with rfl | hlt
    · rw [List.getElem?_append_right (by omega), hlen]
      congr 1
      omega
    · have : d * (m + 1) ≤ d * n := Nat.mul_le_mul_left d hlt
      rw [Nat.mul_add, Nat.mul_one] at this
      rw [List.getElem?_append_left (by omega), ih hlt]

@[simp] theorem length_pageTxns (c : Config) (fb : Memory) (m : Nat) : (pageTxns c fb m).length = 4 := rfl

/-- R213: four transactions a page. -/
@[simp] theorem length_transferTxns (c : Config) (fb : Memory) : (transferTxns c fb).length = 4 * c.pages := by
  rw [transferTxns, List.length_flatMap]
  simp [Nat.mul_comm]

theorem getElem?_transferTxns (c : Config) (fb : Memory) {m k : Nat} (hm : m < c.pages) (hk : k < 4) :
    (transferTxns c fb)[4 * m + k]? = (pageTxns c fb m)[k]? :=
  getElem?_flatMap_range (length_pageTxns c fb) c.pages hm hk

theorem block_pageTxns (c : Config) (fb : Memory) (m : Nat) :
    (pageTxns c fb m).flatMap BusTxn.block = pageBytes c fb m := by
  simp [pageTxns, BusTxn.block]

/-- R213: the data blocks, put together, are the framebuffer. -/
theorem block_transferTxns (c : Config) (fb : Memory) :
    (transferTxns c fb).flatMap BusTxn.block = (List.range c.size).map (fbByte c fb) := by
  rw [transferTxns, List.flatMap_assoc]
  simp only [block_pageTxns]
  have key : ∀ n, (List.range n).flatMap (pageBytes c fb) = (List.range (c.width * n)).map (fbByte c fb) := by
    intro n
    induction n with
    | zero => simp
    | succ n ih =>
      rw [List.range_succ, List.flatMap_append, ih, List.flatMap_singleton, Nat.mul_add, Nat.mul_one, List.range_add,
        List.map_append, List.map_map, pageBytes]
      congr 1
      refine List.map_congr_left fun k _ => ?_
      rw [Nat.mul_comm]
      rfl
  exact key c.pages

/-! ## The device -/

theorem txnOf_transferTxns (c : Config) (fb : Memory) : ∀ x ∈ transferTxns c fb, txnOf c x := by
  intro x hx
  obtain ⟨m, _, hx⟩ := List.mem_flatMap.1 hx
  simp only [pageTxns, List.mem_cons, List.not_mem_nil, or_false] at hx
  rcases hx with rfl | rfl | rfl | rfl <;> simp [txnOf, pageBytes]

theorem txnOf_cmds (c : Config) (bs : List Byte) : ∀ x ∈ bs.map (BusTxn.cmd c.devAddr), txnOf c x := by
  intro x hx
  obtain ⟨b, _, rfl⟩ := List.mem_map.1 hx
  rfl

theorem block_cmds (d : Byte) (bs : List Byte) : ∀ x ∈ bs.map (BusTxn.cmd d), x.block = [] := by
  intro x hx
  obtain ⟨b, _, rfl⟩ := List.mem_map.1 hx
  rfl

/-- `AutoFlush` appends a transfer or nothing (R212). -/
theorem State.autoFlush_flushed (s : State) : Flushed s s.autoFlush := by
  unfold Flushed State.autoFlush
  have h : (s.cfg.autoFlush == .original && busOpen s) = true ↔ s.cfg.autoFlush = .original ∧ BusIsOpen s := by
    rw [Bool.and_eq_true, busOpen_iff, beq_iff_eq]
  by_cases hc : s.cfg.autoFlush = .original ∧ BusIsOpen s
  · rw [if_pos hc, if_pos (h.2 hc)]
    rfl
  · rw [if_neg hc, if_neg (mt h.1 hc), List.append_nil]

end Sys2Proof.Machine
end

