-- ==== Sys2Proof/Laws/Decode.lean ====
section
/-! SUPPORT. Laws of the encoding (spec/30_encoding.md R102, R103): a field reads back what the encoder put in it, every field
is in its range, a field depends on its own bits only, and which opcodes decode. -/

namespace Sys2Proof

open Sys2Proof.Machine

/-! ## A field reads back what was put in it -/

theorem bits_lt (v : Word) (hi lo : Nat) : bits v hi lo < 2 ^ (hi - lo + 1) := Nat.mod_lt _ (by positivity)

theorem bits_halves_lo {lo hi : Nat} (h : lo < 65536) : bits (halves lo hi) 15 0 = lo := by
  simp only [bits, halves, BitVec.toNat_ofNat]
  omega

theorem bits_halves_hi {lo hi : Nat} (h : lo < 65536) (h' : hi < 65536) : bits (halves lo hi) 31 16 = hi := by
  simp only [bits, halves, BitVec.toNat_ofNat]
  omega

theorem bits_word {v : Nat} (h : v < 2 ^ 32) : bits (BitVec.ofNat 32 v) 31 0 = v := by
  simp only [bits, BitVec.toNat_ofNat]
  omega

theorem bits_arg3Of {c f ch : Nat} (hc : c < 2) (hf : f < 256) (hch : ch < 256) :
    bits (arg3Of c f ch) 0 0 = c ∧ bits (arg3Of c f ch) 15 8 = f ∧ bits (arg3Of c f ch) 23 16 = ch := by
  simp only [bits, arg3Of, BitVec.toNat_ofNat]
  omega

theorem Color.bit_lt (c : Color) : c.bit < 2 := by cases c <;> decide

theorem color_arg3Of (op : Byte) (a b d : Word) (c : Color) {f ch : Nat} (hf : f < 256) (hch : ch < 256) :
    (⟨op, a, b, d, arg3Of c.bit f ch⟩ : CommandWords).color = c := by
  simp only [CommandWords.color, CommandWords.on, (bits_arg3Of c.bit_lt hf hch).1]
  cases c <;> rfl

theorem on_arg3Of (op : Byte) (a b d : Word) (on : Bool) :
    (⟨op, a, b, d, arg3Of on.toNat 0 0⟩ : CommandWords).on = on := by
  simp only [CommandWords.on, (bits_arg3Of (c := on.toNat) (f := 0) (ch := 0) (by cases on <;> decide) (by decide) (by decide)).1]
  cases on <;> rfl

/-! ## Two's complement -/

theorem unsigned_lt (n : Nat) (v : Int) : unsigned n v < 2 ^ n := by
  unfold unsigned
  have h0 := Int.emod_nonneg v (b := 2 ^ n) (by positivity)
  have h1 := Int.emod_lt_of_pos v (b := 2 ^ n) (by positivity)
  zify
  rw [Int.toNat_of_nonneg h0]
  exact h1

theorem signed_unsigned16 {v : Int} (h : fitsS 16 v = true) : signed 16 (unsigned 16 v) = v := by
  simp only [fitsS, decide_eq_true_eq] at h
  simp only [signed, unsigned]
  split_ifs <;> omega

theorem signed_unsigned32 {v : Int} (h : fitsS 32 v = true) : signed 32 (unsigned 32 v) = v := by
  simp only [fitsS, decide_eq_true_eq] at h
  simp only [signed, unsigned]
  split_ifs <;> omega

theorem fitsS_signed16 {v : Nat} (h : v < 2 ^ 16) : fitsS 16 (signed 16 v) = true := by
  simp only [fitsS, signed]
  split_ifs <;> exact decide_eq_true (by omega)

theorem fitsS_signed32 {v : Nat} (h : v < 2 ^ 32) : fitsS 32 (signed 32 v) = true := by
  simp only [fitsS, signed]
  split_ifs <;> exact decide_eq_true (by omega)

/-! ## A field depends on its own bits only -/

theorem bits_congr {v w m : Word} {hi lo : Nat} (h : v &&& m = w &&& m) (hle : lo ≤ hi)
    (hm : ∀ k, k ≤ hi → lo ≤ k → m.getLsbD k = true) : bits v hi lo = bits w hi lo := by
  unfold bits
  refine Nat.eq_of_testBit_eq fun k => ?_
  simp only [Nat.testBit_mod_two_pow, Nat.testBit_div_two_pow]
  by_cases hk : k < hi - lo + 1
  · have hb := congrArg (fun x : Word => x.getLsbD (k + lo)) h
    simp only [BitVec.getLsbD_and, hm (k + lo) (by omega) (by omega), Bool.and_true] at hb
    exact congrArg (fun b => decide (k < hi - lo + 1) && b) hb
  · simp [hk]

/-! ## Which opcodes decode -/

/-- The assigned opcodes (R104). -/
def assignedOpcodes : List Byte :=
  [0x00, 0x01, 0x02, 0x03, 0x04, 0x10, 0x11, 0x20, 0x21, 0x22, 0x23, 0x30, 0x31, 0x40, 0x41, 0x42, 0x43, 0x44, 0x45,
    0x46, 0x47]

theorem mem_assignedOpcodes : ∀ op : Byte, op ∈ assignedOpcodes ↔ unassignedOpcode op = false := by decide +kernel

theorem decode_of_unassigned {w : CommandWords} (h : unassignedOpcode w.opcode = true) :
    decode w = .error (.illegalOpcode w.opcode) := by
  unfold decode
  split
  all_goals first
    | rfl
    | rename_i he; rw [he] at h; exact absurd h (by decide)

theorem encode_opcode_assigned (i : Instr) : unassignedOpcode (encode i).opcode = false := by
  cases i <;> rfl

end Sys2Proof
end

