-- ==== Sys2Proof/Laws/Text.lean ====
section
/-! SUPPORT. Laws of the text renderer (spec/42_text.md): which bit of a row word a column tests (R182), the colours of a
glyph's pixels (R183), a character that is drawn and one that is not (R180), and a string as the glyphs drawn one after
another before its terminator or its first failure (R186, R188). -/

namespace Sys2Proof.Machine

open Sys2Proof

/-! ## One glyph -/

/-- R182. -/
theorem rowBit_eq (r : Half) {j : Nat} (hj : j < 16) : rowBit r j = r.getLsbD (15 - j) := by
  have key : ∀ k < 16, (0x8000 : Half).getLsbD k = decide (k = 15) := by decide
  have hbit : ((r <<< j) &&& (0x8000 : Half)).getLsbD 15 = r.getLsbD (15 - j) := by
    have hlt : ¬ 15 < j := by omega
    rw [BitVec.getLsbD_and, key 15 (by omega), BitVec.getLsbD_shiftLeft]
    simp only [hlt, decide_true, decide_false, Bool.not_false, Bool.and_true]
    rfl
  have hzero : ((r <<< j) &&& (0x8000 : Half) = 0) ↔ r.getLsbD (15 - j) = false := by
    rw [← hbit]
    constructor
    · intro h
      rw [h]
      rfl
    · intro h
      refine BitVec.eq_of_getLsbD_eq fun k hk => ?_
      by_cases h15 : k = 15
      · rw [h15, h]
        rfl
      · rw [BitVec.getLsbD_and, key k hk]
        simp [h15]
  unfold rowBit
  cases hb : r.getLsbD (15 - j)
  · simpa using hzero.2 hb
  · have : ¬((r <<< j) &&& (0x8000 : Half) = 0) := fun h => by rw [hzero.1 h] at hb; cases hb
    simpa using this

theorem mem_glyphPixels {f : Font} {ch : Byte} {x y : Nat} {c : Color} (hw : f.width ≤ 16) {p : Pixel} :
    p ∈ glyphPixels f ch x y c ↔
      ∃ i j, i < f.height ∧ j < f.width ∧ p.x = ((x + j : Nat) : Int) ∧ p.y = ((y + i : Nat) : Int) ∧
        p.color = if glyphBit f ch i j then c else c.not := by
  simp only [glyphPixels, List.mem_flatMap, List.mem_map, List.mem_range]
  constructor
  · rintro ⟨i, hi, j, hj, rfl⟩
    exact ⟨i, j, hi, hj, rfl, rfl, by simp only [rowBit_eq _ (hj.trans_le hw)]; rfl⟩
  · rintro ⟨i, j, hi, hj, hx, hy, hc⟩
    refine ⟨i, hi, j, hj, ?_⟩
    obtain ⟨px, py, pc⟩ := p
    simp only at hx hy hc
    rw [hx, hy, hc, rowBit_eq _ (hj.trans_le hw)]
    rfl

/-- The colour a glyph asks for at a pixel: none outside its cell. -/
theorem lastColorAt_glyphPixels {f : Font} (ch : Byte) (x y : Nat) (c : Color) (hw : f.width ≤ 16) (px py : Nat) :
    lastColorAt (glyphPixels f ch x y c) px py =
      if x ≤ px ∧ px < x + f.width ∧ y ≤ py ∧ py < y + f.height then
        some (if glyphBit f ch (py - y) (px - x) then c else c.not)
      else none := by
  by_cases h : x ≤ px ∧ px < x + f.width ∧ y ≤ py ∧ py < y + f.height
  · rw [if_pos h]
    refine lastColorAt_eq_some ⟨⟨px, py, if glyphBit f ch (py - y) (px - x) then c else c.not⟩, ?_, rfl, rfl⟩ ?_
    · exact (mem_glyphPixels hw).2 ⟨py - y, px - x, by omega, by omega, by simp only; omega, by simp only; omega, rfl⟩
    · intro p hp hxy
      obtain ⟨i, j, hi, hj, hx, hy, hc⟩ := (mem_glyphPixels hw).1 hp
      rw [hc, show i = py - y by omega, show j = px - x by omega]
  · rw [if_neg h]
    refine lastColorAt_eq_none fun p hp hxy => ?_
    obtain ⟨i, j, hi, hj, hx, hy, hc⟩ := (mem_glyphPixels hw).1 hp
    omega

theorem colorBit_glyph (b : Bool) (c : Color) : colorBit (if b then c else c.not) = (b == colorBit c) := by
  cases b <;> cases c <;> rfl

/-- A character drawn: its glyph, and the cursor advanced (R180). -/
def State.putGlyph (s : State) (f : Font) (c : Color) (ch : Byte) : State :=
  { s.draw (glyphPixels f ch s.cx.toNat s.cy.toNat c) with cx := BitVec.ofNat 16 (s.cx.toNat + f.width) }

theorem putChar_of_fits {f : Font} {c : Color} {ch : Byte} {s : State} (hx : s.cx.toNat + f.width ≤ s.cfg.width)
    (hy : s.cy.toNat + f.height ≤ s.cfg.height) (hg : f.base ≤ ch.toNat ∧ ch.toNat < f.base + f.count) :
    putChar f c ch s = .ok (s.putGlyph f c ch) := by
  rw [putChar, if_neg (by omega), if_pos (by simpa [hasGlyph] using hg)]
  rfl

theorem putChar_overflow {f : Font} (c : Color) (ch : Byte) {s : State}
    (h : s.cfg.width < s.cx.toNat + f.width ∨ s.cfg.height < s.cy.toNat + f.height) :
    putChar f c ch s = .error .textOverflow := by
  rw [putChar, if_pos (by omega)]

theorem putChar_glyphRange {f : Font} (c : Color) {ch : Byte} {s : State} (hx : s.cx.toNat + f.width ≤ s.cfg.width)
    (hy : s.cy.toNat + f.height ≤ s.cfg.height) (hg : ch.toNat < f.base ∨ f.base + f.count ≤ ch.toNat) :
    putChar f c ch s = .error .glyphRange := by
  rw [putChar, if_neg (by omega), if_neg (by simp only [hasGlyph, decide_eq_true_eq]; omega)]

/-! ## Glyphs one after another -/

/-- The characters of a text drawn one after another. -/
def State.putGlyphs (s : State) (f : Font) (c : Color) : List Byte → State
  | [] => s
  | ch :: rest => (s.putGlyph f c ch).putGlyphs f c rest

section
variable (s : State) (f : Font) (c : Color) (ch : Byte) (cs : List Byte)

@[simp] theorem State.putGlyph_cfg : (s.putGlyph f c ch).cfg = s.cfg := rfl
@[simp] theorem State.putGlyph_inv : (s.putGlyph f c ch).inv = s.inv := rfl
@[simp] theorem State.putGlyph_cy : (s.putGlyph f c ch).cy = s.cy := rfl

/-- Drawing glyphs writes the framebuffer and `cx` only. -/
theorem State.putGlyphs_frame :
    s.putGlyphs f c cs = { s with fb := (s.putGlyphs f c cs).fb, cx := (s.putGlyphs f c cs).cx } := by
  induction cs generalizing s with
  | nil => rfl
  | cons ch rest ih =>
    rw [State.putGlyphs]
    conv_lhs => rw [ih]
    rfl

@[simp] theorem State.putGlyphs_cfg : (s.putGlyphs f c cs).cfg = s.cfg := by rw [State.putGlyphs_frame]
@[simp] theorem State.putGlyphs_cy : (s.putGlyphs f c cs).cy = s.cy := by rw [State.putGlyphs_frame]
@[simp] theorem State.putGlyphs_inv : (s.putGlyphs f c cs).inv = s.inv := by rw [State.putGlyphs_frame]
@[simp] theorem State.putGlyphs_ctrl : (s.putGlyphs f c cs).ctrl = s.ctrl := by rw [State.putGlyphs_frame]
@[simp] theorem State.putGlyphs_arg0 : (s.putGlyphs f c cs).arg0 = s.arg0 := by rw [State.putGlyphs_frame]
@[simp] theorem State.putGlyphs_arg1 : (s.putGlyphs f c cs).arg1 = s.arg1 := by rw [State.putGlyphs_frame]
@[simp] theorem State.putGlyphs_arg2 : (s.putGlyphs f c cs).arg2 = s.arg2 := by rw [State.putGlyphs_frame]
@[simp] theorem State.putGlyphs_arg3 : (s.putGlyphs f c cs).arg3 = s.arg3 := by rw [State.putGlyphs_frame]
@[simp] theorem State.putGlyphs_cmd : (s.putGlyphs f c cs).cmd = s.cmd := by rw [State.putGlyphs_frame]
@[simp] theorem State.putGlyphs_ok : (s.putGlyphs f c cs).ok = s.ok := by rw [State.putGlyphs_frame]
@[simp] theorem State.putGlyphs_err : (s.putGlyphs f c cs).err = s.err := by rw [State.putGlyphs_frame]
@[simp] theorem State.putGlyphs_busy : (s.putGlyphs f c cs).busy = s.busy := by rw [State.putGlyphs_frame]
@[simp] theorem State.putGlyphs_result : (s.putGlyphs f c cs).result = s.result := by rw [State.putGlyphs_frame]
@[simp] theorem State.putGlyphs_busLog : (s.putGlyphs f c cs).busLog = s.busLog := by rw [State.putGlyphs_frame]
@[simp] theorem State.putGlyphs_fault : (s.putGlyphs f c cs).fault = s.fault := by rw [State.putGlyphs_frame]
@[simp] theorem State.putGlyphs_src : (s.putGlyphs f c cs).src = s.src := by rw [State.putGlyphs_frame]
@[simp] theorem State.putGlyphs_host : (s.putGlyphs f c cs).host = s.host := by rw [State.putGlyphs_frame]
@[simp] theorem State.putGlyphs_probeIn : (s.putGlyphs f c cs).probeIn = s.probeIn := by rw [State.putGlyphs_frame]
@[simp] theorem State.putGlyphs_rdata : (s.putGlyphs f c cs).rdata = s.rdata := by rw [State.putGlyphs_frame]
@[simp] theorem State.putGlyphs_draws : (s.putGlyphs f c cs).draws = s.draws := by rw [State.putGlyphs_frame]

end

theorem State.wf_putGlyphs {s : State} (f : Font) (c : Color) (cs : List Byte)
    (h : Memory.wf (fbSpace s.cfg) s.fb = true) : Memory.wf (fbSpace s.cfg) (s.putGlyphs f c cs).fb = true := by
  induction cs generalizing s with
  | nil => exact h
  | cons ch rest ih => exact ih (s := s.putGlyph f c ch) (wf_foldl_plot _ _ h)

theorem State.putGlyph_cx {s : State} {f : Font} (c : Color) (ch : Byte) (hW : s.cfg.width ≤ 32767)
    (hx : s.cx.toNat + f.width ≤ s.cfg.width) : (s.putGlyph f c ch).cx.toNat = s.cx.toNat + f.width := by
  simp only [State.putGlyph, BitVec.toNat_ofNat]
  omega

theorem State.putGlyphs_cx {s : State} {f : Font} (c : Color) (cs : List Byte) (hW : s.cfg.width ≤ 32767)
    (hx : cs ≠ [] → s.cx.toNat + cs.length * f.width ≤ s.cfg.width) :
    (s.putGlyphs f c cs).cx.toNat = s.cx.toNat + cs.length * f.width := by
  induction cs generalizing s with
  | nil => simp [State.putGlyphs]
  | cons ch rest ih =>
    have hx := hx (by simp)
    rw [List.length_cons, Nat.add_mul, Nat.one_mul] at hx
    have h1 := State.putGlyph_cx c ch hW (f := f) (by omega)
    have h2 := ih (s := s.putGlyph f c ch) hW (fun _ => by rw [h1]; simp only [State.putGlyph_cfg]; omega)
    rw [State.putGlyphs, h2, h1, List.length_cons, Nat.add_mul, Nat.one_mul]
    omega

/-- The text's bit in a cell after the first. -/
theorem textBit_cons {f : Font} (ch : Byte) (cs : List Byte) (x y px py : Nat) (hw : 0 < f.width) :
    textBit f (ch :: cs) x y px py =
      if x ≤ px ∧ px < x + f.width ∧ y ≤ py ∧ py < y + f.height then some (glyphBit f ch (py - y) (px - x))
      else textBit f cs (x + f.width) y px py := by
  unfold textBit
  by_cases hx : x ≤ px ∧ y ≤ py ∧ py < y + f.height
  · rw [if_pos hx]
    by_cases hc : px < x + f.width
    · rw [if_pos ⟨hx.1, hc, hx.2⟩, Nat.div_eq_of_lt (by omega), Nat.mod_eq_of_lt (by omega)]
      rfl
    · rw [if_neg (by omega), if_pos ⟨by omega, hx.2⟩]
      have h1 : px - x = (px - (x + f.width)) + f.width := by omega
      rw [h1, Nat.add_div_right _ hw, Nat.add_mod_right]
      rfl
  · rw [if_neg hx, if_neg (by omega), if_neg (by omega)]

/-- Glyphs drawn one after another from the cursor are the text drawn there, opaque (R183, R186). -/
theorem State.textDrawn_putGlyphs {s : State} {f : Font} (c : Color) (cs : List Byte) (hf : fontWf f = true)
    (hW : s.cfg.width ≤ 32767) (h8 : s.cfg.height % 8 = 0) (hm : Memory.wf (fbSpace s.cfg) s.fb = true)
    (hfit : cs ≠ [] → s.cx.toNat + cs.length * f.width ≤ s.cfg.width ∧ s.cy.toNat + f.height ≤ s.cfg.height) :
    TextDrawn f c cs s.cx.toNat s.cy.toNat s (s.putGlyphs f c cs) := by
  obtain ⟨_, _, hw1, hw16, _, _⟩ := font_bounds hf
  induction cs generalizing s with
  | nil =>
    refine ⟨fun px py _ _ => ?_, fun _ _ => rfl⟩
    have : textBit f [] s.cx.toNat s.cy.toNat px py = none := by simp [textBit]
    rw [this]
    rfl
  | cons ch rest ih =>
    obtain ⟨hx, hy⟩ := hfit (by simp)
    rw [List.length_cons, Nat.add_mul, Nat.one_mul] at hx
    have hcx := State.putGlyph_cx c ch hW (f := f) (by omega)
    have hm' : Memory.wf (fbSpace (s.putGlyph f c ch).cfg) (s.putGlyph f c ch).fb = true := wf_foldl_plot _ _ hm
    obtain ⟨i1, i2⟩ := ih (s := s.putGlyph f c ch) hW h8 hm'
      (fun _ => ⟨by rw [hcx]; simp only [State.putGlyph_cfg]; omega, hy⟩)
    rw [hcx] at i1 i2
    have hpix : ∀ px py, px < s.cfg.width → py < s.cfg.height → (s.putGlyph f c ch).pixel px py =
        if s.cx.toNat ≤ px ∧ px < s.cx.toNat + f.width ∧ s.cy.toNat ≤ py ∧ py < s.cy.toNat + f.height then
          (glyphBit f ch (py - s.cy.toNat) (px - s.cx.toNat) == colorBit c) != s.inv
        else s.pixel px py := by
      intro px py hpx hpy
      have := State.pixel_draw s (glyphPixels f ch s.cx.toNat s.cy.toNat c) h8 hm hpx hpy
      rw [lastColorAt_glyphPixels _ _ _ _ hw16] at this
      refine this.trans ?_
      by_cases hcell : s.cx.toNat ≤ px ∧ px < s.cx.toNat + f.width ∧ s.cy.toNat ≤ py ∧ py < s.cy.toNat + f.height
      · simp only [if_pos hcell, colorBit_glyph]
      · simp only [if_neg hcell]
    constructor
    · intro px py hpx hpy
      rw [State.putGlyphs, i1 px py hpx hpy, textBit_cons _ _ _ _ _ _ hw1]
      have hcell : s.cx.toNat ≤ px ∧ px < s.cx.toNat + f.width ∧ s.cy.toNat ≤ py ∧ py < s.cy.toNat + f.height →
          textBit f rest (s.cx.toNat + f.width) (s.putGlyph f c ch).cy.toNat px py = none := by
        intro h
        unfold textBit
        rw [if_neg (by omega)]
      split_ifs with h
      · rw [hcell h]
        simp only [hpix px py hpx hpy, if_pos h]
      · simp only [State.putGlyph_cy, State.putGlyph_inv]
        cases textBit f rest (s.cx.toNat + f.width) s.cy.toNat px py with
        | some b => rfl
        | none => simp only [hpix px py hpx hpy, if_neg h]
    · intro k hk
      rw [State.putGlyphs, i2 k fun px py h => hk px py ?_]
      · refine State.fbByte_draw_of_ne s _ fun p hp _ => ?_
        obtain ⟨i, j, hi, hj, hpx, hpy, _⟩ := (mem_glyphPixels hw16).1 hp
        rw [hpx, hpy]
        refine hk _ _ ?_
        rw [textBit_cons _ _ _ _ _ _ hw1, if_pos ⟨by omega, by omega, by omega, by omega⟩]
        simp
      · rw [textBit_cons _ _ _ _ _ _ hw1]
        split_ifs
        · simp
        · exact h

/-! ## Strings -/

/-- Characters that fit and have glyphs are drawn, and the loop goes on after them. -/
theorem putChars_append {f : Font} (c : Color) (cs rest : List Byte) {s : State} (hW : s.cfg.width ≤ 32767)
    (hnz : ∀ ch ∈ cs, ch ≠ 0) (hg : ∀ ch ∈ cs, f.base ≤ ch.toNat ∧ ch.toNat < f.base + f.count)
    (hfit : cs ≠ [] → s.cx.toNat + cs.length * f.width ≤ s.cfg.width ∧ s.cy.toNat + f.height ≤ s.cfg.height) :
    putChars f c (cs ++ rest) s = putChars f c rest (s.putGlyphs f c cs) := by
  induction cs generalizing s with
  | nil => rfl
  | cons ch cs ih =>
    obtain ⟨hx, hy⟩ := hfit (by simp)
    rw [List.length_cons, Nat.add_mul, Nat.one_mul] at hx
    have hcx := State.putGlyph_cx c ch hW (f := f) (by omega)
    rw [List.cons_append, putChars, if_neg (hnz ch List.mem_cons_self),
      putChar_of_fits (by omega) hy (hg ch List.mem_cons_self)]
    exact ih hW (fun d hd => hnz d (List.mem_cons_of_mem _ hd)) (fun d hd => hg d (List.mem_cons_of_mem _ hd))
      fun _ => ⟨by rw [hcx]; simp only [State.putGlyph_cfg]; omega, hy⟩

/-- The terminator: success (R186). -/
theorem putChars_terminator (f : Font) (c : Color) (rest : List Byte) (s : State) :
    putChars f c (0 :: rest) s = done (s.setResult 0).autoFlush := by
  rw [putChars, if_pos rfl]

/-- A character that fails ends the string (R188). -/
theorem putChars_failure {f : Font} {c : Color} {ch : Byte} (rest : List Byte) {s : State} {e : ErrCode} (hch : ch ≠ 0)
    (h : putChar f c ch s = .error e) : putChars f c (ch :: rest) s = raiseErr e (s.setResult ch) := by
  rw [putChars, if_neg hch, h]

/-- Everything the string loop can do: it draws some of its first characters, and then runs out of characters (there was no
terminator), or ends with success, or ends at a character that fails. -/
theorem putChars_cases (f : Font) (c : Color) (chars : List Byte) (s : State) :
    ∃ cs, (putChars f c chars s = raiseFault .srcUnmapped (s.putGlyphs f c cs) ∧ 0 ∉ chars) ∨
      putChars f c chars s = done ((s.putGlyphs f c cs).setResult 0).autoFlush ∨
      ∃ ch e, (e = .textOverflow ∨ e = .glyphRange) ∧
        putChars f c chars s = raiseErr e ((s.putGlyphs f c cs).setResult ch) := by
  induction chars generalizing s with
  | nil => exact ⟨[], Or.inl ⟨rfl, by simp⟩⟩
  | cons ch rest ih =>
    by_cases h0 : ch = 0
    · exact ⟨[], Or.inr (Or.inl (by rw [h0, putChars_terminator]; rfl))⟩
    · by_cases hfit : s.cfg.width < s.cx.toNat + f.width ∨ s.cfg.height < s.cy.toNat + f.height
      · exact ⟨[], Or.inr (Or.inr ⟨ch, _, Or.inl rfl, putChars_failure rest h0 (putChar_overflow c ch hfit)⟩)⟩
      · by_cases hg : f.base ≤ ch.toNat ∧ ch.toNat < f.base + f.count
        · have hstep : putChars f c (ch :: rest) s = putChars f c rest (s.putGlyph f c ch) := by
            rw [putChars, if_neg h0, putChar_of_fits (by omega) (by omega) hg]
          rw [hstep]
          obtain ⟨cs, h | h | h⟩ := ih (s.putGlyph f c ch)
          · exact ⟨ch :: cs, Or.inl ⟨h.1, fun hm => (List.mem_cons.1 hm).elim (fun h' => h0 h'.symm) h.2⟩⟩
          · exact ⟨ch :: cs, Or.inr (Or.inl h)⟩
          · exact ⟨ch :: cs, Or.inr (Or.inr h)⟩
        · exact ⟨[], Or.inr (Or.inr ⟨ch, _, Or.inr rfl,
            putChars_failure rest h0 (putChar_glyphRange c (by omega) (by omega) (by omega))⟩)⟩

/-- The start of a string: the cursor (R186). -/
def State.cursorAt (s : State) (x y : Nat) : State := { s with cx := BitVec.ofNat 16 x, cy := BitVec.ofNat 16 y }

section
variable (s : State) (x y : Nat)

@[simp] theorem State.cursorAt_cfg : (s.cursorAt x y).cfg = s.cfg := rfl
@[simp] theorem State.cursorAt_fb : (s.cursorAt x y).fb = s.fb := rfl
@[simp] theorem State.cursorAt_cx : (s.cursorAt x y).cx = BitVec.ofNat 16 x := rfl
@[simp] theorem State.cursorAt_cy : (s.cursorAt x y).cy = BitVec.ofNat 16 y := rfl
@[simp] theorem State.cursorAt_inv : (s.cursorAt x y).inv = s.inv := rfl
@[simp] theorem State.cursorAt_ctrl : (s.cursorAt x y).ctrl = s.ctrl := rfl
@[simp] theorem State.cursorAt_arg0 : (s.cursorAt x y).arg0 = s.arg0 := rfl
@[simp] theorem State.cursorAt_arg1 : (s.cursorAt x y).arg1 = s.arg1 := rfl
@[simp] theorem State.cursorAt_arg2 : (s.cursorAt x y).arg2 = s.arg2 := rfl
@[simp] theorem State.cursorAt_arg3 : (s.cursorAt x y).arg3 = s.arg3 := rfl
@[simp] theorem State.cursorAt_cmd : (s.cursorAt x y).cmd = s.cmd := rfl
@[simp] theorem State.cursorAt_ok : (s.cursorAt x y).ok = s.ok := rfl
@[simp] theorem State.cursorAt_err : (s.cursorAt x y).err = s.err := rfl
@[simp] theorem State.cursorAt_busy : (s.cursorAt x y).busy = s.busy := rfl
@[simp] theorem State.cursorAt_result : (s.cursorAt x y).result = s.result := rfl
@[simp] theorem State.cursorAt_busLog : (s.cursorAt x y).busLog = s.busLog := rfl
@[simp] theorem State.cursorAt_fault : (s.cursorAt x y).fault = s.fault := rfl
@[simp] theorem State.cursorAt_src : (s.cursorAt x y).src = s.src := rfl
@[simp] theorem State.cursorAt_host : (s.cursorAt x y).host = s.host := rfl
@[simp] theorem State.cursorAt_probeIn : (s.cursorAt x y).probeIn = s.probeIn := rfl
@[simp] theorem State.cursorAt_rdata : (s.cursorAt x y).rdata = s.rdata := rfl
@[simp] theorem State.cursorAt_draws : (s.cursorAt x y).draws = s.draws := rfl
@[simp] theorem State.cursorAt_fbByte (i : Nat) : (s.cursorAt x y).fbByte i = s.fbByte i := rfl

end

theorem putString_eq (x y : Nat) (f : Font) (c : Color) (chars : List Byte) (s : State) :
    putString x y f c chars s = putChars f c chars (s.cursorAt x y) := rfl

/-! ## Source strings -/

theorem readChars_append {m : Memory} (cs : List Byte) {a n : Nat} (hn : cs.length ≤ n)
    (h : ∀ k, k < cs.length → Memory.read srcSpace m (a + k) = cs[k]? ∧ cs[k]? ≠ some 0) :
    readChars m a n = cs ++ readChars m (a + cs.length) (n - cs.length) := by
  induction cs generalizing a n with
  | nil => simp
  | cons ch cs ih =>
    obtain ⟨n, rfl⟩ : ∃ k, n = k + 1 := ⟨n - 1, by simp at hn; omega⟩
    obtain ⟨h0, h0'⟩ := h 0 (by simp)
    simp only [Nat.add_zero, List.getElem?_cons_zero] at h0 h0'
    rw [readChars, h0]
    simp only
    rw [if_neg (by simpa using h0'), ih (a := a + 1) (n := n) (by simpa using hn) fun k hk => ?_]
    · rw [List.length_cons, List.cons_append, show a + 1 + cs.length = a + (cs.length + 1) by omega,
        show n + 1 - (cs.length + 1) = n - cs.length by omega]
    · have := h (k + 1) (by simpa using hk)
      rwa [List.getElem?_cons_succ, show a + (k + 1) = a + 1 + k by omega] at this

/-- A memory lists at least as many bytes as it admits in a row. -/
theorem length_of_readable {m : Memory} {a n : Nat} (h : ∀ k, k < n → Memory.read srcSpace m (a + k) ≠ none) :
    n ≤ m.length := by
  have hmem : ∀ k, k < n → a + k ∈ m.map Prod.fst := by
    intro k hk
    have hr := h k hk
    unfold Memory.read at hr
    split_ifs at hr with hlt
    · cases hl : m.lookup (a + k) with
      | none => simp [hl, srcSpace] at hr
      | some v =>
        have : ∀ m : Memory, m.lookup (a + k) = some v → a + k ∈ m.map Prod.fst := by
          intro m
          induction m with
          | nil => intro hc; cases hc
          | cons d rest ih =>
            intro hc
            simp only [Memory.lookup] at hc
            split_ifs at hc with he
            · simp [he]
            · exact List.mem_cons_of_mem _ (ih hc)
        exact this m hl
    · exact absurd rfl hr
  have hsub : (List.range n).map (fun k => a + k) ⊆ m.map Prod.fst := by
    intro x hx
    obtain ⟨k, hk, rfl⟩ := List.mem_map.1 hx
    exact hmem k (List.mem_range.1 hk)
  have hnd : ((List.range n).map (fun k => a + k)).Nodup :=
    List.Nodup.map (fun _ _ h => by simpa using h) List.nodup_range
  have := (hnd.subperm hsub).length_le
  simpa using this

/-- The characters of a source string (R79, R187): those before its terminator, or before a byte that is not admitted. -/
theorem sourceChars_eq {s : State} {a : Nat} {cs : List Byte} (h : Yields (fun k => s.memRead (a + k)) cs) :
    (∀ ch, s.memRead (a + cs.length) = some ch → ∃ rest, s.sourceChars a = cs ++ ch :: rest) ∧
      (s.memRead (a + cs.length) = none → s.sourceChars a = cs) := by
  have hread : ∀ k, k < cs.length → Memory.read srcSpace s.src (a + k) ≠ none := by
    intro k hk
    have := (h k hk).1
    simp only [State.memRead] at this
    rw [this, List.getElem?_eq_getElem hk]
    simp
  have hlen := length_of_readable hread
  have happ := readChars_append cs hlen h
  refine ⟨fun ch hch => ?_, fun hnone => ?_⟩
  · have hlen' : cs.length + 1 ≤ s.src.length := by
      refine length_of_readable (a := a) fun k hk => ?_
      rcases Nat.eq_or_lt_of_le (Nat.le_of_lt_succ hk) with rfl | hlt
      · rw [State.memRead] at hch
        rw [hch]
        simp
      · exact hread k hlt
    unfold State.sourceChars
    obtain ⟨n, hn⟩ : ∃ n, s.src.length - cs.length = n + 1 := ⟨s.src.length - cs.length - 1, by omega⟩
    rw [happ, hn, readChars]
    rw [State.memRead] at hch
    rw [hch]
    simp only
    split_ifs
    · exact ⟨[], rfl⟩
    · exact ⟨_, rfl⟩
  · unfold State.sourceChars
    rw [happ]
    cases hn : s.src.length - cs.length with
    | zero => simp [readChars]
    | succ n =>
      rw [State.memRead] at hnone
      rw [readChars, hnone]
      simp

end Sys2Proof.Machine
end

