-- ==== Sys2Proof/Laws/Exec.lean ====
section
/-! SUPPORT. What each command answers, said once in terms of the named updates: the state it leaves, by the way it ends. Later
proofs cite these lemmas and do not unfold the meanings. -/

namespace Sys2Proof.Machine

open Sys2Proof

variable (s : State)

/-! ## Framebuffer, cursor and line commands -/

/-- TOGGLE_INVERT's effect (R138). -/
def State.toggle : State := { s.setBytes (fun i => ~~~s.fbByte i) with inv := !s.inv }

theorem exec_nop : exec .nop s = .next (s.setStatus .none) := rfl
theorem exec_fill (c : Color) : exec (.fill c) s = .next ((s.fill c).setStatus .none) := rfl
theorem exec_writePixel (x y : Nat) (c : Color) :
    exec (.writePixel x y c) s = .next ((s.draw [⟨x, y, c⟩]).setStatus .none) := rfl
theorem exec_toggleInvert : exec .toggleInvert s = .next (s.toggle.setStatus .none) := rfl
theorem exec_setCursor (x y : Nat) : exec (.setCursor x y) s = .next ((s.cursorAt x y).setStatus .none) := rfl
theorem exec_drawLine (x0 y0 x1 y1 : Int) (c : Color) :
    exec (.drawLine x0 y0 x1 y1 c) s =
      .next ((s.draw (inColor c (clampedLine s.cfg x0 y0 x1 y1))).autoFlush.setStatus .none) := rfl

/-- DRAW_BITMAP ends, with pixels drawn, or faults. -/
theorem exec_drawBitmap (x y src w h : Nat) (c : Color) :
    exec (.drawBitmap x y src w h c) s =
      if (blitRows s.src src w x y h 0).unmapped = true then .fault .srcUnmapped
      else .next ((s.draw (inColor c (blitRows s.src src w x y h 0).points)).setStatus .none) := by
  simp only [exec, execDrawBitmap, runDrawBitmap]
  split_ifs <;> rfl

/-! ## Page transfer and controller commands -/

theorem exec_update : exec .update s = .next (if busOpen s then s.transfer.setStatus .none else s.setStatus .notReady) := by
  cases h : busOpen s <;> simp [exec, execUpdate, h]

theorem exec_clear :
    exec .clear s =
      .next (if busOpen s then (s.fill .black).transfer.setStatus .none else (s.fill .black).setStatus .notReady) := by
  cases h : busOpen s <;> simp [exec, execClear, h]

theorem exec_init : exec .init s = .next (s.initEffect.setStatus (initError s.nextProbe)) := by
  rw [← conclude_raiseErr]
  rfl

/-- SET_POWER, INVERT_HW, the scrolls and STOP_SCROLL are one operation on their list. -/
theorem exec_eq_busCommand {i : Instr} {bs : List Byte} (h : controllerBytes s.cfg i = some bs) :
    exec i s = conclude (busCommand s bs) := by
  cases i <;> first | cases h; done | skip
  all_goals
    rw [← Option.some.inj h]
    rfl

/-- SET_POWER, INVERT_HW, the scrolls and STOP_SCROLL. -/
theorem exec_controller {i : Instr} {bs : List Byte} (h : controllerBytes s.cfg i = some bs) :
    exec i s = .next (if busOpen s then (s.sendBytes bs).setStatus .none else s.setStatus .notReady) := by
  rw [exec_eq_busCommand s h, busCommand]
  cases busOpen s <;> simp

/-! ## Text commands -/

/-- DRAW_CHAR in a font that exists. -/
theorem exec_drawChar (ch : Byte) (font : Nat) (c : Color) {f : Font} (hf : s.cfg.fonts[font]? = some f) :
    exec (.drawChar ch font c) s =
      match putChar f c ch s with
      | .ok s' => .next ((s'.setResult ch).setStatus .none)
      | .error e => .next ((s.setResult ch).setStatus e) := by
  simp only [exec, execDrawChar, runDrawChar, withFont, hf]
  cases putChar f c ch s <;> rfl

/-- A string or number command in a font that exists: the string loop over its characters, from its position. -/
theorem exec_textJob {i : Instr} {job : TextJob} {f : Font} (hj : textJob s i = some job)
    (hf : s.cfg.fonts[job.font]? = some f) :
    ∃ chars, exec i s = conclude (putChars f job.color chars (s.cursorAt job.x job.y)) ∧
      ∀ cs, Yields job.next cs → (∀ ch, job.next cs.length = some ch → ∃ rest, chars = cs ++ ch :: rest) ∧
        (job.next cs.length = none → chars = cs) := by
  have key : ∀ l cs : List Byte, Yields (fun k => l[k]?) cs →
      (∀ ch, l[cs.length]? = some ch → ∃ rest, l = cs ++ ch :: rest) ∧ (l[cs.length]? = none → l = cs) := by
    intro l cs h
    have hpre : l.take cs.length = cs := by
      refine List.ext_getElem? fun k => ?_
      by_cases hk : k < cs.length
      · rw [List.getElem?_take_of_lt hk]
        exact (h k hk).1
      · rw [List.getElem?_eq_none (by simp; omega), List.getElem?_eq_none (by omega)]
    refine ⟨fun ch hch => ?_, fun hn => ?_⟩
    · obtain ⟨hl, he⟩ := List.getElem?_eq_some_iff.1 hch
      refine ⟨l.drop (cs.length + 1), ?_⟩
      conv_lhs => rw [← List.take_append_drop cs.length l, hpre]
      rw [List.drop_eq_getElem_cons hl, he]
    · rw [List.take_of_length_le (List.getElem?_eq_none_iff.1 hn)] at hpre
      exact hpre
  cases i <;> simp only [textJob, Option.some.injEq, reduceCtorEq] at hj <;> subst hj <;> simp only at hf
  case drawString x y src font c =>
    refine ⟨s.sourceChars src, ?_, fun cs h => sourceChars_eq h⟩
    simp only [exec, execDrawString, runDrawString, withFont, hf, putString_eq]
  case drawNumber x y v font c =>
    exact ⟨numberText v, by simp only [exec, execDrawNumber, withFont, hf, putString_eq], fun cs h => key _ cs h⟩
  case drawSignedNumber x y v font c =>
    exact ⟨signedText v, by simp only [exec, execDrawSignedNumber, withFont, hf, putString_eq], fun cs h => key _ cs h⟩

/-- A text command in a font that does not exist (R81). -/
theorem exec_badFont {i : Instr} {font : Nat} (hi : fontOf i = some font) (hf : s.cfg.fonts[font]? = none) :
    exec i s = .next (s.setStatus .badFont) := by
  cases i <;> simp only [fontOf, Option.some.injEq, reduceCtorEq] at hi <;> subst hi <;>
    simp only [exec, execDrawChar, runDrawChar, execDrawString, runDrawString, execDrawNumber, execDrawSignedNumber,
      withFont, hf] <;> rfl

/-- How a text command ends that drew glyphs, leaving `g`: with a status (with success only of DRAW_CHAR), or with success and
a flush (not of DRAW_CHAR), or, of DRAW_STRING only, on a source byte that is not admitted. -/
def TextEnds (i : Instr) (s g : State) : Prop :=
  (∃ ch e, (e = .none ∨ e = .textOverflow ∨ e = .glyphRange) ∧ exec i s = .next ((g.setResult ch).setStatus e)) ∨
    (mayTransfer i = true ∧ exec i s = .next ((g.setResult 0).autoFlush.setStatus .none)) ∨
    ((∃ x y src font c, i = .drawString x y src font c) ∧ exec i s = .fault .srcUnmapped)

/-- Everything a text command can do: BAD_FONT and nothing else; or some glyphs drawn, from the cursor or from a position it
set, and one of the three ends. -/
theorem exec_text_cases {i : Instr} {font : Nat} (hi : fontOf i = some font) :
    exec i s = .next (s.setStatus .badFont) ∨
    ∃ s0 f c cs, (s0 = s ∨ ∃ x y, s0 = s.cursorAt x y) ∧ TextEnds i s (s0.putGlyphs f c cs) := by
  cases hf : s.cfg.fonts[font]? with
  | none => exact Or.inl (exec_badFont s hi hf)
  | some f =>
    refine Or.inr ?_
    have strings : ∀ c x y chars, exec i s = conclude (putChars f c chars (s.cursorAt x y)) → mayTransfer i = true →
        (0 ∈ chars ∨ ∃ x y src font c, i = .drawString x y src font c) →
        ∃ s0 f c cs, (s0 = s ∨ ∃ x y, s0 = s.cursorAt x y) ∧ TextEnds i s (s0.putGlyphs f c cs) := by
      intro c x y chars hex hm h0
      obtain ⟨cs, h | h | ⟨ch, e, he, h⟩⟩ := putChars_cases f c chars (s.cursorAt x y)
      · exact ⟨s.cursorAt x y, f, c, cs, Or.inr ⟨x, y, rfl⟩,
          Or.inr (Or.inr ⟨h0.resolve_left h.2, by rw [hex, h.1]; rfl⟩)⟩
      · exact ⟨s.cursorAt x y, f, c, cs, Or.inr ⟨x, y, rfl⟩, Or.inr (Or.inl ⟨hm, by rw [hex, h]; rfl⟩)⟩
      · exact ⟨s.cursorAt x y, f, c, cs, Or.inr ⟨x, y, rfl⟩, Or.inl ⟨ch, e, Or.inr he, by rw [hex, h]; rfl⟩⟩
    cases i <;> simp only [fontOf, Option.some.injEq, reduceCtorEq] at hi <;> subst hi
    case drawChar ch _ c =>
      have hex := exec_drawChar s ch _ c hf
      by_cases hfit : s.cfg.width < s.cx.toNat + f.width ∨ s.cfg.height < s.cy.toNat + f.height
      · rw [putChar_overflow c ch hfit] at hex
        exact ⟨s, f, c, [], Or.inl rfl, Or.inl ⟨ch, _, Or.inr (Or.inl rfl), hex⟩⟩
      · by_cases hg : f.base ≤ ch.toNat ∧ ch.toNat < f.base + f.count
        · rw [putChar_of_fits (by omega) (by omega) hg] at hex
          exact ⟨s, f, c, [ch], Or.inl rfl, Or.inl ⟨ch, _, Or.inl rfl, hex⟩⟩
        · rw [putChar_glyphRange c (by omega) (by omega) (by omega)] at hex
          exact ⟨s, f, c, [], Or.inl rfl, Or.inl ⟨ch, _, Or.inr (Or.inr rfl), hex⟩⟩
    case drawString x y src _ c =>
      exact strings c x y (s.sourceChars src) (by simp only [exec, execDrawString, runDrawString, withFont, hf, putString_eq]) rfl
        (Or.inr ⟨x, y, src, _, c, rfl⟩)
    case drawNumber x y v _ c =>
      exact strings c x y (numberText v) (by simp only [exec, execDrawNumber, withFont, hf, putString_eq]) rfl
        (Or.inl (by simp [numberText]))
    case drawSignedNumber x y v _ c =>
      exact strings c x y (signedText v) (by simp only [exec, execDrawSignedNumber, withFont, hf, putString_eq]) rfl
        (Or.inl (by simp [signedText]))

end Sys2Proof.Machine
end

