-- ==== Sys2Proof/Laws/Line.lean ====
section
/-! SUPPORT. Laws of the line rasterizer (spec/41_rasterizer.md R153, R154): the loop in closed form. Point `k` of a sloped line
is `k` steps along the major axis and `minorSteps d e k` along the other. -/

namespace Sys2Proof.Machine

open Sys2Proof

/-- The number of minor-axis steps among the first `k` steps of a line with `d` major and `e` minor steps. -/
def minorSteps (d e : Int) (k : Nat) : Int := -((d / 2 - k * e) / d)

/-- One more step: the remainder of the error says whether the minor axis moves. -/
theorem minorSteps_succ {d e : Int} (he : 0 < e) (hed : e ≤ d) (k : Nat) :
    minorSteps d e (k + 1) = minorSteps d e k + (if (d / 2 - k * e) % d < e then 1 else 0) ∧
      (d / 2 - (k + 1 : Nat) * e) % d = (d / 2 - k * e) % d - e + (if (d / 2 - k * e) % d < e then d else 0) := by
  have hm := Int.mul_ediv_add_emod (d / 2 - k * e) d
  have h0 := Int.emod_nonneg (d / 2 - k * e) (show d ≠ 0 by omega)
  have h1 := Int.emod_lt_of_pos (d / 2 - k * e) (show 0 < d by omega)
  unfold minorSteps
  generalize hr : (d / 2 - k * e) % d = r at *
  generalize hq : (d / 2 - k * e) / d = q at *
  have hz : d / 2 - (k + 1 : Nat) * e = (r - e + if r < e then d else 0) + d * (q - if r < e then 1 else 0) := by
    push_cast
    split_ifs <;> linarith
  have hb : 0 ≤ (r - e + if r < e then d else 0) ∧ (r - e + if r < e then d else 0) < d := by
    split_ifs <;> omega
  rw [hz, Int.add_mul_ediv_left _ _ (by omega), Int.ediv_eq_zero_of_lt hb.1 hb.2, Int.add_mul_emod_self_left,
    Int.emod_eq_of_lt hb.1 hb.2]
  exact ⟨by split_ifs <;> omega, rfl⟩

theorem minorSteps_zero {d e : Int} (hd : 0 < d) : minorSteps d e 0 = 0 := by
  unfold minorSteps
  rw [Int.ediv_eq_zero_of_lt (by simp; omega) (by simp; omega)]
  rfl

theorem minorSteps_last {d e : Int} (hd : 0 < d) {k : Nat} (hk : (k : Int) = d) : minorSteps d e k = e := by
  unfold minorSteps
  rw [hk, Int.sub_mul_ediv_left _ _ (by omega), Int.ediv_eq_zero_of_lt (by omega) (by omega)]
  omega

theorem bresenham_shallow {x1 y1 dx dy sx sy x0 y0 : Int} (hsx : sx = 1 ∨ sx = -1) (hdy : 0 < dy) (h : dy < dx)
    (hx : x1 = x0 + sx * dx) (hy : y1 = y0 + sy * dy) (n k : Nat) (hn : (n : Int) + k = dx + 1) :
    bresenham x1 y1 dx dy sx sy n (x0 + sx * k) (y0 + sy * minorSteps dx dy k) ((dx / 2 - k * dy) % dx) =
      (List.range' k n).map fun j : Nat => (x0 + sx * (j : Int), y0 + sy * minorSteps dx dy j) := by
  induction n generalizing k with
  | zero => rfl
  | succ n ih =>
    rw [List.range'_succ, List.map_cons, bresenham]
    congr 1
    by_cases hend : n = 0
    · subst hend
      have hk : (k : Int) = dx := by push_cast at hn; omega
      rw [if_pos ⟨by rw [hk, hx], by rw [minorSteps_last (by omega) hk, hy]⟩]
      rfl
    · have hk : (k : Int) < dx := by push_cast at hn; omega
      have h0 := Int.emod_nonneg (dx / 2 - k * dy) (show dx ≠ 0 by omega)
      obtain ⟨hq, hr⟩ := minorSteps_succ hdy h.le k
      have := ih (k + 1) (by push_cast at hn ⊢; omega)
      rw [hq, hr] at this
      rw [if_neg]
      · have hgt : (dx / 2 - k * dy) % dx > -dx := by omega
        simp only [hgt, if_true]
        rw [← this]
        push_cast
        congr 1
        · ring
        · split_ifs <;> ring
        · split_ifs <;> ring
      · rintro ⟨he, -⟩
        rw [hx] at he
        rcases hsx with rfl | rfl <;> omega

theorem bresenham_steep {x1 y1 dx dy sx sy x0 y0 : Int} (hsy : sy = 1 ∨ sy = -1) (hdx : 0 < dx) (h : dx ≤ dy)
    (hx : x1 = x0 + sx * dx) (hy : y1 = y0 + sy * dy) (n k : Nat) (hn : (n : Int) + k = dy + 1) :
    bresenham x1 y1 dx dy sx sy n (x0 + sx * minorSteps dy dx k) (y0 + sy * k) (-((dy / 2 - k * dx) % dy)) =
      (List.range' k n).map fun j : Nat => (x0 + sx * minorSteps dy dx j, y0 + sy * (j : Int)) := by
  induction n generalizing k with
  | zero => rfl
  | succ n ih =>
    rw [List.range'_succ, List.map_cons, bresenham]
    congr 1
    by_cases hend : n = 0
    · subst hend
      have hk : (k : Int) = dy := by push_cast at hn; omega
      rw [if_pos ⟨by rw [minorSteps_last (by omega) hk, hx], by rw [hk, hy]⟩]
      rfl
    · have hk : (k : Int) < dy := by push_cast at hn; omega
      have h0 := Int.emod_nonneg (dy / 2 - k * dx) (show dy ≠ 0 by omega)
      obtain ⟨hq, hr⟩ := minorSteps_succ hdx h k
      have := ih (k + 1) (by push_cast at hn ⊢; omega)
      rw [hq, hr] at this
      rw [if_neg]
      · have hlt : -((dy / 2 - k * dx) % dy) < dy := by omega
        have hiff : -((dy / 2 - k * dx) % dy) > -dx ↔ (dy / 2 - k * dx) % dy < dx := by omega
        simp only [hlt, if_true, hiff]
        rw [← this]
        push_cast
        congr 1
        · split_ifs <;> ring
        · ring
        · split_ifs <;> ring
      · rintro ⟨-, he⟩
        rw [hy] at he
        rcases hsy with rfl | rfl <;> omega

/-- The minor coordinate stays within half a step of the ideal line. -/
theorem minorSteps_deviation {d e : Int} (hd : 0 < d) (k : Nat) :
    -d ≤ 2 * (minorSteps d e k * d - k * e) ∧ 2 * (minorSteps d e k * d - k * e) ≤ d := by
  have hm := Int.mul_ediv_add_emod (d / 2 - k * e) d
  have h0 := Int.emod_nonneg (d / 2 - k * e) (show d ≠ 0 by omega)
  have h1 := Int.emod_lt_of_pos (d / 2 - k * e) hd
  have hz : minorSteps d e k * d - k * e = (d / 2 - k * e) % d - d / 2 := by
    unfold minorSteps
    linarith
  rw [hz]
  omega

/-- The minor coordinate starts at 0 and ends at its distance, and stays between. -/
theorem minorSteps_bounds {d e : Int} (hd : 0 < d) (he : 0 ≤ e) {k : Nat} (hk : (k : Int) ≤ d) :
    0 ≤ minorSteps d e k ∧ minorSteps d e k ≤ e := by
  obtain ⟨h1, h2⟩ := minorSteps_deviation (e := e) hd k
  have hke : (k : Int) * e ≤ d * e := Int.mul_le_mul_of_nonneg_right hk he
  have h0 : 0 ≤ (k : Int) * e := Int.mul_nonneg (Int.natCast_nonneg k) he
  constructor
  · by_contra hc
    have : minorSteps d e k * d ≤ -1 * d := Int.mul_le_mul_of_nonneg_right (by omega) hd.le
    linarith
  · by_contra hc
    have : (e + 1) * d ≤ minorSteps d e k * d := Int.mul_le_mul_of_nonneg_right (by omega) hd.le
    linarith

/-- Each step along the major axis moves the minor one by 0 or 1. -/
theorem minorSteps_step {d e : Int} (he : 0 < e) (hed : e ≤ d) (k : Nat) :
    minorSteps d e k ≤ minorSteps d e (k + 1) ∧ minorSteps d e (k + 1) ≤ minorSteps d e k + 1 := by
  obtain ⟨h, -⟩ := minorSteps_succ he hed k
  rw [h]
  split_ifs <;> omega

/-- The direction from one coordinate to another (R153). -/
def dirOf (a b : Int) : Int := if a < b then 1 else -1

theorem dirOf_mul (a b : Int) : b = a + dirOf a b * (b - a).natAbs := by
  unfold dirOf
  split_ifs <;> omega

theorem dirOf_eq (a b : Int) : dirOf a b = 1 ∨ dirOf a b = -1 := by
  unfold dirOf
  split_ifs <;> simp

/-- The points of a line that is wider than high. -/
theorem slopedLine_shallow {x0 y0 x1 y1 : Int} (hy : y0 ≠ y1) (h : (y1 - y0).natAbs < (x1 - x0).natAbs) :
    slopedLine x0 y0 x1 y1 = (List.range ((x1 - x0).natAbs + 1)).map fun k : Nat =>
      (x0 + dirOf x0 x1 * (k : Int), y0 + dirOf y0 y1 * minorSteps (x1 - x0).natAbs (y1 - y0).natAbs k) := by
  have hb := bresenham_shallow (dx := (x1 - x0).natAbs) (dy := (y1 - y0).natAbs) (dirOf_eq x0 x1) (by omega) (by omega)
    (dirOf_mul x0 x1) (dirOf_mul y0 y1) ((x1 - x0).natAbs + 1) 0 (by push_cast; omega)
  rw [minorSteps_zero (by omega)] at hb
  simp only [Nat.cast_zero, mul_zero, add_zero, zero_mul, sub_zero] at hb
  rw [List.range_eq_range', ← hb]
  unfold slopedLine
  simp only
  rw [show max ((x1 - x0).natAbs : Int) (y1 - y0).natAbs = (x1 - x0).natAbs by omega, Int.toNat_natCast,
    if_pos (show ((x1 - x0).natAbs : Int) > (y1 - y0).natAbs by omega), Int.tdiv_eq_ediv_of_nonneg (by omega), Int.emod_eq_of_lt (by omega) (by omega)]
  rfl

/-- The points of a line that is at least as high as it is wide. -/
theorem slopedLine_steep {x0 y0 x1 y1 : Int} (hx : x0 ≠ x1) (h : (x1 - x0).natAbs ≤ (y1 - y0).natAbs) :
    slopedLine x0 y0 x1 y1 = (List.range ((y1 - y0).natAbs + 1)).map fun k : Nat =>
      (x0 + dirOf x0 x1 * minorSteps (y1 - y0).natAbs (x1 - x0).natAbs k, y0 + dirOf y0 y1 * (k : Int)) := by
  have hb := bresenham_steep (dx := (x1 - x0).natAbs) (dy := (y1 - y0).natAbs) (dirOf_eq y0 y1) (by omega) (by omega)
    (dirOf_mul x0 x1) (dirOf_mul y0 y1) ((y1 - y0).natAbs + 1) 0 (by push_cast; omega)
  rw [minorSteps_zero (by omega)] at hb
  simp only [Nat.cast_zero, mul_zero, add_zero, zero_mul, sub_zero] at hb
  rw [List.range_eq_range', ← hb]
  unfold slopedLine
  simp only
  rw [show max ((x1 - x0).natAbs : Int) (y1 - y0).natAbs = (y1 - y0).natAbs by omega, Int.toNat_natCast,
    if_neg (show ¬((x1 - x0).natAbs : Int) > (y1 - y0).natAbs by omega), Int.neg_tdiv, Int.tdiv_eq_ediv_of_nonneg (by omega), Int.emod_eq_of_lt (by omega) (by omega)]
  rfl

end Sys2Proof.Machine
end

