-- ==== Sys2Proof/Laws/PerInstr.lean ====
section
/-! SUPPORT. Statements about every instruction, one lemma a constructor. -/

namespace Sys2Proof.Laws

open Sys2Proof Sys2Proof.Machine

/-! ## `CleanWords`: an assembled command has an assigned opcode and sets no bit that it does not read (R104, R111) -/

/-- No bit of `v` lies outside the mask. -/
abbrev Within (v mask : Word) : Prop := v &&& ~~~mask = 0

theorem within_zero (m : Word) : Within 0 m := by simp [Within]

theorem within_all (v : Word) : Within v 0xFFFFFFFF := by simp [Within]

theorem within_of_bits {v m : Word} (h : ∀ k, k < 32 → v.getLsbD k = true → m.getLsbD k = true) : Within v m := by
  refine BitVec.eq_of_getLsbD_eq fun k hk => ?_
  have := h k hk
  cases hv : v.getLsbD k <;> simp_all

/-- The bits of `ARG3` that `C` occupies. -/
theorem within_color (c : Color) : Within (arg3Of c.bit 0 0) 0x00000001 := by
  cases c <;> decide

theorem within_on (on : Bool) : Within (arg3Of on.toNat 0 0) 0x00000001 := by
  cases on <;> decide

theorem testBit_arg3Of {c f ch k : Nat} (hc : c < 2) (hf : f < 256) (hch : ch < 256)
    (h : (arg3Of c f ch).getLsbD k = true) : k = 0 ∨ (8 ≤ k ∧ k < 16 ∧ f.testBit (k - 8) = true) ∨
      (16 ≤ k ∧ k < 24 ∧ ch.testBit (k - 16) = true) := by
  have e : c + f * 2 ^ 8 + ch * 2 ^ 16 = 2 ^ 8 * (2 ^ 8 * ch + f) + c := by ring
  simp only [arg3Of, BitVec.getLsbD_ofNat, Bool.and_eq_true, e] at h
  have h := h.2
  rw [Nat.testBit_two_pow_mul_add _ (by omega)] at h
  split_ifs at h with h8
  · have := Nat.testBit_lt_two_pow (x := c) (i := k)
    by_cases hk : k = 0
    · exact Or.inl hk
    · have : c.testBit k = false := Nat.testBit_lt_two_pow (hc.trans_le (by
        calc 2 = 2 ^ 1 := rfl
          _ ≤ 2 ^ k := Nat.pow_le_pow_right (by omega) (by omega)))
      rw [this] at h
      cases h
  · rw [Nat.testBit_two_pow_mul_add _ (by omega)] at h
    split_ifs at h with h16
    · exact Or.inr (Or.inl ⟨by omega, by omega, h⟩)
    · refine Or.inr (Or.inr ⟨by omega, ?_, by rwa [show k - 16 = k - 8 - 8 by omega]⟩)
      by_contra hk
      have : ch.testBit (k - 8 - 8) = false := Nat.testBit_lt_two_pow (hch.trans_le (by
        calc 256 = 2 ^ 8 := rfl
          _ ≤ 2 ^ (k - 8 - 8) := Nat.pow_le_pow_right (by omega) (by omega)))
      rw [this] at h
      cases h

/-- The bits of `ARG3` that `C` and `FONT` occupy. -/
theorem within_font (c : Color) {f : Nat} (hf : f < 256) : Within (arg3Of c.bit f 0) 0x0000FF01 := by
  refine within_of_bits fun k hk h => ?_
  have key : ∀ j < 16, (j = 0 ∨ 8 ≤ j) → (0x0000FF01 : Word).getLsbD j = true := by decide
  rcases testBit_arg3Of c.bit_lt hf (by omega) h with h | h | h
  · exact key k (by omega) (Or.inl h)
  · exact key k h.2.1 (Or.inr h.1)
  · simp at h

/-- The bits of `ARG3` that `C`, `FONT` and `CH` occupy. -/
theorem within_glyph (c : Color) {f ch : Nat} (hf : f < 256) (hch : ch < 256) :
    Within (arg3Of c.bit f ch) 0x00FFFF01 := by
  refine within_of_bits fun k hk h => ?_
  have key : ∀ j < 24, (j = 0 ∨ 8 ≤ j) → (0x00FFFF01 : Word).getLsbD j = true := by decide
  rcases testBit_arg3Of c.bit_lt hf hch h with h | h | h
  · exact key k (by omega) (Or.inl h)
  · exact key k (by omega) (Or.inr h.1)
  · exact key k h.2.1 (Or.inr (by omega))

/-- The bits of `ARG0` that `SP` and `EP` occupy. -/
theorem within_pages (a b : Byte) : Within (halves a.toNat b.toNat) 0x00FF00FF := by
  refine within_of_bits fun k hk h => ?_
  have key : ∀ j < 32, (j < 8 ∨ (16 ≤ j ∧ j < 24)) → (0x00FF00FF : Word).getLsbD j = true := by decide
  have e : a.toNat + b.toNat * 2 ^ 16 = 2 ^ 16 * b.toNat + a.toNat := by ring
  simp only [halves, BitVec.getLsbD_ofNat, Bool.and_eq_true, e] at h
  have h := h.2
  have small : ∀ (x : Byte) (j : Nat), x.toNat.testBit j = true → j < 8 := by
    intro x j hj
    by_contra hc
    have : x.toNat.testBit j = false := Nat.testBit_lt_two_pow (x.isLt.trans_le (Nat.pow_le_pow_right (by omega) (by omega)))
    rw [this] at hj
    cases hj
  rw [Nat.testBit_two_pow_mul_add _ (by have := a.isLt; omega)] at h
  split_ifs at h with hk16
  · exact key k hk (Or.inl (small a k h))
  · have := small b _ h
    exact key k hk (Or.inr (by omega))

/-- An assembled command's words. -/
def CleanWords.Statement (i : Instr) : Prop :=
  WellFormed i →
    unassignedOpcode (encode i).opcode = false ∧
      Within (encode i).arg0 (readMask (encode i).opcode).arg0 ∧ Within (encode i).arg1 (readMask (encode i).opcode).arg1 ∧
      Within (encode i).arg2 (readMask (encode i).opcode).arg2 ∧ Within (encode i).arg3 (readMask (encode i).opcode).arg3

theorem CleanWords.nop : CleanWords.Statement .nop :=
  fun _ => ⟨rfl, within_zero _, within_zero _, within_zero _, within_zero _⟩
theorem CleanWords.fill (c : Color) : CleanWords.Statement (.fill c) :=
  fun _ => ⟨rfl, within_zero _, within_zero _, within_zero _, within_color c⟩
theorem CleanWords.writePixel (x y : Nat) (c : Color) : CleanWords.Statement (.writePixel x y c) :=
  fun _ => ⟨rfl, within_all _, within_zero _, within_zero _, within_color c⟩
theorem CleanWords.toggleInvert : CleanWords.Statement .toggleInvert :=
  fun _ => ⟨rfl, within_zero _, within_zero _, within_zero _, within_zero _⟩
theorem CleanWords.setCursor (x y : Nat) : CleanWords.Statement (.setCursor x y) :=
  fun _ => ⟨rfl, within_all _, within_zero _, within_zero _, within_zero _⟩
theorem CleanWords.drawLine (x0 y0 x1 y1 : Int) (c : Color) : CleanWords.Statement (.drawLine x0 y0 x1 y1 c) :=
  fun _ => ⟨rfl, within_all _, within_all _, within_zero _, within_color c⟩
theorem CleanWords.drawBitmap (x y src w h : Nat) (c : Color) : CleanWords.Statement (.drawBitmap x y src w h c) :=
  fun _ => ⟨rfl, within_all _, within_all _, within_all _, within_color c⟩
theorem CleanWords.drawChar (ch : Byte) (f : Nat) (c : Color) : CleanWords.Statement (.drawChar ch f c) :=
  fun h => ⟨rfl, within_zero _, within_zero _, within_zero _, within_glyph c (by simp only [WellFormed, Instr.wf, fitsU, decide_eq_true_eq] at h; omega) ch.isLt⟩
theorem CleanWords.drawString (x y src f : Nat) (c : Color) : CleanWords.Statement (.drawString x y src f c) :=
  fun h => ⟨rfl, within_all _, within_zero _, within_all _, within_font c (by simp only [WellFormed, Instr.wf, fitsU, Bool.and_eq_true, decide_eq_true_eq] at h; omega)⟩
theorem CleanWords.drawNumber (x y v f : Nat) (c : Color) : CleanWords.Statement (.drawNumber x y v f c) :=
  fun h => ⟨rfl, within_all _, within_all _, within_zero _, within_font c (by simp only [WellFormed, Instr.wf, fitsU, Bool.and_eq_true, decide_eq_true_eq] at h; omega)⟩
theorem CleanWords.drawSignedNumber (x y : Nat) (v : Int) (f : Nat) (c : Color) : CleanWords.Statement (.drawSignedNumber x y v f c) :=
  fun h => ⟨rfl, within_all _, within_all _, within_zero _, within_font c (by simp only [WellFormed, Instr.wf, fitsU, Bool.and_eq_true, decide_eq_true_eq] at h; omega)⟩
theorem CleanWords.update : CleanWords.Statement .update :=
  fun _ => ⟨rfl, within_zero _, within_zero _, within_zero _, within_zero _⟩
theorem CleanWords.clear : CleanWords.Statement .clear :=
  fun _ => ⟨rfl, within_zero _, within_zero _, within_zero _, within_zero _⟩
theorem CleanWords.init : CleanWords.Statement .init :=
  fun _ => ⟨rfl, within_zero _, within_zero _, within_zero _, within_zero _⟩
theorem CleanWords.setPower (on : Bool) : CleanWords.Statement (.setPower on) :=
  fun _ => ⟨rfl, within_zero _, within_zero _, within_zero _, within_on on⟩
theorem CleanWords.invertHw (on : Bool) : CleanWords.Statement (.invertHw on) :=
  fun _ => ⟨rfl, within_zero _, within_zero _, within_zero _, within_on on⟩
theorem CleanWords.scrollRight (a b : Byte) : CleanWords.Statement (.scrollRight a b) :=
  fun _ => ⟨rfl, within_pages a b, within_zero _, within_zero _, within_zero _⟩
theorem CleanWords.scrollLeft (a b : Byte) : CleanWords.Statement (.scrollLeft a b) :=
  fun _ => ⟨rfl, within_pages a b, within_zero _, within_zero _, within_zero _⟩
theorem CleanWords.scrollDiagRight (a b : Byte) : CleanWords.Statement (.scrollDiagRight a b) :=
  fun _ => ⟨rfl, within_pages a b, within_zero _, within_zero _, within_zero _⟩
theorem CleanWords.scrollDiagLeft (a b : Byte) : CleanWords.Statement (.scrollDiagLeft a b) :=
  fun _ => ⟨rfl, within_pages a b, within_zero _, within_zero _, within_zero _⟩
theorem CleanWords.stopScroll : CleanWords.Statement .stopScroll :=
  fun _ => ⟨rfl, within_zero _, within_zero _, within_zero _, within_zero _⟩

end Sys2Proof.Laws
end

