-- ==== Sys2Proof/Laws/Step.lean ====
section
/-! SUPPORT. Laws of one step: which access it serves, what an access of each register reaches (spec/10_state.md R40), and the
command that a write of `CMD` starts (spec/30_encoding.md R105). -/

namespace Sys2Proof.Machine

open Sys2Proof

variable (s : State)

/-! ## The step -/

theorem step_of_host {a : HostAccess} {rest : List HostAccess} (hf : s.fault = none) (hc : configWf s.cfg = true)
    (hh : s.host = a :: rest) : step s = serve a { s with host := rest } := by
  simp [step, hf, hc, hh]

/-- With no access to serve, a step changes nothing (log 3). -/
theorem step_idle (hf : s.fault = none) (hc : configWf s.cfg = true) (hh : s.host = []) : step s = .next s := by
  simp [step, hf, hc, hh]

/-- Everything that can be behind a step that answers a state: the machine was idle, or it served its next access. -/
theorem step_next_cases {t : State} (h : step s = .next t) :
    s.fault = none ∧ configWf s.cfg = true ∧
      ((s.host = [] ∧ t = s) ∨ ∃ a rest, s.host = a :: rest ∧ serve a { s with host := rest } = .next t) := by
  unfold step at h
  split at h
  · cases h
  · rename_i hf
    split_ifs at h with hc
    refine ⟨hf, hc, ?_⟩
    split at h
    · rename_i hh
      cases h
      exact Or.inl ⟨hh, rfl⟩
    · rename_i a rest hh
      exact Or.inr ⟨a, rest, hh, h⟩

/-! ## Register accesses -/

/-- Inside the window, what an access reaches depends on its offset alone, wherever the window sits (R40, R283). -/
theorem target_windowBase_add (c : Config) {offset : Nat} {width : AccessWidth}
    (h : offset + AccessWidth.bytes width ≤ 2 ^ 32) :
    target c (c.windowBase + offset) width = windowTarget c offset (AccessWidth.bytes width) := by
  have hn : 0 < AccessWidth.bytes width := by cases width <;> decide
  unfold target
  rw [if_neg (by omega), if_neg (by omega), Nat.add_sub_cancel_left]

/-- Outside the window no access reaches the engine (log 27). -/
theorem target_elsewhere (c : Config) {address : Nat} {width : AccessWidth}
    (h : address + AccessWidth.bytes width ≤ c.windowBase ∨ c.windowBase + 2 ^ 32 < address + AccessWidth.bytes width) :
    target c address width = .elsewhere := by
  unfold target
  rw [if_pos h]

/-- An access that runs into the window from below is a violation (log 9). -/
theorem target_below (c : Config) {address : Nat} {width : AccessWidth} (h : address < c.windowBase)
    (h' : c.windowBase < address + AccessWidth.bytes width) : target c address width = .violation := by
  have hn : AccessWidth.bytes width ≤ 8 := by cases width <;> decide
  unfold target
  rw [if_neg (by omega), if_pos h]

/-- A well-formed panel's framebuffer window ends well inside the 32-bit offsets (R11, R40). -/
theorem fbWindow_end_le {c : Config} (h : configWf c = true) : fbWindowBase + c.size + 8 ≤ 2 ^ 32 := by
  have hp : c.width ≤ 32767 ∧ c.height ≤ 32760 := by
    simp only [configWf, panelWf, Bool.and_eq_true, decide_eq_true_eq] at h
    exact ⟨h.1.1.1.1.1.2, h.1.1.1.2⟩
  have : c.size ≤ 32767 * 4095 := Nat.mul_le_mul hp.1 (by unfold Config.pages; omega)
  unfold fbWindowBase
  omega

theorem target_reg (c : Config) (r : Reg) : target c (c.windowBase + Reg.offset r) .word = .reg r := by
  rw [target_windowBase_add c (by cases r <;> decide)]
  cases r <;> rfl

/-- A byte of the framebuffer window (R48). -/
theorem target_fbWindow {c : Config} (h : configWf c = true) {i : Nat} (hi : i < c.size) :
    target c (c.windowBase + (fbWindowBase + i)) .byte = .fbWindow i := by
  have := fbWindow_end_le h
  rw [target_windowBase_add c (by simp only [AccessWidth.bytes]; omega)]
  unfold windowTarget fbWindowBase
  rw [if_neg (by omega), if_pos (by simp only [AccessWidth.bytes]; omega)]
  simp [AccessWidth.bytes]

theorem serve_hostWrite (r : Reg) (v : Word) : serve (hostWrite s.cfg r v) s = writeReg r v s := by
  simp [serve, hostWrite, target_reg]

/-- A step whose access is the host's write of a whole register is that write. -/
theorem step_hostWrite {r : Reg} {v : Word} {rest : List HostAccess} (hf : s.fault = none) (hc : configWf s.cfg = true)
    (hh : s.host = hostWrite s.cfg r v :: rest) : step s = writeReg r v { s with host := rest } :=
  (step_of_host s hf hc hh).trans (serve_hostWrite { s with host := rest } r v)

theorem serve_hostRead (r : Reg) :
    serve (.read (s.cfg.windowBase + Reg.offset r) .word) s = .next (s.answer (readReg r s) s.busy) := by
  simp [serve, target_reg]

/-- Everything that can be behind a write that answers a state: a command ran, an operand register was stored, or nothing
changed. -/
theorem writeReg_next_cases {r : Reg} {v : Word} {t : State} (h : writeReg r v s = .next t) :
    (s.busy = false ∧ runCommand (v.setWidth 8) s = .next t) ∨
      (s.busy = false ∧
        (t = { s with arg0 := v } ∨ t = { s with arg1 := v } ∨ t = { s with arg2 := v } ∨ t = { s with arg3 := v })) ∨
      t = s := by
  have busy : ∀ o, unlessBusy s o = .next t → s.busy = false ∧ o = .next t := by
    intro o ho
    unfold unlessBusy at ho
    split_ifs at ho with hb
    exact ⟨by simpa using hb, ho⟩
  cases r <;> simp only [writeReg] at h
  case cmd => exact Or.inl (busy _ h)
  case arg0 => exact Or.inr (Or.inl ⟨(busy _ h).1, Or.inl (by have := (busy _ h).2; cases this; rfl)⟩)
  case arg1 => exact Or.inr (Or.inl ⟨(busy _ h).1, Or.inr (Or.inl (by have := (busy _ h).2; cases this; rfl))⟩)
  case arg2 => exact Or.inr (Or.inl ⟨(busy _ h).1, Or.inr (Or.inr (Or.inl (by have := (busy _ h).2; cases this; rfl)))⟩)
  case arg3 => exact Or.inr (Or.inl ⟨(busy _ h).1, Or.inr (Or.inr (Or.inr (by have := (busy _ h).2; cases this; rfl)))⟩)
  all_goals
    cases h
    exact Or.inr (Or.inr rfl)

/-- Everything that can be behind an access that answers a state. -/
theorem serve_next_cases {a : HostAccess} {t : State} (h : serve a s = .next t) :
    (∃ v free, t = s.answer v free) ∨ (∃ r v, writeReg r v s = .next t) ∨ t = s := by
  cases a with
  | read o w =>
    simp only [serve] at h
    split at h <;> cases h
    all_goals exact Or.inl ⟨_, _, rfl⟩
  | write o w v =>
    simp only [serve] at h
    split at h
    · cases h; exact Or.inr (Or.inr rfl)
    · exact Or.inr (Or.inl ⟨_, _, h⟩)
    · cases h; exact Or.inr (Or.inr rfl)
    · cases h; exact Or.inr (Or.inr rfl)
    · cases h

/-! ## The command cycle -/

theorem runCommand_of_decode {op : Byte} {i : Instr} (h : decode ⟨op, s.arg0, s.arg1, s.arg2, s.arg3⟩ = .ok i) :
    runCommand op s = exec i (s.start op) := by
  have : decode (s.start op).words = .ok i := h
  rw [runCommand, this]

theorem runCommand_of_error {op : Byte} {e : DecodeError} (h : decode ⟨op, s.arg0, s.arg1, s.arg2, s.arg3⟩ = .error e) :
    runCommand op s = .next ((s.start op).setStatus .illegalCommand) := by
  have : decode (s.start op).words = .error e := h
  rw [runCommand, this]
  rfl

end Sys2Proof.Machine
end

