-- ==== Sys2Proof/Machine/Assembler.lean ====
section
/-! DEFINITION. The assembler's notation (spec/30_encoding.md R110, R111, R114): a command as a mnemonic and operands, and the
listing of an assembled command. A tool of the host's, no part of a step. -/

namespace Sys2Proof.Machine

open Sys2Proof

/-- What an operand's spelling stands for (R110). -/
inductive Operand where
  | int (v : Int)
  | color (c : Color)
  | flag (on : Bool)
  deriving DecidableEq, Repr

/-- The value of a decimal digit. -/
def decDigit (c : Char) : Option Nat := if '0' ≤ c ∧ c ≤ '9' then some (c.toNat - '0'.toNat) else none

/-- The value of a hexadecimal digit. -/
def hexDigit (c : Char) : Option Nat :=
  if 'a' ≤ c ∧ c ≤ 'f' then some (c.toNat - 'a'.toNat + 10)
  else if 'A' ≤ c ∧ c ≤ 'F' then some (c.toNat - 'A'.toNat + 10)
  else decDigit c

/-- Digits in a base, after those read into `acc`. -/
def digitsFrom (base : Nat) (digit : Char → Option Nat) : Nat → List Char → Option Nat
  | acc, [] => some acc
  | acc, c :: cs =>
    match digit c with
    | some d => digitsFrom base digit (acc * base + d) cs
    | none => none

/-- An unsigned number: decimal, or hexadecimal after `0x`. -/
def readNat : List Char → Option Nat
  | [] => none
  | '0' :: 'x' :: [] => none
  | '0' :: 'x' :: cs => digitsFrom 16 hexDigit 0 cs
  | cs => digitsFrom 10 decDigit 0 cs

/-- An operand's spelling (R110): an integer, in decimal with an optional sign or in hexadecimal; a character in quotes for its
code; a colour; or the on flag. -/
def readOperand : List Char → Option Operand
  | '-' :: '0' :: 'x' :: _ => none
  | '+' :: '0' :: 'x' :: _ => none
  | '-' :: cs => (readNat cs).map fun n => .int (-(n : Int))
  | '+' :: cs => (readNat cs).map fun n => .int n
  | ['\'', c, '\''] => some (.int c.toNat)
  | ['B', 'L', 'A', 'C', 'K'] => some (.color .black)
  | ['W', 'H', 'I', 'T', 'E'] => some (.color .white)
  | ['O', 'N'] => some (.flag true)
  | ['O', 'F', 'F'] => some (.flag false)
  | cs => (readNat cs).map fun n => .int n

/-- A colour operand: `BLACK`, `WHITE`, `0` or `1`. -/
def asColor : Operand → Option Color
  | .color c => some c
  | .int v => if v = 0 then some .black else if v = 1 then some .white else none
  | .flag _ => none

/-- An on-flag operand: `ON`, `OFF`, `1` or `0`. -/
def asFlag : Operand → Option Bool
  | .flag on => some on
  | .int v => if v = 0 then some false else if v = 1 then some true else none
  | .color _ => none

/-- An integer operand. -/
def asInt : Operand → Option Int
  | .int v => some v
  | .color _ => none
  | .flag _ => none

/-- An unsigned operand of an `n`-bit field; outside its range it is an assembly error. -/
def asU (n : Nat) (o : Operand) : Option Nat :=
  match asInt o with
  | some v => if 0 ≤ v ∧ v < 2 ^ n then some v.toNat else none
  | none => none

/-- A signed operand of an `n`-bit field; outside its range it is an assembly error. -/
def asS (n : Nat) (o : Operand) : Option Int :=
  match asInt o with
  | some v => if fitsS n v then some v else none
  | none => none

/-- A byte operand. -/
def asByte (o : Operand) : Option Byte := (asU 8 o).map (BitVec.ofNat 8)

/-- The optional colour of the text commands: WHITE where it is left out (D14). -/
def colorOrWhite : List Operand → Option Color
  | [] => some .white
  | [c] => asColor c
  | _ => none

/-- A command from its mnemonic and operands (R110), or a pseudo-command's expansion (R114); nothing on an assembly error. -/
def assemble (mnemonic : String) (ops : List Operand) : Option Instr :=
  match mnemonic, ops with
  | "NOP", [] => some .nop
  | "FILL", [c] => do return .fill (← asColor c)
  | "WRITE_PIXEL", [x, y, c] => do return .writePixel (← asU 16 x) (← asU 16 y) (← asColor c)
  | "TOGGLE_INVERT", [] => some .toggleInvert
  | "SET_CURSOR", [x, y] => do return .setCursor (← asU 16 x) (← asU 16 y)
  | "DRAW_LINE", [x0, y0, x1, y1, c] => do
    return .drawLine (← asS 16 x0) (← asS 16 y0) (← asS 16 x1) (← asS 16 y1) (← asColor c)
  | "DRAW_BITMAP", [x, y, src, w, h, c] => do
    return .drawBitmap (← asU 16 x) (← asU 16 y) (← asU 32 src) (← asU 16 w) (← asU 16 h) (← asColor c)
  | "DRAW_CHAR", [ch, f, c] => do return .drawChar (← asByte ch) (← asU 8 f) (← asColor c)
  | "DRAW_STRING", x :: y :: src :: f :: c => do
    return .drawString (← asU 16 x) (← asU 16 y) (← asU 32 src) (← asU 8 f) (← colorOrWhite c)
  | "DRAW_NUMBER", x :: y :: v :: f :: c => do
    return .drawNumber (← asU 16 x) (← asU 16 y) (← asU 32 v) (← asU 8 f) (← colorOrWhite c)
  | "DRAW_SIGNED_NUMBER", x :: y :: v :: f :: c => do
    return .drawSignedNumber (← asU 16 x) (← asU 16 y) (← asS 32 v) (← asU 8 f) (← colorOrWhite c)
  | "UPDATE", [] => some .update
  | "CLEAR", [] => some .clear
  | "INIT", [] => some .init
  | "SET_POWER", [on] => do return .setPower (← asFlag on)
  | "INVERT_HW", [on] => do return .invertHw (← asFlag on)
  | "SCROLL_RIGHT", [s, e] => do return .scrollRight (← asByte s) (← asByte e)
  | "SCROLL_LEFT", [s, e] => do return .scrollLeft (← asByte s) (← asByte e)
  | "SCROLL_DIAG_RIGHT", [s, e] => do return .scrollDiagRight (← asByte s) (← asByte e)
  | "SCROLL_DIAG_LEFT", [s, e] => do return .scrollDiagLeft (← asByte s) (← asByte e)
  | "STOP_SCROLL", [] => some .stopScroll
  | "SET_PIXEL", [x, y] => do return Instr.setPixel (← asU 16 x) (← asU 16 y)
  | "CLEAR_PIXEL", [x, y] => do return Instr.clearPixel (← asU 16 x) (← asU 16 y)
  | "POWER_ON", [] => some Instr.powerOn
  | "POWER_OFF", [] => some Instr.powerOff
  | "INVERT_ON", [] => some Instr.invertOn
  | "INVERT_OFF", [] => some Instr.invertOff
  | _, _ => none

/-- Text put before the first of the pieces that follow it. -/
def putBefore (cs : List Char) : List (List Char) → List (List Char)
  | [] => [cs]
  | w :: ws => (cs ++ w) :: ws

/-- Text cut at commas that are not a quoted character. -/
def splitCommas : List Char → List (List Char)
  | [] => [[]]
  | '\'' :: c :: '\'' :: cs => putBefore ['\'', c, '\''] (splitCommas cs)
  | ',' :: cs => [] :: splitCommas cs
  | c :: cs => putBefore [c] (splitCommas cs)

/-- Text without spaces at its ends. -/
def trim (cs : List Char) : List Char :=
  ((cs.dropWhile (· = ' ')).reverse.dropWhile (· = ' ')).reverse

/-- A line `MNEMONIC operand, operand, ...` (R110). -/
def assembleLine (line : List Char) : Option Instr :=
  let m := (trim line).takeWhile (· ≠ ' ')
  let rest := trim ((trim line).dropWhile (· ≠ ' '))
  match (if rest = [] then some [] else (splitCommas rest).mapM fun o => readOperand (trim o)) with
  | some ops => assemble (String.ofList m) ops
  | none => none

/-- The operand registers a command's format reads (R102). -/
def formatArgs : Instr → List Reg
  | .nop => []
  | .fill _ => [.arg3]
  | .writePixel _ _ _ => [.arg0, .arg3]
  | .toggleInvert => []
  | .setCursor _ _ => [.arg0]
  | .drawLine _ _ _ _ _ => [.arg0, .arg1, .arg3]
  | .drawBitmap _ _ _ _ _ _ => [.arg0, .arg1, .arg2, .arg3]
  | .drawChar _ _ _ => [.arg3]
  | .drawString _ _ _ _ _ => [.arg0, .arg2, .arg3]
  | .drawNumber _ _ _ _ _ => [.arg0, .arg1, .arg3]
  | .drawSignedNumber _ _ _ _ _ => [.arg0, .arg1, .arg3]
  | .update => []
  | .clear => []
  | .init => []
  | .setPower _ => [.arg3]
  | .invertHw _ => [.arg3]
  | .scrollRight _ _ => [.arg0]
  | .scrollLeft _ _ => [.arg0]
  | .scrollDiagRight _ _ => [.arg0]
  | .scrollDiagLeft _ _ => [.arg0]
  | .stopScroll => []

/-- The word of an assembled command that goes to a register. -/
def wordFor (w : CommandWords) : Reg → Word
  | .cmd => w.opcode.setWidth 32
  | .arg0 => w.arg0
  | .arg1 => w.arg1
  | .arg2 => w.arg2
  | .arg3 => w.arg3
  | .status => 0
  | .result => 0
  | .cursor => 0

/-- The listing form of R111: `CMD` and then the operand registers the format reads, with their values. -/
def listing (i : Instr) : List (Reg × Word) := (Reg.cmd :: formatArgs i).map fun r => (r, wordFor (encode i) r)

end Sys2Proof.Machine
end

