-- ==== Sys2Proof/Tests/Slice0.lean ====
section
/-! SUPPORT. Tests of the model, and for every obligation with hypotheses a state and operands that meet them all. Expected
values come from spec/95_test_vectors.md (the vector's name stands in the comment) or from the rule a comment names. -/

namespace Sys2Proof.Tests

open Sys2Proof Sys2Proof.Machine

/-! ## Small states -/

/-- CFG-B of spec/95_test_vectors.md section 0: an 8 by 16 panel. Its register window sits at 0x40000000 here (R283). -/
def cfgB : Config :=
  { Config.cfgA with
    width := 8, height := 16, pageSel := [0xB0, 0xB1], scrolls := testScrolls 0x10,
    windowBase := 0x40000000 }

/-- CFG-B after reset: the bus is closed. -/
def coldB : State := State.resetWith cfgB

/-- "CFG-B READY". -/
def readyB : State := { coldB with ctrl := .ready }

/-- Source bytes from 0x1000 on. -/
def State.withSource (s : State) (bs : List Byte) : State := { s with src := bs.mapIdx fun i b => (0x1000 + i, b) }

/-- The state a command ends in. -/
def after : Outcome → Option State
  | .next t => some t
  | .fault _ => none
  | .refused _ => none

/-- What the vectors list of an end state: the bytes that are not 0x00, `CURSOR`, `RESULT` and `STATUS`. -/
def view (o : Outcome) : Option (Memory × Word × Word × Word) :=
  (after o).map fun t => (t.fb, cursorWord t, t.result, statusWord t)

/-- What the vectors list of a command that goes to the bus: `STATUS`, and the transactions, to the device 0x3C. -/
def sent (o : Outcome) : Option (Word × List BusTxn) := (after o).map fun t => (statusWord t, t.busLog)

/-- Command bytes to the device 0x3C. -/
def cmds (bs : List Byte) : List BusTxn := bs.map (.cmd 0x3C)

/-- The transfer of a CFG-B framebuffer whose two pages are the given bytes. -/
def pagesB (p q : List Byte) : List BusTxn :=
  cmds [0xB0, 0x00, 0x10] ++ [.data 0x3C p] ++ cmds [0xB1, 0x00, 0x10] ++ [.data 0x3C q]

/-- A page of zeros. -/
def zeros : List Byte := List.replicate 8 0

/-! ## Well-formedness: each check refuses a term that breaks it alone -/

theorem test_wf_refuses_unsigned_operands :
    ¬WellFormed (.writePixel 65536 0 .white) ∧ ¬WellFormed (.writePixel 0 65536 .white) ∧
    ¬WellFormed (.setCursor 65536 0) ∧ ¬WellFormed (.setCursor 0 65536) ∧
    ¬WellFormed (.drawBitmap 65536 0 0 0 0 .white) ∧ ¬WellFormed (.drawBitmap 0 65536 0 0 0 .white) ∧
    ¬WellFormed (.drawBitmap 0 0 4294967296 0 0 .white) ∧ ¬WellFormed (.drawBitmap 0 0 0 65536 0 .white) ∧
    ¬WellFormed (.drawBitmap 0 0 0 0 65536 .white) ∧ ¬WellFormed (.drawChar 0x41 256 .white) := by decide

theorem test_wf_refuses_signed_operands :
    ¬WellFormed (.drawLine 32768 0 0 0 .white) ∧ ¬WellFormed (.drawLine 0 (-32769) 0 0 .white) ∧
    ¬WellFormed (.drawLine 0 0 32768 0 .white) ∧ ¬WellFormed (.drawLine 0 0 0 (-32769) .white) := by decide

theorem test_wf_refuses_text_operands :
    ¬WellFormed (.drawString 65536 0 0 0 .white) ∧ ¬WellFormed (.drawString 0 65536 0 0 .white) ∧
    ¬WellFormed (.drawString 0 0 4294967296 0 .white) ∧ ¬WellFormed (.drawString 0 0 0 256 .white) ∧
    ¬WellFormed (.drawNumber 65536 0 0 0 .white) ∧ ¬WellFormed (.drawNumber 0 65536 0 0 .white) ∧
    ¬WellFormed (.drawNumber 0 0 4294967296 0 .white) ∧ ¬WellFormed (.drawNumber 0 0 0 256 .white) ∧
    ¬WellFormed (.drawSignedNumber 65536 0 0 0 .white) ∧ ¬WellFormed (.drawSignedNumber 0 65536 0 0 .white) ∧
    ¬WellFormed (.drawSignedNumber 0 0 2147483648 0 .white) ∧ ¬WellFormed (.drawSignedNumber 0 0 (-2147483649) 0 .white) ∧
    ¬WellFormed (.drawSignedNumber 0 0 0 256 .white) := by decide

/-- R11 and R12: each constraint on the configuration, broken alone. -/
theorem test_configWf_refuses :
    configWf cfgB = true ∧ configWf Config.cfgA = true ∧
    configWf { cfgB with width := 0 } = false ∧ configWf { cfgB with width := 32768, xferCap := 32768 } = false ∧
    configWf { cfgB with height := 0, pageSel := [] } = false ∧
    configWf { cfgB with height := 17 } = false ∧ configWf { cfgB with pageSel := [0xB0] } = false ∧
    configWf { cfgB with initScript := [0xAF, 0xAE] } = false ∧ configWf { cfgB with initScript := [] } = false ∧
    configWf { cfgB with probeTimeout := 0 } = false ∧ configWf { cfgB with xferCap := 7 } = false ∧
    configWf { cfgB with fonts := [] } = false ∧
    configWf { cfgB with scrolls := { cfgB.scrolls with activate := [] } } = false ∧
    configWf { cfgB with scrolls := { cfgB.scrolls with verticalArea := [] } } = false := by decide

/-- R11 and R12: the panel's greatest height, and the number of fonts. -/
theorem test_configWf_bounds :
    panelWf { cfgB with height := 32760 } = true ∧ panelWf { cfgB with height := 32768 } = false ∧
    panelWf { cfgB with width := 32767 } = true ∧
    fontsWf { cfgB with fonts := List.replicate 256 fontTF1 } = true ∧
    fontsWf { cfgB with fonts := List.replicate 257 fontTF1 } = false := by decide +kernel

/-- R13: each constraint on a font, broken alone. -/
theorem test_fontWf_refuses :
    fontWf { fontTF1 with count := 0, rows := [] } = false ∧ fontWf { fontTF1 with base := 255 } = false ∧
    fontWf { fontTF1 with base := 254 } = true ∧
    fontWf { fontTF1 with width := 0 } = false ∧ fontWf { fontTF1 with width := 17 } = false ∧
    fontWf { fontTF1 with width := 16 } = true ∧
    fontWf { fontTF1 with height := 0, rows := [] } = false ∧ fontWf { fontTF1 with rows := [0, 0, 0] } = false := by decide

/-! ## Decoding: words written out from R102 and R104, and the listings of spec/95_test_vectors.md section 2 -/

theorem test_decode_framebuffer_family :
    decode ⟨0x00, 0, 0, 0, 0⟩ = .ok .nop ∧
    decode ⟨0x01, 0, 0, 0, 0x00000001⟩ = .ok (.fill .white) ∧
    decode ⟨0x02, 0x000D0005, 0, 0, 0x00000001⟩ = .ok (.writePixel 5 13 .white) ∧
    decode ⟨0x03, 0, 0, 0, 0⟩ = .ok .toggleInvert ∧
    decode ⟨0x04, 0x000300C8, 0, 0, 0⟩ = .ok (.setCursor 200 3) := by decide

theorem test_decode_rasterizer_family :
    decode ⟨0x10, 0x0003FFFB, 0x000300C8, 0, 0x00000001⟩ = .ok (.drawLine (-5) 3 200 3 .white) ∧
    decode ⟨0x10, 0x7FFF8000, 0x80007FFF, 0, 0x00000000⟩ = .ok (.drawLine (-32768) 32767 32767 (-32768) .black) ∧
    decode ⟨0x11, 0x00020001, 0x0001000A, 0x00001000, 0x00000001⟩ = .ok (.drawBitmap 1 2 0x1000 10 1 .white) := by decide

theorem test_decode_text_family :
    decode ⟨0x20, 0, 0, 0, 0x00410101⟩ = .ok (.drawChar 0x41 1 .white) ∧
    decode ⟨0x21, 0x00010002, 0, 0x00001000, 0x00000100⟩ = .ok (.drawString 2 1 0x1000 1 .black) ∧
    decode ⟨0x22, 0, 0x00000131, 0, 0x00000001⟩ = .ok (.drawNumber 0 0 305 0 .white) ∧
    decode ⟨0x23, 0, 0xFFFFFFF9, 0, 0x00000001⟩ = .ok (.drawSignedNumber 0 0 (-7) 0 .white) ∧
    decode ⟨0x23, 0, 0x80000000, 0, 0x0000FF00⟩ = .ok (.drawSignedNumber 0 0 (-2147483648) 255 .black) := by decide

theorem test_decode_controller_family :
    decode ⟨0x30, 0, 0, 0, 0⟩ = .ok .update ∧ decode ⟨0x31, 0, 0, 0, 0⟩ = .ok .clear ∧
    decode ⟨0x40, 0, 0, 0, 0⟩ = .ok .init ∧ decode ⟨0x41, 0, 0, 0, 0⟩ = .ok (.setPower false) ∧
    decode ⟨0x42, 0, 0, 0, 0x00000001⟩ = .ok (.invertHw true) ∧
    decode ⟨0x43, 0x00070000, 0, 0, 0⟩ = .ok (.scrollRight 0 7) ∧
    decode ⟨0x44, 0x00010001, 0, 0, 0⟩ = .ok (.scrollLeft 1 1) ∧
    decode ⟨0x45, 0x00070000, 0, 0, 0⟩ = .ok (.scrollDiagRight 0 7) ∧
    decode ⟨0x46, 0x00050002, 0, 0, 0⟩ = .ok (.scrollDiagLeft 2 5) ∧
    decode ⟨0x47, 0, 0, 0, 0⟩ = .ok .stopScroll := by decide

/-- R107 and R109: the neighbours of assigned opcodes are illegal, and reserved operand bits are ignored (EN-5). -/
theorem test_decode_unassigned_and_reserved :
    decode ⟨0x05, 0, 0, 0, 0⟩ = .error (.illegalOpcode 0x05) ∧ decode ⟨0x12, 0, 0, 0, 0⟩ = .error (.illegalOpcode 0x12) ∧
    decode ⟨0x48, 0, 0, 0, 0⟩ = .error (.illegalOpcode 0x48) ∧ decode ⟨0xFF, 0, 0, 0, 0⟩ = .error (.illegalOpcode 0xFF) ∧
    decode ⟨0x20, 5, 6, 7, 0xFF4101FF⟩ = .ok (.drawChar 0x41 1 .white) ∧
    decode ⟨0x43, 0xAA07BB00, 0, 0, 0⟩ = .ok (.scrollRight 0 7) := by decide

/-- R111: an encoded command's words are those of the listings. -/
theorem test_encode_listings :
    encode (.drawLine (-5) 3 200 3 .white) = ⟨0x10, 0x0003FFFB, 0x000300C8, 0, 0x00000001⟩ ∧
    encode (.drawBitmap 0 0 0x1000 10 1 .white) = ⟨0x11, 0, 0x0001000A, 0x00001000, 0x00000001⟩ ∧
    encode (.drawChar 0x41 1 .white) = ⟨0x20, 0, 0, 0, 0x00410101⟩ ∧
    encode (.drawSignedNumber 0 0 (-7) 0 .white) = ⟨0x23, 0, 0xFFFFFFF9, 0, 0x00000001⟩ ∧
    encode (.scrollDiagLeft 2 5) = ⟨0x46, 0x00050002, 0, 0, 0⟩ := by decide

/-- R114: the pseudo-commands of spec/95_test_vectors.md section 2. -/
theorem test_pseudo_commands :
    encode (Instr.setPixel 3 4) = ⟨0x02, 0x00040003, 0, 0, 0x00000001⟩ ∧
    encode (Instr.clearPixel 3 4) = ⟨0x02, 0x00040003, 0, 0, 0x00000000⟩ ∧
    encode Instr.powerOn = ⟨0x41, 0, 0, 0, 0x00000001⟩ ∧ encode Instr.powerOff = ⟨0x41, 0, 0, 0, 0x00000000⟩ ∧
    encode Instr.invertOn = ⟨0x42, 0, 0, 0, 0x00000001⟩ ∧ encode Instr.invertOff = ⟨0x42, 0, 0, 0, 0x00000000⟩ := by decide

/-- A table word is the opcode byte, and where it is longer the operand words follow (log 15); bits from `nbits` up are 0. -/
theorem test_table_words :
    decodeTableWord 8 0x00 = some .nop ∧ decodeTableWord 8 0x47 = some .stopScroll ∧ decodeTableWord 8 0x05 = none ∧
    decodeTableWord 8 0x0504 = some (.setCursor 0 0) ∧
    decodeTableWord 40 0x000300C804 = some (.setCursor 200 3) ∧
    decodeTableWord 136 (0x00410101 * 2 ^ 104 + 0x20) = some (.drawChar 0x41 1 .white) := by decide

/-- R110: assembler lines. -/
theorem test_assembler_lines :
    assembleLine "DRAW_LINE -5, 3, 200, 0x3, WHITE".toList = some (.drawLine (-5) 3 200 3 .white) ∧
    assembleLine "DRAW_CHAR 'A', 1, BLACK".toList = some (.drawChar 0x41 1 .black) ∧
    assembleLine "DRAW_STRING 0, 0, 0x1000, 1".toList = some (.drawString 0 0 0x1000 1 .white) ∧
    assembleLine "SET_POWER OFF".toList = some (.setPower false) ∧ assembleLine "NOP".toList = some .nop ∧
    assembleLine "SET_CURSOR 65536, 0".toList = none ∧ assembleLine "FILL 2".toList = none := by decide +kernel

/-- R111: the listing form names the registers the format reads. -/
theorem test_listing_form :
    listing (.drawBitmap 0 0 0x1000 10 1 .white) =
      [(.cmd, 0x11), (.arg0, 0), (.arg1, 0x0001000A), (.arg2, 0x00001000), (.arg3, 1)] ∧
    listing (.scrollLeft 1 1) = [(.cmd, 0x44), (.arg0, 0x00010001)] ∧ listing .update = [(.cmd, 0x30)] := by decide

/-! ## Framebuffer and cursor commands -/

/-- EN-1. -/
theorem test_nop : view (exec .nop State.reset) = some ([], 0, 0, 0x00000001) := by decide

/-- FL-3, on CFG-B: `inv` is not consulted. -/
theorem test_fill_ignores_inv :
    (after (exec (.fill .white) { coldB with inv := true })).map (fun t => ((List.range 16).map t.fbByte, statusWord t)) =
      some (List.replicate 16 0xFF, 0x00000401) := by decide

/-- PX-1 and PX-2: the packing of R72. -/
theorem test_writePixel_packing :
    view (exec (.writePixel 5 13 .white) State.reset) = some ([(133, 0x20)], 0, 0, 0x00000001) ∧
    view (exec (.writePixel 127 63 .white) State.reset) = some ([(1023, 0x80)], 0, 0, 0x00000001) ∧
    view (exec (.writePixel 128 0 .white) State.reset) = some ([], 0, 0, 0x00000001) := by decide

/-- PX-7: the colour is flipped where `inv` is set. -/
theorem test_writePixel_inverted :
    view (exec (.writePixel 0 0 .white) { State.reset with fb := [(0, 0xFF)], inv := true }) =
      some ([(0, 0xFE)], 0, 0, 0x00000401) := by decide

/-- TI-1, on CFG-B. -/
theorem test_toggleInvert :
    (after (exec .toggleInvert { coldB with fb := [(0, 0x0F)] })).map
        (fun t => ((List.range 16).map t.fbByte, statusWord t)) =
      some (0xF0 :: List.replicate 15 0xFF, 0x00000401) := by decide

/-- SC-1: an off-panel cursor is stored. -/
theorem test_setCursor : view (exec (.setCursor 200 3) State.reset) = some ([], 0x000300C8, 0, 0x00000001) := by decide

/-! ## Rasterizer -/

/-- LN-5: a steep line. -/
theorem test_drawLine_steep :
    view (exec (.drawLine 0 0 3 10 .white) State.reset) =
      some ([(0, 0x03), (1, 0x3C), (2, 0xC0), (130, 0x01), (131, 0x06)], 0, 0, 0x00000001) := by decide +kernel

/-- LN-17: the flush comes after the pixels. -/
theorem test_drawLine_flush :
    sent (exec (.drawLine 0 0 7 15 .white) readyB) =
      some (0x00003201,
        pagesB [0x03, 0x0C, 0x30, 0xC0, 0, 0, 0, 0] [0, 0, 0, 0, 0x03, 0x0C, 0x30, 0xC0]) := by decide +kernel

/-- BM-1: the second byte of a ten-column row. -/
theorem test_drawBitmap_rows :
    view (exec (.drawBitmap 0 0 0x1000 10 1 .white) (State.withSource State.reset [0xC0, 0x40])) =
      some ([(0, 0x01), (1, 0x01), (9, 0x01)], 0, 0, 0x00000001) := by decide

/-- BM-9: the first row stays drawn, the fault is marked, the status is not written. -/
theorem test_drawBitmap_fault :
    let r := runDrawBitmap 0 0 0x1000 8 2 .white (State.withSource State.reset [0xFF])
    r.ending = .faulted .srcUnmapped ∧ r.final.fb = (List.range 8).map (fun i => (i, 0x01)) ∧
      r.final.fault = some .srcUnmapped ∧ r.final.ok = false ∧ r.final.err = .none := by decide

/-! ## Text -/

/-- CH-1 and CH-6. -/
theorem test_drawChar :
    view (exec (.drawChar 0x41 1 .white) State.reset) =
      some ([(0, 0x01), (1, 0x02), (2, 0x03)], 0x00000004, 0x41, 0x00000001) ∧
    view (exec (.drawChar 0x43 1 .white) State.reset) = some ([], 0, 0x43, 0x00000004) := by decide

/-- CH-3: a character at x = 125 does not fit; CH-7: the fit is checked before the glyph range; CH-8: no such font. -/
theorem test_drawChar_errors :
    view (exec (.drawChar 0x41 1 .white) { State.reset with cx := 125 }) = some ([], 125, 0x41, 0x00000002) ∧
    view (exec (.drawChar 0x43 1 .white) { State.reset with cx := 126 }) = some ([], 126, 0x43, 0x00000002) ∧
    view (exec (.drawChar 0x41 2 .white) { State.reset with cx := 3, result := 0x41 }) =
      some ([], 3, 0x41, 0x00000006) := by decide

/-- ST-6: a string that ends is flushed. -/
theorem test_drawString_flush :
    let o := exec (.drawString 0 0 0x1000 1 .white) (State.withSource readyB [0x41, 0x00])
    view o = some ([(0, 0x01), (1, 0x02), (2, 0x03)], 0x00000004, 0, 0x00003201) ∧
      sent o = some (0x00003201, pagesB [0x01, 0x02, 0x03, 0, 0, 0, 0, 0] zeros) := by decide +kernel

/-- ST-7: the third character overflows; nothing is flushed. -/
theorem test_drawString_overflow :
    let o := exec (.drawString 0 0 0x1000 1 .white) (State.withSource readyB [0x41, 0x41, 0x41, 0x00])
    view o =
        some ([(0, 0x01), (1, 0x02), (2, 0x03), (4, 0x01), (5, 0x02), (6, 0x03)], 0x00000008, 0x41, 0x00003202) ∧
      sent o = some (0x00003202, []) := by decide +kernel

/-- NU-1. -/
theorem test_drawNumber :
    view (exec (.drawNumber 0 0 305 0 .white) State.reset) =
      some ([(0, 0x02), (3, 0x03), (4, 0x03)], 0x00000006, 0, 0x00000001) := by decide +kernel

/-- NU-4 and NU-5. -/
theorem test_drawSignedNumber :
    view (exec (.drawSignedNumber 0 0 (-7) 0 .white) State.reset) =
      some ([(0, 0x01), (2, 0x02), (3, 0x02)], 0x00000004, 0, 0x00000001) ∧
    view (exec (.drawSignedNumber 0 0 0 0 .white) State.reset) =
      some ([(3, 0x03)], 0x00000004, 0, 0x00000001) := by decide +kernel

/-! ## Page transfer and controller -/

/-- UP-1 and UP-2. -/
theorem test_update :
    sent (exec .update coldB) = some (0x00000008, []) ∧
    sent (exec .update { readyB with fb := [(0, 0x01), (7, 0x80), (8, 0xFF)] }) =
      some (0x00003201, pagesB [0x01, 0, 0, 0, 0, 0, 0, 0x80] [0xFF, 0, 0, 0, 0, 0, 0, 0]) := by decide

/-- CL-1 and CL-2: the clear happens on a closed bus too. -/
theorem test_clear :
    sent (exec .clear { readyB with fb := [(3, 0x55)] }) = some (0x00003201, pagesB zeros zeros) ∧
    view (exec .clear { coldB with fb := [(3, 0x55)] }) = some ([], 0, 0, 0x00000008) := by decide

/-- IN-1. -/
theorem test_init_ready :
    sent (exec .init { coldB with probeIn := [.ready] }) =
      some (0x00003201,
        .probe 0x3C .ready :: cmds [0xAE, 0x20, 0x10, 0x8D, 0x14, 0xAF] ++ pagesB zeros zeros) := by decide

/-- IN-2: the framebuffer and the cursor stay. -/
theorem test_init_notReady :
    let o := exec .init { coldB with fb := [(0, 0x77)], cx := 2, probeIn := [.notReady] }
    view o = some ([(0, 0x77)], 2, 0, 0x0000200A) ∧ sent o = some (0x0000200A, [.probe 0x3C .notReady]) := by decide

/-- PW-1 and PW-3. -/
theorem test_setPower :
    sent (exec (.setPower false) readyB) = some (0x00003201, cmds [0x8D, 0x10, 0xAE]) ∧
    sent (exec (.setPower true) coldB) = some (0x00000008, []) := by decide

/-- HI-1 and HI-2. -/
theorem test_invertHw :
    sent (exec (.invertHw true) readyB) = some (0x00003201, cmds [0xA7]) ∧
    sent (exec (.invertHw false) readyB) = some (0x00003201, cmds [0xA6]) := by decide

/-- SR-1. -/
theorem test_scrollRight :
    sent (exec (.scrollRight 0 1) readyB) =
      some (0x00003201, cmds [0x26, 0x00, 0x00, 0x00, 0x01, 0x00, 0xFF, 0x2F]) := by decide

/-- SR-2 and SR-6. -/
theorem test_scrollLeft :
    sent (exec (.scrollLeft 1 1) readyB) =
      some (0x00003201, cmds [0x27, 0x00, 0x01, 0x00, 0x01, 0x00, 0xFF, 0x2F]) ∧
    sent (exec (.scrollLeft 0 1) coldB) = some (0x00000008, []) := by decide

/-- SR-3. -/
theorem test_scrollDiagRight :
    sent (exec (.scrollDiagRight 0 1) readyB) =
      some (0x00003201, cmds [0xA3, 0x00, 0x10, 0x29, 0x00, 0x00, 0x00, 0x01, 0x01, 0x2F]) := by decide

/-- SR-4. -/
theorem test_scrollDiagLeft :
    sent (exec (.scrollDiagLeft 0 1) readyB) =
      some (0x00003201, cmds [0xA3, 0x00, 0x10, 0x2A, 0x00, 0x00, 0x00, 0x01, 0x01, 0x2F]) := by decide

/-- SS-1 and SS-2: an ungated bus is open before INIT. -/
theorem test_stopScroll :
    sent (exec .stopScroll readyB) = some (0x00003201, cmds [0x2E]) ∧
    sent (exec .stopScroll (State.resetWith { cfgB with busGate := .ungated })) =
      some (0x00000001, cmds [0x2E]) := by decide

/-! ## The host's accesses -/

/-- EN-6: only the low byte of a `CMD` write counts. EN-2: an illegal opcode, seen in `CMD`. -/
theorem test_step_command :
    (after (step { coldB with arg3 := 1, host := [.write 0x40000000 .word 0x101] })).map
        (fun t => ((List.range 16).map t.fbByte, statusWord t, t.cmd, t.host)) =
      some (List.replicate 16 0xFF, 0x00000001, 0x01, []) ∧
    (after (step { coldB with host := [.write 0x40000000 .word 0x05] })).map (fun t => (t.fb, statusWord t, t.cmd)) =
      some ([], 0x0000000C, 0x05) := by decide

/-- Five writes, one a step, run an assembled command (R111). -/
theorem test_program_runs :
    (after (Host.Core.run core 5 (State.reset.withProgram [.setCursor 200 3]))).map cursorWord = some 0x000300C8 := by
  decide

/-- Reads and writes of the window (R41, R46, R48, R49), and shapes that break the protocol (R292). -/
theorem test_serve_window :
    (after (serve (.read 0x4000001C .word) { coldB with cx := 4, cy := 3 })).map (·.rdata) = some 0x00030004 ∧
    (after (serve (.read 0x5000000F .byte) { coldB with fb := [(15, 0xAB)] })).map (·.rdata) = some 0xAB ∧
    (after (serve (.read 0x40000020 .word) { coldB with rdata := 7 })).map (·.rdata) = some 0 ∧
    after (serve (.write 0x40000014 .word 0xFFFFFFFF) coldB) = some coldB ∧
    after (serve (.write 0x50000000 .byte 0xFF) coldB) = some coldB ∧
    after (serve (.write 0x40000006 .half 1) coldB) = none := by decide

/-- R88, R283: a write of `CMD`'s offset from another base than the window's does not reach the engine; a read below the
window uses up one free value. -/
theorem test_serve_outside_window :
    after (serve (.write 0x00 .word 0x05) coldB) = some coldB ∧
    (after (serve (.read 0x3FFFFFFC .word) coldB)).map (fun t => (t.draws, { t with rdata := 0, draws := 0 })) =
      some (1, coldB) ∧
    after (serve (.read 0x3FFFFFFE .word) coldB) = none := by decide

/-- The word of a row, run as the first command after reset. -/
theorem test_withFetchWord :
    (after (step (State.reset.withFetchWord 40 0x000D000504))).map (fun t => (cursorWord t, t.cmd, t.host)) =
      some (0x000D0005, 0x04, []) := by decide

/-- The canonical form: writing what an unlisted byte reads as removes the entry. -/
theorem test_memory_canonical :
    Memory.write (fbSpace cfgB) [(3, 0x01), (7, 0x02)] 3 0x00 = [(7, 0x02)] ∧
    Memory.write (fbSpace cfgB) [(3, 0x01), (7, 0x02)] 5 0x09 = [(3, 0x01), (5, 0x09), (7, 0x02)] ∧
    Memory.wf (fbSpace cfgB) [(3, 0x01), (3, 0x02)] = false ∧ Memory.wf (fbSpace cfgB) [(3, 0x00)] = false ∧
    Memory.wf (fbSpace cfgB) [(16, 0x01)] = false ∧ Memory.wf srcSpace [(16, 0x00)] = true := by decide

/-! ## Witnesses: for every obligation with hypotheses, inputs that meet them together, at the edges of their ranges -/

/-- `coldB` and `readyB` meet the invariant and so `StateWf`; the bus is closed in one and open in the other; an ungated bus
is open in UNINIT. (ResetMeetsInvariant, StepKeepsInv, ToggleInvertTwiceRestores, UpdateSendsEveryPage, ClearClears...,
ScrollListsEndWithActivate.) -/
theorem witness_states :
    Inv State.reset ∧ Inv coldB ∧ Inv readyB ∧ StateWf coldB ∧ configWf cfgB = true ∧ ¬BusIsOpen coldB ∧ BusIsOpen readyB ∧
      BusIsOpen (State.resetWith { cfgB with busGate := .ungated }) := by decide

/-- StepKeepsInv, BusLogOnlyGrows: a step that answers a next state. -/
theorem witness_step :
    Inv { coldB with host := [hostWrite cfgB .cmd 0x03] } ∧ ∃ t, step { coldB with host := [hostWrite cfgB .cmd 0x03] } = .next t :=
  ⟨by decide, _, rfl⟩

/-- DecodeInvertsEncode, AssembledCommandRuns: operands at the ends of their fields. -/
theorem witness_wellFormed :
    WellFormed (.setCursor 65535 0) ∧ WellFormed (.drawLine (-32768) 32767 32767 (-32768) .white) ∧
    WellFormed (.drawBitmap 65535 65535 4294967295 65535 65535 .white) ∧ WellFormed (.drawChar 0xFF 255 .black) ∧
    WellFormed (.drawString 65535 65535 4294967295 255 .white) ∧
    WellFormed (.drawNumber 65535 65535 4294967295 255 .white) ∧
    WellFormed (.drawSignedNumber 65535 65535 (-2147483648) 255 .white) ∧
    WellFormed (.drawSignedNumber 0 0 2147483647 0 .white) := by decide

/-- IllegalOpcodesRaiseIllegalCommand: both ends of each range of R107, and the assigned opcodes beside them. -/
theorem witness_unassigned :
    [0x05, 0x0F, 0x12, 0x1F, 0x24, 0x2F, 0x32, 0x3F, 0x48, 0xFF].all unassignedOpcode = true ∧
    [0x00, 0x04, 0x10, 0x11, 0x20, 0x23, 0x30, 0x31, 0x40, 0x47].all (fun o => !unassignedOpcode o) = true := by decide

/-- DecodedOperandsFitTheirFields; UnreadBitsAreIgnored, on two words that differ. -/
theorem witness_decode :
    (∃ i, decode ⟨0x11, 0xFFFFFFFF, 0xFFFFFFFF, 0xFFFFFFFF, 0xFFFFFFFF⟩ = .ok i) ∧
    let w : CommandWords := ⟨0x20, 1, 2, 3, 0xFF410101⟩
    let w' : CommandWords := ⟨0x20, 0, 0, 0, 0x00410101⟩
    w ≠ w' ∧ w.opcode = w'.opcode ∧ w.arg0 &&& (readMask w.opcode).arg0 = w'.arg0 &&& (readMask w.opcode).arg0 ∧
      w.arg1 &&& (readMask w.opcode).arg1 = w'.arg1 &&& (readMask w.opcode).arg1 ∧
      w.arg2 &&& (readMask w.opcode).arg2 = w'.arg2 &&& (readMask w.opcode).arg2 ∧
      w.arg3 &&& (readMask w.opcode).arg3 = w'.arg3 &&& (readMask w.opcode).arg3 :=
  ⟨⟨_, rfl⟩, by decide⟩

/-- CommandWriteRunsTheDecodedCommand, both clauses. -/
theorem witness_command_write :
    let s (data : Word) : State := { coldB with host := [.write (cfgB.windowBase + 0x00) .word data] }
    configWf (s 0x03).cfg = true ∧ (s 0x03).fault = none ∧ (s 0x03).busy = false ∧
      (s 0x03).host = [.write ((s 0x03).cfg.windowBase + 0x00) .word 0x03] ∧
      decode ⟨BitVec.setWidth 8 0x03#32, (s 3).arg0, (s 3).arg1, (s 3).arg2, (s 3).arg3⟩ = .ok .toggleInvert ∧
      decode ⟨BitVec.setWidth 8 0x48#32, (s 0x48).arg0, (s 0x48).arg1, (s 0x48).arg2, (s 0x48).arg3⟩ =
        .error (.illegalOpcode 0x48) := by decide

/-- FetchWordRunsItsInstruction: a row's word on the state after reset. -/
theorem witness_fetch_word :
    configWf State.reset.cfg = true ∧ State.reset.fault = none ∧ decodeTableWord 8 0x23 =
      some (.drawSignedNumber 0 0 0 0 .black) := by decide

/-- AssembledCommandRuns, ProgramsWithoutSourceReadsRunCleanly. -/
theorem witness_programs :
    (let s : State := { coldB with host := registerWrites cfgB (.setCursor 65535 0) ++ [hostWrite cfgB .cmd 0] }
     configWf s.cfg = true ∧ s.fault = none ∧ s.busy = false ∧
       s.host = registerWrites cfgB (.setCursor 65535 0) ++ [hostWrite cfgB .cmd 0]) ∧
    Inv coldB ∧ coldB.host = [] ∧
      ∀ i ∈ [Instr.init, .drawLine (-32768) 0 7 15 .white, .drawChar 0x41 1 .white, .update],
        WellFormed i ∧ (encode i).opcode ≠ 0x11 ∧ (encode i).opcode ≠ 0x21 := by decide

/-- OperandRegistersHoldWhatTheHostWrote, HostReadsReturnRegisters: no command runs; the window's two ends. -/
theorem witness_host_access :
    coldB.busy = false ∧ configWf coldB.cfg = true ∧ 0 < coldB.cfg.size ∧ 15 < coldB.cfg.size ∧ ¬16 < coldB.cfg.size ∧
      ∃ t, exec .nop coldB = .next t := ⟨by decide, by decide, by decide, by decide, by decide, _, rfl⟩

/-- ReadOnlyOffsetsIgnoreWrites: unassigned offsets at the edges, below and above the framebuffer window. -/
theorem witness_unassigned_offsets :
    let unassigned (offset : Nat) (width : AccessWidth) : Prop :=
      0x20 ≤ offset ∧ offset + AccessWidth.bytes width ≤ 2 ^ 32 ∧
        (offset + AccessWidth.bytes width ≤ 0x10000000 ∨ 0x10000000 + coldB.cfg.size ≤ offset)
    unassigned 0x20 .dword ∧ unassigned 0x0FFFFFFF .byte ∧ unassigned 0x10000010 .word ∧ unassigned 0xFFFFFFFC .word ∧
      ¬unassigned 0x1000000F .byte ∧ ¬unassigned 0xFFFFFFFD .word := by decide

/-- MisshapenAccessesFault: both clauses, at the edges. -/
theorem witness_misshapen :
    let bad (offset : Nat) (width : AccessWidth) : Prop :=
      (offset < 0x20 ∧ ¬(width = .word ∧ offset % 4 = 0)) ∨
        (0x10000000 ≤ offset ∧ offset < 0x10000000 + coldB.cfg.size ∧ width ≠ .byte)
    configWf coldB.cfg = true ∧ bad 0x00 .byte ∧ bad 0x02 .word ∧ bad 0x1F .byte ∧ bad 0x10000000 .word ∧
      bad 0x1000000F .half ∧ ¬bad 0x1C .word ∧ ¬bad 0x1000000F .byte := by decide

/-- AccessesOutsideTheWindowMissTheEngine: the last byte below the window, the first one above it, an access across each
edge. -/
theorem witness_outside_window :
    let outside (address : Nat) (width : AccessWidth) : Prop :=
      address + AccessWidth.bytes width ≤ coldB.cfg.windowBase ∨
        coldB.cfg.windowBase + 2 ^ 32 < address + AccessWidth.bytes width
    outside 0x3FFFFFFF .byte ∧ outside 0x140000000 .byte ∧ outside 0x13FFFFFFE .word ∧ ¬outside 0x40000000 .byte ∧
      ¬outside 0x13FFFFFFC .word ∧ ¬outside 0x3FFFFFFD .word ∧ 0x3FFFFFFD < coldB.cfg.windowBase ∧
      coldB.cfg.windowBase < 0x3FFFFFFD + AccessWidth.bytes .word := by decide

/-- BusyEngineRejectsHostWrites; IllFormedConfigurationIsRefused. -/
theorem witness_busy_and_ill_formed :
    { coldB with busy := true }.busy = true ∧ (State.resetWith { cfgB with xferCap := 7 }).fault = none ∧
      configWf (State.resetWith { cfgB with xferCap := 7 }).cfg = false := by decide

/-- WritePixel...: pixels at the panel's corner and just off it, a byte that holds none, a pixel beside the one written. -/
theorem witness_pixels :
    StateWf coldB ∧ OnPanel coldB 7 15 ∧ ¬OnPanel coldB 8 0 ∧ ¬OnPanel coldB 0 16 ∧
      (OnPanel coldB 7 15 → 14 ≠ 7 + 15 / 8 * coldB.cfg.width) ∧ OnPanel coldB 7 14 ∧ (7 ≠ 7 ∨ 14 ≠ 15) := by decide

/-- PixelViewSurvivesToggles; SetCursorStoresWithoutCheck: a cursor just off the panel. -/
theorem witness_toggles_and_cursor :
    (∀ i ∈ [Instr.toggleInvert, .writePixel 7 15 .white, .toggleInvert], isPixelCommand i = true) ∧ StateWf coldB ∧
      OnPanel coldB 7 15 ∧ 8 < 65536 ∧ 0 < 65536 ∧ ¬OnPanel coldB 8 0 ∧ 1 < coldB.cfg.fonts.length := by decide

/-- DrawLine...: a byte with no point of the line; a panel 128 wide; both examples of R156 fit CFG-A, and the first also
the narrow CFG-B; a sloped line. -/
theorem witness_lines :
    StateWf coldB ∧ (∀ p ∈ clampedLine cfgB 0 0 7 15, 4 ≠ pixelIndex cfgB p.1.toNat p.2.toNat) ∧
      configWf Config.cfgA = true ∧ Config.cfgA.width = 128 ∧ 11 ≤ State.reset.cfg.height ∧ 11 ≤ State.reset.cfg.width ∧
      11 ≤ coldB.cfg.height ∧ StateWf State.reset ∧ (0 : Int) ≠ 2 ∧ (0 : Int) ≠ 1 := by decide +kernel

/-- DrawBitmapDrawsTheSetBits: ten columns of one row, all admitted, with a byte that holds no set pixel. -/
theorem witness_bitmap_readable :
    StateWf (State.withSource State.reset [0xC0, 0x40]) ∧
      BitmapReadable (State.withSource State.reset [0xC0, 0x40]) 0x1000 10 1 := by
  refine ⟨by decide, fun j k hj hk => ?_⟩
  interval_cases j
  interval_cases k <;> decide

/-- DrawBitmapFaultsOffMemory: the second row is not admitted. -/
theorem witness_bitmap_unreadable : ¬BitmapReadable (State.withSource coldB [0xFF]) 0x1000 8 2 :=
  fun h => h 1 0 (by decide) (by decide) (by decide)

/-- DrawChar...: 'A' in the panel's last cell; one column further it does not fit; a code just outside the font fits. -/
theorem witness_chars :
    let s : State := { coldB with cx := 4, cy := 14 }
    StateWf s ∧ s.cfg.fonts[1]? = some fontTF1 ∧ s.cx.toNat + fontTF1.width ≤ s.cfg.width ∧
      s.cy.toNat + fontTF1.height ≤ s.cfg.height ∧ fontTF1.base ≤ (0x42#8).toNat ∧
      (0x42#8).toNat < fontTF1.base + fontTF1.count ∧
      fontTF1.base + fontTF1.count ≤ (0x43#8).toNat ∧ (0x40#8).toNat < fontTF1.base ∧
      s.cfg.width < (5#16).toNat + fontTF1.width ∧ s.cfg.height < (15#16).toNat + fontTF1.height := by decide

/-- BadFontHasNoOtherEffect. -/
theorem witness_bad_font :
    fontOf (.drawChar 0x41 2 .white) = some 2 ∧ fontOf (.drawString 0 0 0 2 .white) = some 2 ∧
      fontOf (.drawNumber 0 0 0 255 .white) = some 255 ∧ fontOf (.drawSignedNumber 0 0 0 2 .white) = some 2 ∧
      coldB.cfg.fonts.length ≤ 2 := by decide

/-- The hypotheses of the statements on text up to the characters that are drawn. -/
def TextFits (i : Instr) (s : State) (job : TextJob) (f : Font) (cs : List Byte) : Prop :=
  WellFormed i ∧ StateWf s ∧ s.cfg.fonts[job.font]? = some f ∧ (∀ k < cs.length, job.next k = cs[k]? ∧ cs[k]? ≠ some 0) ∧
    (cs ≠ [] → job.x + cs.length * f.width ≤ s.cfg.width ∧ job.y + f.height ≤ s.cfg.height) ∧
    (∀ ch ∈ cs, f.base ≤ ch.toNat ∧ ch.toNat < f.base + f.count)

/-- TextDrawsItsCharacters, DRAW_STRING: two characters that fill the row; the empty string, off the panel. -/
theorem witness_text_string :
    (let s := State.withSource readyB [0x41, 0x42, 0x00]
     ∃ job, textJob s (.drawString 0 14 0x1000 1 .white) = some job ∧
       TextFits (.drawString 0 14 0x1000 1 .white) s job fontTF1 [0x41, 0x42] ∧ job.next 2 = some 0) ∧
    (let s := State.withSource readyB [0x00]
     ∃ job, textJob s (.drawString 65535 65535 0x1000 1 .white) = some job ∧
       TextFits (.drawString 65535 65535 0x1000 1 .white) s job fontTF1 [] ∧ job.next 0 = some 0) :=
  ⟨⟨_, rfl, by unfold TextFits; decide, by decide⟩, ⟨_, rfl, by unfold TextFits; decide, by decide⟩⟩

/-- TextDrawsItsCharacters, DRAW_NUMBER and DRAW_SIGNED_NUMBER. -/
theorem witness_text_number :
    (∃ job, textJob coldB (.drawNumber 4 0 42 0 .white) = some job ∧
       TextFits (.drawNumber 4 0 42 0 .white) coldB job fontTF0 [0x34, 0x32] ∧ job.next 2 = some 0) ∧
    (∃ job, textJob coldB (.drawSignedNumber 0 0 (-7) 0 .black) = some job ∧
       TextFits (.drawSignedNumber 0 0 (-7) 0 .black) coldB job fontTF0 [0x2D, 0x37] ∧ job.next 2 = some 0) :=
  ⟨⟨_, rfl, by unfold TextFits; decide, by decide⟩, ⟨_, rfl, by unfold TextFits; decide, by decide⟩⟩

/-- TextStopsAtTheFirstFailure: each way a character fails, on each kind of command. -/
theorem witness_text_failure :
    (let s := State.withSource readyB [0x41, 0x41, 0x41, 0x00]
     ∃ job, textJob s (.drawString 0 0 0x1000 1 .white) = some job ∧
       TextFits (.drawString 0 0 0x1000 1 .white) s job fontTF1 [0x41, 0x41] ∧ job.next 2 = some 0x41 ∧
       s.cfg.width < job.x + 3 * fontTF1.width) ∧
    (∃ job, textJob coldB (.drawNumber 0 15 42 0 .white) = some job ∧
       TextFits (.drawNumber 0 15 42 0 .white) coldB job fontTF0 [] ∧ job.next 0 = some 0x34 ∧
       coldB.cfg.height < job.y + fontTF0.height) ∧
    (∃ job, textJob coldB (.drawSignedNumber 0 0 5 1 .white) = some job ∧
       TextFits (.drawSignedNumber 0 0 5 1 .white) coldB job fontTF1 [] ∧ job.next 0 = some 0x2B ∧
       (0x2B#8).toNat < fontTF1.base) :=
  ⟨⟨_, rfl, by unfold TextFits; decide, by decide⟩, ⟨_, rfl, by unfold TextFits; decide, by decide⟩,
    ⟨_, rfl, by unfold TextFits; decide, by decide⟩⟩

/-- TooWideStringReportsFirstOverflow: "AAA" is one character too wide for CFG-B; at y = 15 it is too low; "ACA" has a
character without a glyph before the overflow. -/
theorem witness_too_wide :
    (let s := State.withSource readyB [0x41, 0x41, 0x41]
     WellFormed (.drawString 0 0 0x1000 1 .white) ∧ StateWf s ∧ s.cfg.fonts[1]? = some fontTF1 ∧
       (∀ k < 3, s.memRead (0x1000 + k) = [0x41#8, 0x41, 0x41][k]? ∧ [0x41#8, 0x41, 0x41][k]? ≠ some 0) ∧
       (∀ d ∈ [0x41#8, 0x41, 0x41], fontTF1.base ≤ d.toNat ∧ d.toNat < fontTF1.base + fontTF1.count) ∧
       14 + fontTF1.height ≤ s.cfg.height ∧ s.cfg.height < 15 + fontTF1.height ∧ s.cfg.width < 0 + fontTF1.width * 3) ∧
    (let s := State.withSource readyB [0x41, 0x43, 0x41]
     StateWf s ∧ (∀ k < 3, s.memRead (0x1000 + k) = [0x41#8, 0x43, 0x41][k]? ∧ [0x41#8, 0x43, 0x41][k]? ≠ some 0) ∧
       0 + fontTF1.width * 2 ≤ s.cfg.width ∧ fontTF1.base + fontTF1.count ≤ (0x43#8).toNat) := by decide

/-- DrawStringFaultsOffMemory: one character and no terminator. -/
theorem witness_string_off_memory :
    let s := State.withSource coldB [0x41]
    WellFormed (.drawString 4 14 0x1000 1 .white) ∧ StateWf s ∧ s.cfg.fonts[1]? = some fontTF1 ∧
      s.memRead 0x1000 = some 0x41 ∧ s.memRead 0x1001 = none ∧ 4 + 1 * fontTF1.width ≤ s.cfg.width ∧
      14 + fontTF1.height ≤ s.cfg.height := by decide

/-- NumberTextFitsItsBuffer: the longest texts (NU-3, NU-6). -/
theorem witness_number_text :
    (4294967295 : Nat) < 2 ^ 32 ∧ numberText 4294967295 = [0x34, 0x32, 0x39, 0x34, 0x39, 0x36, 0x37, 0x32, 0x39, 0x35, 0] ∧
      (-2 ^ 31 : Int) ≤ -2147483648 ∧ (2147483647 : Int) < 2 ^ 31 := by decide +kernel

/-- UpdateSendsEveryPage: the last page and its page-select byte. InitFollowsTheProbe: both answers. -/
theorem witness_pages_and_probe :
    1 < readyB.cfg.pages ∧ readyB.cfg.pageSel[1]? = some 0xB1 ∧ State.nextProbe { coldB with probeIn := [.ready] } = .ready ∧
      State.nextProbe { coldB with probeIn := [.notReady] } = .notReady := by decide

/-- OnlyInitUsesProbeAnswers, OnlyInitChangesCtrl, BusStaysSilentWhileClosed, OnlyTransfersSendPixels, EachFieldHasItsWriters,
DrawingIgnoresControllerState: commands that end, INIT among them, with the bus closed. -/
theorem witness_commands_end :
    ¬BusIsOpen coldB ∧ (∃ t, exec .init coldB = .next t) ∧ (∃ t, exec .update coldB = .next t) ∧
      (∃ t, exec .clear readyB = .next t) ∧ (∃ t, exec (.writePixel 7 15 .white) coldB = .next t) ∧
      (encode (.writePixel 7 15 .white)).opcode.toNat < 0x30 ∧ Instr.update ≠ .init ∧
      (mayMoveCursor .update = false ∧ isText .update = false ∧ mayWriteBytes .update = false) ∧
      controllerBytes coldB.cfg .nop = none ∧ mayTransfer .nop = false :=
  ⟨by decide, ⟨_, rfl⟩, ⟨_, rfl⟩, ⟨_, rfl⟩, ⟨_, rfl⟩, by decide, by decide, by decide, by decide, by decide⟩

/-- ControllerCommandsSendTheirLists: each command has its list. -/
theorem witness_controller_lists :
    controllerBytes cfgB (.setPower true) = some [0x8D, 0x14, 0xAF] ∧ controllerBytes cfgB (.setPower false) =
      some [0x8D, 0x10, 0xAE] ∧
    controllerBytes cfgB (.invertHw true) = some [0xA7] ∧ controllerBytes cfgB .stopScroll = some [0x2E] ∧
    [Instr.scrollRight 7 0, .scrollLeft 255 0, .scrollDiagRight 0 1, .scrollDiagLeft 0 1].all
      (fun i => (controllerBytes cfgB i).isSome) = true := by decide

/-- EveryCommandWritesItsStatus: a command that ends, and one that faults. -/
theorem witness_status :
    (∃ t, runCommand 0x03 coldB = .next t) ∧
      decode ⟨0x03, coldB.arg0, coldB.arg1, coldB.arg2, coldB.arg3⟩ = .ok .toggleInvert ∧
      (runDrawBitmap 0 0 0x1000 8 2 .white (State.withSource coldB [0xFF])).ending = .faulted .srcUnmapped :=
  ⟨⟨_, rfl⟩, by decide, by decide⟩

end Sys2Proof.Tests
end

/-! Proofs of family 10_state: the reset values (spec/10_state.md R60), the operand registers (R42) and `BUSLOG` (R52).
What a command that ends can have done is said once (`exec_next_cases`), and its frame and its bus traffic are read off. -/

namespace Sys2Proof.Machine

open Sys2Proof

/-! ## What a command that ends has done -/

/-- `CommandEnds s i u e`: started in `s`, the command `i` ends with the status `e` after the effects that lead to `u`, the
status itself not yet written (R105, R106). One constructor for each way to end. -/
inductive CommandEnds (s : State) : Instr → State → ErrCode → Prop
  | nop : CommandEnds s .nop s .none
  | fill (c : Color) : CommandEnds s (.fill c) (s.fill c) .none
  | writePixel (x y : Nat) (c : Color) : CommandEnds s (.writePixel x y c) (s.draw [⟨x, y, c⟩]) .none
  | toggleInvert : CommandEnds s .toggleInvert s.toggle .none
  | setCursor (x y : Nat) : CommandEnds s (.setCursor x y) (s.cursorAt x y) .none
  | drawLine (x0 y0 x1 y1 : Int) (c : Color) :
    CommandEnds s (.drawLine x0 y0 x1 y1 c) (s.draw (inColor c (clampedLine s.cfg x0 y0 x1 y1))).autoFlush .none
  | drawBitmap (x y src w h : Nat) (c : Color) (mapped : (blitRows s.src src w x y h 0).unmapped = false) :
    CommandEnds s (.drawBitmap x y src w h c) (s.draw (inColor c (blitRows s.src src w x y h 0).points)) .none
  | update (hopen : busOpen s = true) : CommandEnds s .update s.transfer .none
  | updateClosed (hclosed : busOpen s = false) : CommandEnds s .update s .notReady
  | clear (hopen : busOpen s = true) : CommandEnds s .clear (s.fill .black).transfer .none
  | clearClosed (hclosed : busOpen s = false) : CommandEnds s .clear (s.fill .black) .notReady
  | init : CommandEnds s .init s.initEffect (initError s.nextProbe)
  | controller {i : Instr} {bs : List Byte} (hbytes : controllerBytes s.cfg i = some bs) (hopen : busOpen s = true) :
    CommandEnds s i (s.sendBytes bs) .none
  | controllerClosed {i : Instr} {bs : List Byte} (hbytes : controllerBytes s.cfg i = some bs)
    (hclosed : busOpen s = false) : CommandEnds s i s .notReady
  | badFont {i : Instr} (htext : isText i = true) : CommandEnds s i s .badFont
  | text {i : Instr} {s0 : State} {e : ErrCode} (f : Font) (c : Color) (cs : List Byte) (ch : Byte)
    (htext : isText i = true) (hstart : s0 = s ∨ ∃ x y, s0 = s.cursorAt x y)
    (herr : e = .none ∨ e = .textOverflow ∨ e = .glyphRange) :
    CommandEnds s i ((s0.putGlyphs f c cs).setResult ch) e
  | textFlushed {i : Instr} {s0 : State} (f : Font) (c : Color) (cs : List Byte) (htext : isText i = true)
    (hflush : mayTransfer i = true) (hstart : s0 = s ∨ ∃ x y, s0 = s.cursorAt x y) :
    CommandEnds s i ((s0.putGlyphs f c cs).setResult 0).autoFlush .none

/-- The ways a controller command that sends a byte list ends. -/
theorem exec_next_cases_controller {i : Instr} {s t : State} {bs : List Byte}
    (hbytes : controllerBytes s.cfg i = some bs) (h : exec i s = .next t) :
    ∃ u e, CommandEnds s i u e ∧ t = u.setStatus e := by
  rw [exec_controller s hbytes] at h
  cases hb : busOpen s <;> rw [hb] at h <;> cases h
  · exact ⟨_, _, .controllerClosed hbytes hb, rfl⟩
  · exact ⟨_, _, .controller hbytes hb, rfl⟩

/-- The ways a text command ends. -/
theorem exec_next_cases_text {i : Instr} {s t : State} (htext : isText i = true) (h : exec i s = .next t) :
    ∃ u e, CommandEnds s i u e ∧ t = u.setStatus e := by
  obtain ⟨font, hfont⟩ := Option.isSome_iff_exists.1 htext
  rcases exec_text_cases s hfont with hbad | ⟨s0, f, c, cs, hstart, ⟨ch, e, herr, hend⟩ | ⟨hflush, hend⟩ | ⟨-, hfault⟩⟩
  · cases hbad.symm.trans h
    exact ⟨_, _, .badFont htext, rfl⟩
  · cases hend.symm.trans h
    exact ⟨_, _, .text f c cs ch htext hstart herr, rfl⟩
  · cases hend.symm.trans h
    exact ⟨_, _, .textFlushed f c cs htext hflush hstart, rfl⟩
  · cases hfault.symm.trans h

/-- Everything that can be behind a command that answers a state. -/
theorem exec_next_cases {i : Instr} {s t : State} (h : exec i s = .next t) :
    ∃ u e, CommandEnds s i u e ∧ t = u.setStatus e := by
  cases i with
  | nop => cases h; exact ⟨_, _, .nop, rfl⟩
  | fill c => cases h; exact ⟨_, _, .fill c, rfl⟩
  | writePixel x y c => cases h; exact ⟨_, _, .writePixel x y c, rfl⟩
  | toggleInvert => cases h; exact ⟨_, _, .toggleInvert, rfl⟩
  | setCursor x y => cases h; exact ⟨_, _, .setCursor x y, rfl⟩
  | drawLine x0 y0 x1 y1 c => cases h; exact ⟨_, _, .drawLine x0 y0 x1 y1 c, rfl⟩
  | drawBitmap x y src w h' c =>
    rw [exec_drawBitmap] at h
    split_ifs at h with hb
    cases h
    exact ⟨_, _, .drawBitmap x y src w h' c (Bool.eq_false_iff.2 hb), rfl⟩
  | update =>
    rw [exec_update] at h
    cases hb : busOpen s <;> rw [hb] at h <;> cases h
    · exact ⟨_, _, .updateClosed hb, rfl⟩
    · exact ⟨_, _, .update hb, rfl⟩
  | clear =>
    rw [exec_clear] at h
    cases hb : busOpen s <;> rw [hb] at h <;> cases h
    · exact ⟨_, _, .clearClosed hb, rfl⟩
    · exact ⟨_, _, .clear hb, rfl⟩
  | init => cases (exec_init s).symm.trans h; exact ⟨_, _, .init, rfl⟩
  | drawChar | drawString | drawNumber | drawSignedNumber => exact exec_next_cases_text rfl h
  | setPower | invertHw | scrollRight | scrollLeft | scrollDiagRight | scrollDiagLeft | stopScroll =>
    exact exec_next_cases_controller rfl h

/-! ## What no command writes -/

theorem CommandEnds.sameInputs {s u : State} {i : Instr} {e : ErrCode} (h : CommandEnds s i u e) : SameInputs s u := by
  cases h with
  | text f c cs ch _ hstart _ => obtain rfl | ⟨x, y, rfl⟩ := hstart <;> simp [SameInputs]
  | textFlushed f c cs _ _ hstart => obtain rfl | ⟨x, y, rfl⟩ := hstart <;> simp [SameInputs]
  | toggleInvert => simp [SameInputs, State.toggle]
  | _ => simp [SameInputs]

/-- No command writes the operand registers (R42), nor any other of its inputs. -/
theorem exec_sameInputs {i : Instr} {s t : State} (h : exec i s = .next t) : SameInputs s t := by
  obtain ⟨u, e, hu, rfl⟩ := exec_next_cases h
  exact hu.sameInputs

/-! ## What a command and a step append to `BUSLOG` -/

/-- `BUSLOG` of `t` is that of `s` with transactions of `s`'s device appended (R52). -/
def AppendsTxns (s t : State) : Prop := ∃ more, t.busLog = s.busLog ++ more ∧ ∀ x ∈ more, txnOf s.cfg x

theorem AppendsTxns.of_eq {s t : State} (h : t.busLog = s.busLog) : AppendsTxns s t := ⟨[], by simp [h], by simp⟩

/-- What counts of the earlier state is its log and its configuration. -/
theorem AppendsTxns.congr {s s' t : State} (h : AppendsTxns s t) (hlog : s.busLog = s'.busLog) (hcfg : s.cfg = s'.cfg) :
    AppendsTxns s' t := by
  obtain ⟨more, hmore, htxn⟩ := h
  exact ⟨more, hlog ▸ hmore, hcfg ▸ htxn⟩

theorem AppendsTxns.trans {s t u : State} (h : AppendsTxns s t) (h' : AppendsTxns t u) (hcfg : t.cfg = s.cfg) :
    AppendsTxns s u := by
  obtain ⟨more, hmore, htxn⟩ := h
  obtain ⟨more', hmore', htxn'⟩ := h'
  refine ⟨more ++ more', by rw [hmore', hmore, List.append_assoc], fun x hx => ?_⟩
  rcases List.mem_append.1 hx with hx | hx
  · exact htxn x hx
  · exact hcfg ▸ htxn' x hx

theorem State.sendBytes_appends (s : State) (bs : List Byte) : AppendsTxns s (s.sendBytes bs) :=
  ⟨_, rfl, txnOf_cmds s.cfg bs⟩

theorem State.transfer_appends (s : State) : AppendsTxns s s.transfer := ⟨_, rfl, txnOf_transferTxns s.cfg s.fb⟩

theorem State.probe_appends (s : State) : AppendsTxns s s.probe := ⟨_, rfl, by simp [txnOf]⟩

theorem State.autoFlush_appends (s : State) : AppendsTxns s s.autoFlush := by
  unfold State.autoFlush
  split
  · exact s.transfer_appends
  · exact .of_eq rfl

/-- The initialization script, and then a transfer of the cleared framebuffer (R226). -/
theorem State.bringUp_appends (s : State) : AppendsTxns s s.bringUp :=
  (s.sendBytes_appends s.cfg.initScript).trans (State.transfer_appends ((s.sendBytes s.cfg.initScript).fill .black)) rfl

/-- The probe, and then, where it answered READY, the bring-up (R226). -/
theorem State.initEffect_appends (s : State) : AppendsTxns s s.initEffect := by
  have hprobe := State.probe_appends { s with ctrl := .probing }
  cases h : s.nextProbe with
  | ready => rw [s.initEffect_ready h]; exact hprobe.trans (State.bringUp_appends _) rfl
  | notReady => rw [s.initEffect_notReady h]; exact hprobe

theorem CommandEnds.appendsTxns {s u : State} {i : Instr} {e : ErrCode} (h : CommandEnds s i u e) : AppendsTxns s u := by
  cases h with
  | drawLine => exact (State.autoFlush_appends _).congr rfl rfl
  | update => exact s.transfer_appends
  | clear => exact (State.transfer_appends (s.fill .black)).congr rfl rfl
  | init => exact s.initEffect_appends
  | controller => exact s.sendBytes_appends _
  | text f c cs ch _ hstart _ => obtain rfl | ⟨x, y, rfl⟩ := hstart <;> exact .of_eq (by simp)
  | textFlushed f c cs _ _ hstart =>
    obtain rfl | ⟨x, y, rfl⟩ := hstart <;> exact (State.autoFlush_appends _).congr (by simp) (by simp)
  | _ => exact .of_eq rfl

theorem exec_appendsTxns {i : Instr} {s t : State} (h : exec i s = .next t) : AppendsTxns s t := by
  obtain ⟨u, e, hu, rfl⟩ := exec_next_cases h
  exact hu.appendsTxns

/-- Everything that can be behind a command cycle that answers a state: the decoded command ended, or the opcode is illegal
(R105, R107). -/
theorem runCommand_next_cases {opcode : Byte} {s t : State} (h : runCommand opcode s = .next t) :
    (∃ i, decode ⟨opcode, s.arg0, s.arg1, s.arg2, s.arg3⟩ = .ok i ∧ exec i (s.start opcode) = .next t) ∨
      (∃ e, decode ⟨opcode, s.arg0, s.arg1, s.arg2, s.arg3⟩ = .error e ∧
        t = (s.start opcode).setStatus .illegalCommand) := by
  cases hd : decode ⟨opcode, s.arg0, s.arg1, s.arg2, s.arg3⟩ with
  | ok i => exact .inl ⟨i, rfl, (runCommand_of_decode s hd).symm.trans h⟩
  | error e =>
    cases (runCommand_of_error s hd).symm.trans h
    exact .inr ⟨e, rfl, rfl⟩

theorem runCommand_appendsTxns {opcode : Byte} {s t : State} (h : runCommand opcode s = .next t) : AppendsTxns s t := by
  rcases runCommand_next_cases h with ⟨i, -, hexec⟩ | ⟨e, -, rfl⟩
  · exact (exec_appendsTxns hexec).congr rfl rfl
  · exact .of_eq rfl

/-- Of the host's writes only that of `CMD` reaches the bus. -/
theorem writeReg_appendsTxns {r : Reg} {v : Word} {s t : State} (h : writeReg r v s = .next t) : AppendsTxns s t := by
  rcases writeReg_next_cases s h with ⟨-, hrun⟩ | ⟨-, rfl | rfl | rfl | rfl⟩ | rfl
  · exact runCommand_appendsTxns hrun
  all_goals exact .of_eq rfl

theorem serve_appendsTxns {a : HostAccess} {s t : State} (h : serve a s = .next t) : AppendsTxns s t := by
  rcases serve_next_cases s h with ⟨v, free, rfl⟩ | ⟨r, v, hwrite⟩ | rfl
  · exact .of_eq rfl
  · exact writeReg_appendsTxns hwrite
  · exact .of_eq rfl

theorem step_appendsTxns {s t : State} (h : step s = .next t) : AppendsTxns s t := by
  obtain ⟨-, -, ⟨-, rfl⟩ | ⟨a, rest, -, hserve⟩⟩ := step_next_cases s h
  · exact .of_eq rfl
  · exact (serve_appendsTxns hserve).congr rfl rfl

/-! ## The host's writes of registers -/

/-- A write of `CMD` or of an operand register is served where no command runs. -/
theorem unlessBusy_of_not_busy {s : State} (h : s.busy = false) (o : Outcome) : unlessBusy s o = o := by
  simp [unlessBusy, h]

/-! ## Reset -/

/-- After reset every framebuffer byte is 0x00 (R60). -/
theorem fbByte_resetWith (c : Config) (i : Nat) : (State.resetWith c).fbByte i = 0x00 := by
  by_cases hi : i < c.size <;> simp [State.fbByte, fbByte, State.resetWith, Memory.read, Memory.lookup, fbSpace, hi]

/-! ## The obligations -/

/-- Settles O12: with `BUSY` 0 a write of an operand register is served as `writeReg` says, and no command writes one, by the
frame that all commands share (`exec_sameInputs`). -/
theorem operandRegistersHoldWhatTheHostWrote : Obligations.OperandRegistersHoldWhatTheHostWrote := by
  refine ⟨fun s v hbusy => ?_, fun s => ⟨rfl, rfl, rfl, rfl⟩, fun i s t h => ?_, fun c => ⟨rfl, rfl, rfl, rfl⟩⟩
  · have stored (r : Reg) : serve (hostWrite s.cfg r v) s = writeReg r v s := serve_hostWrite s r v
    exact ⟨(stored .arg0).trans (unlessBusy_of_not_busy hbusy _), (stored .arg1).trans (unlessBusy_of_not_busy hbusy _),
      (stored .arg2).trans (unlessBusy_of_not_busy hbusy _), (stored .arg3).trans (unlessBusy_of_not_busy hbusy _)⟩
  · obtain ⟨-, h0, h1, h2, h3, -⟩ := exec_sameInputs h
    exact ⟨h0, h1, h2, h3⟩

/-- Settles O53: every command appends transactions of `DEV_ADDR` (`CommandEnds.appendsTxns`), and of a step's accesses only
the write of `CMD` runs one. -/
theorem busLogOnlyGrows : Obligations.BusLogOnlyGrows :=
  ⟨fun _ _ h => step_appendsTxns h, fun _ => rfl⟩

/-- Settles O1: the values that `State.resetWith` lists, and `fbByte_resetWith` for the framebuffer. -/
theorem resetHoldsSpecifiedValues : Obligations.ResetHoldsSpecifiedValues :=
  ⟨fun c => ⟨fun i _ => fbByte_resetWith c i, rfl, rfl, rfl, rfl, rfl, rfl, rfl, rfl, rfl, rfl, rfl, rfl, rfl, rfl, rfl⟩,
    Config.cfgA, rfl⟩

end Sys2Proof.Machine

/-! ## Text commands in a font that does not exist -/

namespace Sys2Proof.Machine

/-- Settles O38: a font id at or above the number of fonts names no font, and a text command without its font ends with
BAD_FONT (`exec_badFont`), whose status is `OK` 0, `ERR` BAD_FONT and `BUSY` 0 (R81). -/
theorem badFontHasNoOtherEffect : Obligations.BadFontHasNoOtherEffect := by
  intro i font s hfont hrange
  have hnone : s.cfg.fonts[font]? = none := List.getElem?_eq_none hrange
  exact exec_badFont s hfont hnone

end Sys2Proof.Machine

/-! Proofs of family 30_encoding: decode and encode (spec/30_encoding.md R102 to R104, R107, R109, R111), NOP (R108), and the
status that every command ends with (R105, R106). Each is read off lemmas about the operand fields or about `CommandEnds`. -/

namespace Sys2Proof

open Sys2Proof.Machine

/-! ## A field of an encoded command reads back its operand (R102, R111) -/

theorem fitsU_iff {n v : Nat} : fitsU n v = true ↔ v < 2 ^ n := decide_eq_true_iff

theorem unsigned16_lt (v : Int) : unsigned 16 v < 65536 := unsigned_lt 16 v

theorem unsigned32_lt (v : Int) : unsigned 32 v < 4294967296 := unsigned_lt 32 v

section

variable (op : Byte) (a0 a1 a2 a3 : Word)

@[simp] theorem CommandWords.x_halves {lo : Nat} (hi : Nat) (h : lo < 65536) :
    (⟨op, halves lo hi, a1, a2, a3⟩ : CommandWords).x = lo := bits_halves_lo h

@[simp] theorem CommandWords.y_halves {lo hi : Nat} (hlo : lo < 65536) (hhi : hi < 65536) :
    (⟨op, halves lo hi, a1, a2, a3⟩ : CommandWords).y = hi := bits_halves_hi hlo hhi

@[simp] theorem CommandWords.x1_halves {lo : Nat} (hi : Nat) (h : lo < 65536) :
    (⟨op, a0, halves lo hi, a2, a3⟩ : CommandWords).x1 = lo := bits_halves_lo h

@[simp] theorem CommandWords.y1_halves {lo hi : Nat} (hlo : lo < 65536) (hhi : hi < 65536) :
    (⟨op, a0, halves lo hi, a2, a3⟩ : CommandWords).y1 = hi := bits_halves_hi hlo hhi

@[simp] theorem CommandWords.sp_halves (s e : Byte) :
    (⟨op, halves s.toNat e.toNat, a1, a2, a3⟩ : CommandWords).sp = s := by
  have hs := s.isLt
  refine BitVec.eq_of_toNat_eq ?_
  simp only [CommandWords.sp, bits, halves, BitVec.toNat_ofNat]
  omega

@[simp] theorem CommandWords.ep_halves (s e : Byte) :
    (⟨op, halves s.toNat e.toNat, a1, a2, a3⟩ : CommandWords).ep = e := by
  have hs := s.isLt
  have he := e.isLt
  refine BitVec.eq_of_toNat_eq ?_
  simp only [CommandWords.ep, bits, halves, BitVec.toNat_ofNat]
  omega

@[simp] theorem CommandWords.value_ofNat {v : Nat} (h : v < 4294967296) :
    (⟨op, a0, BitVec.ofNat 32 v, a2, a3⟩ : CommandWords).value = v := bits_word h

@[simp] theorem CommandWords.src_ofNat {v : Nat} (h : v < 4294967296) :
    (⟨op, a0, a1, BitVec.ofNat 32 v, a3⟩ : CommandWords).src = v := bits_word h

@[simp] theorem CommandWords.font_arg3Of (c : Color) {f ch : Nat} (hf : f < 256) (hch : ch < 256) :
    (⟨op, a0, a1, a2, arg3Of c.bit f ch⟩ : CommandWords).font = f := (bits_arg3Of c.bit_lt hf hch).2.1

@[simp] theorem CommandWords.ch_arg3Of (c : Color) {f : Nat} (ch : Byte) (hf : f < 256) :
    (⟨op, a0, a1, a2, arg3Of c.bit f ch.toNat⟩ : CommandWords).ch = ch := by
  obtain ⟨-, -, hch⟩ := bits_arg3Of c.bit_lt hf ch.isLt
  rw [CommandWords.ch, hch, BitVec.ofNat_toNat, BitVec.setWidth_eq]

end

/-- The round trip, one case for each way that R104's formats place their operands. -/
theorem decode_encode {i : Instr} (h : WellFormed i) : decode (encode i) = .ok i := by
  cases i with
  | nop | toggleInvert | update | clear | init | stopScroll => rfl
  | fill => simp [decode, encode, color_arg3Of]
  | setPower | invertHw => simp [decode, encode, on_arg3Of]
  | scrollRight | scrollLeft | scrollDiagRight | scrollDiagLeft => simp [decode, encode]
  | setCursor | writePixel | drawBitmap | drawString | drawNumber =>
    simp only [WellFormed, Instr.wf, fitsU_iff, Bool.and_eq_true, Nat.reducePow] at h
    simp [decode, encode, color_arg3Of, h]
  | drawChar ch =>
    simp only [WellFormed, Instr.wf, fitsU_iff, Nat.reducePow] at h
    simp [decode, encode, color_arg3Of, h, ch.isLt]
  | drawLine =>
    simp only [WellFormed, Instr.wf, Bool.and_eq_true] at h
    simp [decode, encode, color_arg3Of, unsigned16_lt, signed_unsigned16, h]
  | drawSignedNumber =>
    simp only [WellFormed, Instr.wf, fitsU_iff, Bool.and_eq_true, Nat.reducePow] at h
    simp [decode, encode, color_arg3Of, unsigned32_lt, signed_unsigned32, h]

/-- Settles O4: every field of an encoded command reads back the operand that was put in it (`decode_encode`). -/
theorem decodeInvertsEncode : Obligations.DecodeInvertsEncode := fun _ h => decode_encode h

/-- Settles O3, by running the decoder on the ten words. -/
theorem decodesWordsOfTheSpec : Obligations.DecodesWordsOfTheSpec := by
  unfold Obligations.DecodesWordsOfTheSpec
  decide

/-! ## Which opcodes decode (R107, R113) -/

/-- Every assigned opcode has its arm in the opcode map (R104), whatever the operand registers hold. -/
theorem decode_of_assigned {w : CommandWords} (h : unassignedOpcode w.opcode = false) : ∃ i, decode w = .ok i := by
  obtain ⟨op, a0, a1, a2, a3⟩ := w
  have arms : ∀ op ∈ assignedOpcodes, ∃ i, decode ⟨op, a0, a1, a2, a3⟩ = .ok i := by simp [assignedOpcodes, decode]
  exact arms op ((mem_assignedOpcodes op).2 h)

/-- Settles O5: `unassignedOpcode` separates the opcodes without an arm from those with one, and a command that does not
decode ends with ILLEGAL_COMMAND straight after its start (`runCommand_of_error`). -/
theorem illegalOpcodesRaiseIllegalCommand : Obligations.IllegalOpcodesRaiseIllegalCommand := by
  refine ⟨fun w => ?_, fun opcode s h => ?_⟩
  · split_ifs with h
    · exact decode_of_unassigned h
    · exact decode_of_assigned (Bool.eq_false_iff.2 h)
  · exact runCommand_of_error s (decode_of_unassigned h)

/-! ## Every decoded operand lies in the range of its field (R103) -/

section

variable (w : CommandWords)

@[simp] theorem CommandWords.fitsU_x : fitsU 16 w.x = true := fitsU_iff.2 (bits_lt w.arg0 15 0)
@[simp] theorem CommandWords.fitsU_y : fitsU 16 w.y = true := fitsU_iff.2 (bits_lt w.arg0 31 16)
@[simp] theorem CommandWords.fitsU_x1 : fitsU 16 w.x1 = true := fitsU_iff.2 (bits_lt w.arg1 15 0)
@[simp] theorem CommandWords.fitsU_y1 : fitsU 16 w.y1 = true := fitsU_iff.2 (bits_lt w.arg1 31 16)
@[simp] theorem CommandWords.fitsU_value : fitsU 32 w.value = true := fitsU_iff.2 (bits_lt w.arg1 31 0)
@[simp] theorem CommandWords.fitsU_src : fitsU 32 w.src = true := fitsU_iff.2 (bits_lt w.arg2 31 0)
@[simp] theorem CommandWords.fitsU_font : fitsU 8 w.font = true := fitsU_iff.2 (bits_lt w.arg3 15 8)

end

@[simp] theorem fitsS_signed16_of_fitsU {v : Nat} (h : fitsU 16 v = true) : fitsS 16 (signed 16 v) = true :=
  fitsS_signed16 (fitsU_iff.1 h)

@[simp] theorem fitsS_signed32_of_fitsU {v : Nat} (h : fitsU 32 v = true) : fitsS 32 (signed 32 v) = true :=
  fitsS_signed32 (fitsU_iff.1 h)

/-- Each arm of the opcode map takes its operands from fields, so their ranges are the fields' ranges. -/
theorem wf_of_decode {w : CommandWords} {i : Instr} (h : decode w = .ok i) : WellFormed i := by
  unfold decode at h
  split at h <;> cases h
  all_goals simp [WellFormed, Instr.wf]

/-- Settles O6: the range of every field (`CommandWords.fitsU_x` and its like), read arm by arm (`wf_of_decode`). -/
theorem decodedOperandsFitTheirFields : Obligations.DecodedOperandsFitTheirFields := fun _ _ h => wf_of_decode h

/-! ## The decoder factors through the bits that a command reads (R109) -/

/-- The words with every operand bit cleared that the command of their opcode does not read. -/
def CommandWords.readPart (w : CommandWords) : CommandWords :=
  ⟨w.opcode, w.arg0 &&& (readMask w.opcode).arg0, w.arg1 &&& (readMask w.opcode).arg1,
    w.arg2 &&& (readMask w.opcode).arg2, w.arg3 &&& (readMask w.opcode).arg3⟩

/-- A mask with every bit of a field leaves the field as it is. -/
theorem bits_and {m : Word} (v : Word) {hi lo : Nat} (hle : lo ≤ hi)
    (hm : ∀ k, k ≤ hi → lo ≤ k → m.getLsbD k = true) : bits (v &&& m) hi lo = bits v hi lo :=
  bits_congr (by rw [BitVec.and_assoc, BitVec.and_self]) hle hm

/-- Arm by arm, the mask of the opcode has every bit of the fields that the arm takes. -/
theorem decode_readPart (w : CommandWords) : decode w.readPart = decode w := by
  obtain ⟨op, a0, a1, a2, a3⟩ := w
  simp only [decode, CommandWords.readPart]
  split <;>
    simp (disch := decide) [CommandWords.x, CommandWords.y, CommandWords.sp, CommandWords.ep, CommandWords.x1,
      CommandWords.y1, CommandWords.value, CommandWords.src, CommandWords.on, CommandWords.color, CommandWords.font,
      CommandWords.ch, bits_and]

/-- Settles O7: words that agree on the bits read have the same `readPart`, and decoding a word is decoding its `readPart`. -/
theorem unreadBitsAreIgnored : Obligations.UnreadBitsAreIgnored := by
  intro w w' hop h0 h1 h2 h3
  have same : w.readPart = w'.readPart := by simp only [CommandWords.readPart, ← hop, h0, h1, h2, h3]
  calc decode w = decode w.readPart := (decode_readPart w).symm
    _ = decode w'.readPart := by rw [same]
    _ = decode w' := decode_readPart w'

end Sys2Proof

namespace Sys2Proof.Machine

open Sys2Proof

/-! ## NOP and the low bits of `STATUS` -/

/-- `STATUS[4:0]` is `OK` and `ERR` (R43). -/
theorem statusWord_low (s : State) :
    (statusWord s).extractLsb' 0 5 = BitVec.ofNat 5 (s.ok.toNat + s.err.code * 2) := by
  refine BitVec.eq_of_toNat_eq ?_
  simp only [statusWord, BitVec.extractLsb'_toNat, BitVec.toNat_ofNat, Nat.shiftRight_zero]
  omega

/-- Settles O20: NOP is the status write alone (`exec_nop`), and `OK` 1 with `ERR` NONE reads 0b00001 (`statusWord_low`). -/
theorem nopChangesOnlyTheStatus : Obligations.NopChangesOnlyTheStatus := fun s =>
  ⟨s.setStatus .none, exec_nop s, rfl, statusWord_low (s.setStatus .none)⟩

/-! ## The status that a command ends with (R105, R106, R250) -/

theorem notReady_mem_mayRaise {c : Config} {i : Instr} {bs : List Byte} (h : controllerBytes c i = some bs) :
    .notReady ∈ mayRaise i := by
  cases i with
  | setPower | invertHw | scrollRight | scrollLeft | scrollDiagRight | scrollDiagLeft | stopScroll =>
    exact List.mem_singleton.2 rfl
  | _ => cases h

theorem mayRaise_of_isText {i : Instr} (h : isText i = true) : mayRaise i = [.textOverflow, .glyphRange, .badFont] := by
  cases i with
  | drawChar | drawString | drawNumber | drawSignedNumber => rfl
  | _ => cases h

theorem initError_cases (a : ProbeAnswer) : initError a = .none ∨ initError a = .deviceNotPresent := by
  cases a with
  | ready => exact .inl rfl
  | notReady => exact .inr rfl

/-- A command ends with NONE or with an error that the table of R250 lists for it. -/
theorem CommandEnds.status_mem_mayRaise {s u : State} {i : Instr} {e : ErrCode} (h : CommandEnds s i u e) :
    e = .none ∨ e ∈ mayRaise i := by
  cases h with
  | updateClosed | clearClosed => exact .inr (List.mem_singleton.2 rfl)
  | init => exact (initError_cases _).imp_right List.mem_singleton.2
  | controllerClosed hbytes => exact .inr (notReady_mem_mayRaise hbytes)
  | badFont htext => exact .inr (by simp [mayRaise_of_isText htext])
  | text _ _ _ _ htext _ herr =>
    refine herr.imp_right fun h => ?_
    rw [mayRaise_of_isText htext]
    rcases h with rfl | rfl <;> simp
  | _ => exact .inl rfl

/-- Whatever a command cycle that ends has done, it ends by writing the status, and `CMD` still holds its opcode. -/
theorem runCommand_next_eq_setStatus {opcode : Byte} {s t : State} (h : runCommand opcode s = .next t) :
    ∃ (u : State) (e : ErrCode), u.cmd = opcode ∧ t = u.setStatus e := by
  rcases runCommand_next_cases h with ⟨i, -, hexec⟩ | ⟨-, -, rfl⟩
  · obtain ⟨u, e, hu, rfl⟩ := exec_next_cases hexec
    obtain ⟨-, -, -, -, -, hcmd, -⟩ := hu.sameInputs
    exact ⟨u, e, hcmd, rfl⟩
  · exact ⟨s.start opcode, .illegalCommand, rfl, rfl⟩

/-- Settles O55: a command that ends, ends in `setStatus`; of a decoded one the status is one that R250 lists
(`CommandEnds.status_mem_mayRaise`); and a fault writes the fault mark only (R258). -/
theorem everyCommandWritesItsStatus : Obligations.EveryCommandWritesItsStatus := by
  refine ⟨fun opcode s t h => ?_, fun opcode s t i hdecode h => ?_, fun r f hfaulted => ?_⟩
  · obtain ⟨u, e, hcmd, rfl⟩ := runCommand_next_eq_setStatus h
    exact ⟨rfl, beq_iff_eq, hcmd⟩
  · rw [runCommand_of_decode s hdecode] at h
    obtain ⟨u, e, hu, rfl⟩ := exec_next_cases h
    exact hu.status_mem_mayRaise
  · simp [conclude, Run.final, hfaulted]

end Sys2Proof.Machine

/-! Proofs of family 40_framebuffer: FILL (spec/40_framebuffer.md R134), WRITE_PIXEL (R131 to R133), TOGGLE_INVERT (R138,
R139) and SET_CURSOR (R142). Each command ends in `setStatus`; what it did before is said here of its effect alone. -/

namespace Sys2Proof.Machine

open Sys2Proof

/-! ## How a command's last step leaves the status (R105, R106) -/

theorem endedOk_setStatus (s : State) : EndedOk (s.setStatus .none) := ⟨rfl, rfl, rfl⟩

theorem endedWith_setStatus (s : State) {e : ErrCode} (h : e ≠ .none) : EndedWith e (s.setStatus e) :=
  ⟨beq_eq_false_iff_ne.2 h, rfl, rfl⟩

/-! ## Drawing and filling write nothing but the framebuffer -/

theorem sameButFb_draw_setStatus (s : State) (ps : List Pixel) (e : ErrCode) :
    SameButFb s ((s.draw ps).setStatus e) := by
  simp [SameButFb, SameCursor, SameInputs, SameDraws]

theorem sameButFb_fill_setStatus (s : State) (c : Color) (e : ErrCode) : SameButFb s ((s.fill c).setStatus e) := by
  simp [SameButFb, SameCursor, SameInputs, SameDraws]

/-! ## FILL -/

theorem fillByte_eq_ite (c : Color) : fillByte c = if c = .white then 0xFF else 0x00 := by
  cases c <;> rfl

/-- Settles O21: FILL is a whole-buffer write of `fillByte c` (`State.fbByte_setBytes`), in which `inv` does not occur. -/
theorem fillSetsEveryByte : Obligations.FillSetsEveryByte := by
  intro c s
  refine ⟨_, exec_fill s c, endedOk_setStatus _, fun i hi => ?_, sameButFb_fill_setStatus s c _⟩
  rw [State.fbByte_setStatus, ← fillByte_eq_ite]
  exact s.fbByte_setBytes (fun _ => fillByte c) hi

/-! ## WRITE_PIXEL -/

theorem setBits_eq_ite (c : Color) (b mask : Byte) :
    setBits c b mask = if c = .white then b ||| mask else b &&& ~~~mask := by
  cases c <;> rfl

theorem colorBit_eq_decide (c : Color) : colorBit c = decide (c = .white) := by
  cases c <;> rfl

section

variable (s : State) (x y : Nat) (c : Color)

/-- Of a pixel write, a byte that does not hold the pixel sees nothing; off the panel no byte holds it. -/
theorem State.fbByte_drawPixel_of_ne {i : Nat} (h : OnPanel s x y → i ≠ pixelIndex s.cfg x y) :
    (s.draw [⟨x, y, c⟩]).fbByte i = s.fbByte i := by
  refine s.fbByte_draw_of_ne _ fun p hp hb => ?_
  obtain rfl := List.mem_singleton.1 hp
  exact h ((inBounds_natCast s.cfg x y).1 hb)

/-- The byte that holds the pixel, after a pixel write (R75, R130). -/
theorem State.fbByte_drawPixel_self (h8 : s.cfg.height % 8 = 0) (hfb : Memory.wf (fbSpace s.cfg) s.fb = true)
    (hp : OnPanel s x y) :
    (s.draw [⟨x, y, c⟩]).fbByte (pixelIndex s.cfg x y) =
      setBits (if s.inv then c.not else c) (s.fbByte (pixelIndex s.cfg x y)) (pixelMask y) :=
  fbByte_plot_self (p := ⟨x, y, c⟩) s.inv h8 hfb ((inBounds_natCast s.cfg x y).2 hp)

/-- Every pixel of the panel, after a pixel write (R132). -/
theorem State.pixel_drawPixel (h8 : s.cfg.height % 8 = 0) (hfb : Memory.wf (fbSpace s.cfg) s.fb = true) {x' y' : Nat}
    (hp : OnPanel s x' y') :
    (s.draw [⟨x, y, c⟩]).pixel x' y' = if x = x' ∧ y = y' then decide (c = .white) ^^ s.inv else s.pixel x' y' := by
  rw [← colorBit_eq_decide]
  refine s.pixel_draw_of_color _ c ?_ h8 hfb hp.1 hp.2 _ ?_ <;> simp

end

/-- Settles O24: no byte holds a pixel off the panel (`State.fbByte_drawPixel_of_ne`). -/
theorem writePixelOffPanelChangesNothing : Obligations.WritePixelOffPanelChangesNothing := by
  intro x y c s hoff
  refine ⟨_, exec_writePixel s x y c, endedOk_setStatus _, fun i => ?_, sameButFb_draw_setStatus s _ _⟩
  exact s.fbByte_drawPixel_of_ne x y c fun hon => absurd hon hoff

/-- Settles O22: the byte that holds the pixel becomes what `setBits` makes of it, and no other byte is written. -/
theorem writePixelChangesOneBitOfOneByte : Obligations.WritePixelChangesOneBitOfOneByte := by
  rintro x y c s ⟨hcfg, hfb, -⟩
  obtain ⟨-, -, -, -, h8⟩ := panel_of_configWf hcfg
  refine ⟨_, exec_writePixel s x y c, endedOk_setStatus _, sameButFb_draw_setStatus s _ _, fun hon => ?_, fun i hi => ?_⟩
  · exact (s.fbByte_drawPixel_self x y c h8 hfb hon).trans (setBits_eq_ite _ _ _)
  · exact s.fbByte_drawPixel_of_ne x y c hi

/-- Settles O23, by what a pixel write does to each pixel of the panel (`State.pixel_drawPixel`). -/
theorem writePixelStoresColorXorInv : Obligations.WritePixelStoresColorXorInv := by
  rintro x y c s ⟨hcfg, hfb, -⟩ hon
  obtain ⟨-, -, -, -, h8⟩ := panel_of_configWf hcfg
  refine ⟨_, exec_writePixel s x y c, ?_, fun x' y' hon' hne => ?_⟩
  · exact (s.pixel_drawPixel x y c h8 hfb hon).trans (if_pos ⟨rfl, rfl⟩)
  · exact (s.pixel_drawPixel x y c h8 hfb hon').trans (if_neg (by omega))

/-! ## TOGGLE_INVERT -/

@[simp] theorem State.toggle_cfg (s : State) : s.toggle.cfg = s.cfg := rfl
@[simp] theorem State.toggle_inv (s : State) : s.toggle.inv = !s.inv := rfl

theorem State.fbByte_toggle (s : State) {i : Nat} (h : i < s.cfg.size) : s.toggle.fbByte i = ~~~s.fbByte i :=
  s.fbByte_setBytes (fun i => ~~~s.fbByte i) h

theorem State.wf_toggle (s : State) : Memory.wf (fbSpace s.cfg) s.toggle.fb = true :=
  s.wf_setBytes fun i => ~~~s.fbByte i

theorem not_eq_xor_FF (b : Byte) : ~~~b = b ^^^ 0xFF := BitVec.xor_allOnes.symm

/-- Settles O25: every byte below `N` becomes its complement (`State.fbByte_toggle`), which is its XOR with 0xFF. -/
theorem toggleInvertComplementsEveryByte : Obligations.ToggleInvertComplementsEveryByte := by
  intro s
  refine ⟨_, exec_toggleInvert s, endedOk_setStatus _, rfl, fun i hi => ?_, ⟨rfl, rfl⟩, rfl, rfl, rfl,
    exec_sameInputs (exec_toggleInvert s), rfl, rfl⟩
  exact (s.fbByte_toggle hi).trans (not_eq_xor_FF _)

/-- Every address below `N` reads as a byte. -/
theorem Memory.read_fbSpace_of_lt (c : Config) (m : Memory) {i : Nat} (h : i < c.size) :
    Memory.read (fbSpace c) m i = some (fbByte c m i) := by
  have hlim : i < (fbSpace c).limit := h
  rw [fbByte, Memory.read, if_pos hlim]
  cases m.lookup i <;> rfl

/-- Canonical framebuffers with the same bytes are equal. -/
theorem fb_ext {c : Config} {m m' : Memory} (hm : Memory.wf (fbSpace c) m = true)
    (hm' : Memory.wf (fbSpace c) m' = true) (h : ∀ i, i < c.size → fbByte c m i = fbByte c m' i) : m = m' := by
  refine Memory.ext_read hm hm' fun i hi => ?_
  rw [Memory.read_fbSpace_of_lt c m hi, Memory.read_fbSpace_of_lt c m' hi, h i hi]

/-- Settles O26: the complement of the complement is the byte, and canonical framebuffers are told apart by their bytes
(`fb_ext`). -/
theorem toggleInvertTwiceRestores : Obligations.ToggleInvertTwiceRestores := by
  rintro s ⟨-, hfb, -⟩
  let t := s.toggle.setStatus .none
  refine ⟨t, t.toggle.setStatus .none, exec_toggleInvert s, exec_toggleInvert t, ?_, Bool.not_not s.inv⟩
  refine fb_ext t.wf_toggle hfb fun i hi => ?_
  calc t.toggle.fbByte i = ~~~s.toggle.fbByte i := t.fbByte_toggle hi
    _ = ~~~(~~~s.fbByte i) := by rw [s.fbByte_toggle hi]
    _ = s.fbByte i := BitVec.not_not

/-! ## SET_CURSOR -/

/-- No glyph fits at a cursor off the panel, for a glyph has a column and a row (R13). -/
theorem putChar_of_not_onPanel {f : Font} (hf : fontWf f = true) (c : Color) (ch : Byte) {s : State}
    (h : ¬OnPanel s s.cx.toNat s.cy.toNat) : putChar f c ch s = .error .textOverflow := by
  obtain ⟨-, -, hw, -, hh, -⟩ := font_bounds hf
  exact putChar_overflow c ch (by omega)

/-- DRAW_CHAR at a cursor off the panel, in a font that exists (R181). -/
theorem exec_drawChar_of_not_onPanel {s : State} (hcfg : configWf s.cfg = true)
    (hoff : ¬OnPanel s s.cx.toNat s.cy.toNat) (ch : Byte) {font : Nat} (c : Color) (hfont : font < s.cfg.fonts.length) :
    exec (.drawChar ch font c) s = .next ((s.setResult ch).setStatus .textOverflow) := by
  have hget := List.getElem?_eq_getElem hfont
  rw [exec_drawChar s ch font c hget, putChar_of_not_onPanel (fontWf_of_getElem hcfg hget) c ch hoff]

/-- Settles O28: the cursor holds 16-bit coordinates as given, and DRAW_CHAR at a cursor off the panel overflows
(`exec_drawChar_of_not_onPanel`). -/
theorem setCursorStoresWithoutCheck : Obligations.SetCursorStoresWithoutCheck := by
  intro x y s hx hy
  have hcx : (BitVec.ofNat 16 x).toNat = x := Nat.mod_eq_of_lt hx
  have hcy : (BitVec.ofNat 16 y).toNat = y := Nat.mod_eq_of_lt hy
  refine ⟨_, exec_setCursor s x y, endedOk_setStatus _, hcx, hcy, fun _ => rfl, rfl, rfl, rfl, rfl,
    exec_sameInputs (exec_setCursor s x y), ⟨rfl, rfl⟩, ?_⟩
  rintro ⟨hcfg, -⟩ hoff ch font color hfont
  have hcursor : ¬OnPanel s (BitVec.ofNat 16 x).toNat (BitVec.ofNat 16 y).toNat := by rwa [hcx, hcy]
  exact ⟨_, exec_drawChar_of_not_onPanel (s := (s.cursorAt x y).setStatus .none) hcfg hcursor ch color hfont,
    endedWith_setStatus _ (by decide)⟩

end Sys2Proof.Machine

/-! Proofs of family 41_rasterizer: which points a line visits (spec/41_rasterizer.md R151, R152, R155, R156), what DRAW_LINE
makes of them (R157), and DRAW_BITMAP where it can read its source (R161). A line with a slope is said axis by axis
(`axisAt`): both axes obey the same law, so neither the octant nor which axis is the major one matters after that. -/

namespace Sys2Proof.Machine

open Sys2Proof

/-! ## Vertical and horizontal lines (R152) -/

theorem linePoints_vertical (x y0 y1 : Int) :
    linePoints x y0 x y1 = (List.range ((y1 - y0).natAbs + 1)).map fun k : Nat => (x, min y0 y1 + (k : Int)) := by
  have hlen : (max y0 y1 - min y0 y1 + 1).toNat = (y1 - y0).natAbs + 1 := by omega
  rw [linePoints, if_pos rfl, verticalRun, hlen]

/-- Equal endpoints take the vertical case, and the horizontal run between them is the same point. -/
theorem linePoints_horizontal (x0 x1 y : Int) :
    linePoints x0 y x1 y = (List.range ((x1 - x0).natAbs + 1)).map fun k : Nat => (min x0 x1 + (k : Int), y) := by
  by_cases h : x0 = x1
  · subst h
    simp [linePoints_vertical]
  · have hlen : (max x0 x1 - min x0 x1 + 1).toNat = (x1 - x0).natAbs + 1 := by omega
    rw [linePoints, if_neg h, if_pos rfl, horizontalRun, hlen]

/-- Settles O31: the runs in closed form (`linePoints_vertical`, `linePoints_horizontal`), in which swapping the endpoints
changes neither the length nor the least coordinate. -/
theorem axisLinesAreInclusiveRuns : Obligations.AxisLinesAreInclusiveRuns := by
  refine ⟨fun x y0 y1 => ⟨linePoints_vertical x y0 y1, ?_⟩, fun y x0 x1 => ⟨linePoints_horizontal x0 x1 y, ?_⟩,
    fun x y => ?_⟩
  · rw [linePoints_vertical, linePoints_vertical, min_comm, ← Int.natAbs_neg, neg_sub]
  · rw [linePoints_horizontal, linePoints_horizontal, min_comm, ← Int.natAbs_neg, neg_sub]
  · simp [linePoints_vertical]

/-! ## One axis of a line with a slope (R153, R154) -/

/-- On the major axis every step moves. -/
theorem minorSteps_major {d : Int} (hd : 0 < d) (k : Nat) : minorSteps d d k = k := by
  rw [minorSteps, Int.sub_mul_ediv_right _ _ hd.ne', Int.ediv_eq_zero_of_lt (by omega) (by omega)]
  omega

theorem dirOf_mul_natAbs (a b : Int) : dirOf a b * (b - a).natAbs = b - a := by
  have := dirOf_mul a b
  omega

theorem natAbs_dirOf_mul (a b z : Int) : (dirOf a b * z).natAbs = z.natAbs := by
  rcases dirOf_eq a b with h | h <;> rw [h] <;> omega

/-- The coordinate of point `k` of a sloped line of `n` steps, on an axis on which the line goes from `a` to `b`. -/
def axisAt (a b : Int) (n k : Nat) : Int := a + dirOf a b * minorSteps n (b - a).natAbs k

section

variable {a b : Int} {n : Nat}

theorem axisAt_first (hn : 0 < n) : axisAt a b n 0 = a := by
  rw [axisAt, minorSteps_zero (by omega), mul_zero, add_zero]

theorem axisAt_last (hn : 0 < n) : axisAt a b n n = b := by
  rw [axisAt, minorSteps_last (by omega) rfl, ← dirOf_mul]

theorem axisAt_major (hn : 0 < n) (hmajor : (b - a).natAbs = n) (k : Nat) : axisAt a b n k = a + dirOf a b * k := by
  rw [axisAt, hmajor, minorSteps_major (by omega)]

theorem axisAt_major_injective (hn : 0 < n) (hmajor : (b - a).natAbs = n) : Function.Injective (axisAt a b n) := by
  intro j k h
  rw [axisAt_major hn hmajor, axisAt_major hn hmajor] at h
  rcases dirOf_eq a b with hd | hd <;> rw [hd] at h <;> omega

theorem axisAt_mem_box (hn : 0 < n) {k : Nat} (hk : k ≤ n) :
    min a b ≤ axisAt a b n k ∧ axisAt a b n k ≤ max a b := by
  obtain ⟨hlo, hhi⟩ := minorSteps_bounds (d := n) (e := (b - a).natAbs) (k := k) (by omega) (by omega) (by omega)
  unfold axisAt dirOf
  split_ifs <;> omega

/-- A step moves an axis by at most 1, and never away from its end. -/
theorem axisAt_step (hab : a ≠ b) (hle : (b - a).natAbs ≤ n) (k : Nat) :
    (axisAt a b n (k + 1) - axisAt a b n k).natAbs ≤ 1 ∧ 0 ≤ (axisAt a b n (k + 1) - axisAt a b n k) * (b - a) := by
  obtain ⟨hlo, hhi⟩ := minorSteps_step (d := n) (e := (b - a).natAbs) (by omega) (by omega) k
  have hstep : axisAt a b n (k + 1) - axisAt a b n k = 0 ∨ axisAt a b n (k + 1) - axisAt a b n k = dirOf a b := by
    unfold axisAt dirOf
    split_ifs <;> omega
  rcases hstep with h | h <;> rw [h]
  · simp
  · unfold dirOf
    split_ifs <;> omega

/-- A point lies on its axis within half a step of the part `k / n` of the way from `a` to `b`. -/
theorem axisAt_deviation (hn : 0 < n) (k : Nat) : 2 * ((axisAt a b n k - a) * n - k * (b - a)).natAbs ≤ n := by
  obtain ⟨hlo, hhi⟩ := minorSteps_deviation (d := n) (e := (b - a).natAbs) (by omega) k
  have hdev : (axisAt a b n k - a) * n - k * (b - a) =
      dirOf a b * (minorSteps n (b - a).natAbs k * n - k * (b - a).natAbs) := by
    calc (axisAt a b n k - a) * n - k * (b - a)
        = dirOf a b * minorSteps n (b - a).natAbs k * n - k * (dirOf a b * (b - a).natAbs) := by
          rw [axisAt, add_sub_cancel_left, dirOf_mul_natAbs]
      _ = dirOf a b * (minorSteps n (b - a).natAbs k * n - k * (b - a).natAbs) := by ring
  rw [hdev, natAbs_dirOf_mul]
  omega

/-- The same beside a major axis from `a'` to `b'`: how far the two axes are off the ideal line, times its major length. -/
theorem axisAt_deviation_of_major {a' b' : Int} (hn : 0 < n) (hmajor : (b' - a').natAbs = n) (k : Nat) :
    2 * ((axisAt a b n k - a) * (b' - a') - (axisAt a' b' n k - a') * (b - a)).natAbs ≤ n := by
  have hend : b' - a' = dirOf a' b' * n := by rw [← hmajor, dirOf_mul_natAbs]
  have hfactor : (axisAt a b n k - a) * (b' - a') - (axisAt a' b' n k - a') * (b - a) =
      dirOf a' b' * ((axisAt a b n k - a) * n - k * (b - a)) := by
    rw [axisAt_major hn hmajor, hend]
    ring
  rw [hfactor, natAbs_dirOf_mul]
  exact axisAt_deviation hn k

end

/-! ## Lines with a slope (R155) -/

/-- The number of steps of a sloped line: its length along its major axis. -/
def lineSteps (x0 y0 x1 y1 : Int) : Nat := max (x1 - x0).natAbs (y1 - y0).natAbs

/-- Point `k` of a sloped line. -/
def slopedPoint (x0 y0 x1 y1 : Int) (k : Nat) : Int × Int :=
  (axisAt x0 x1 (lineSteps x0 y0 x1 y1) k, axisAt y0 y1 (lineSteps x0 y0 x1 y1) k)

/-- The longer axis is the major one. -/
theorem lineSteps_eq (x0 y0 x1 y1 : Int) :
    (x1 - x0).natAbs = lineSteps x0 y0 x1 y1 ∨ (y1 - y0).natAbs = lineSteps x0 y0 x1 y1 := by
  unfold lineSteps
  omega

section

variable {x0 y0 x1 y1 : Int} (hx : x0 ≠ x1) (hy : y0 ≠ y1)
include hx

theorem lineSteps_pos : 0 < lineSteps x0 y0 x1 y1 := by
  unfold lineSteps
  omega

theorem slopedPoint_injective : Function.Injective (slopedPoint x0 y0 x1 y1) := by
  intro j k h
  obtain ⟨h1, h2⟩ := Prod.mk.inj h
  rcases lineSteps_eq x0 y0 x1 y1 with hmajor | hmajor
  · exact axisAt_major_injective (lineSteps_pos hx) hmajor h1
  · exact axisAt_major_injective (lineSteps_pos hx) hmajor h2

/-- The distance from the ideal line along the minor axis, times the length of the major one. -/
theorem slopedPoint_deviation (k : Nat) :
    2 * (((slopedPoint x0 y0 x1 y1 k).2 - y0) * (x1 - x0) - ((slopedPoint x0 y0 x1 y1 k).1 - x0) * (y1 - y0)).natAbs ≤
      lineSteps x0 y0 x1 y1 := by
  rcases lineSteps_eq x0 y0 x1 y1 with hmajor | hmajor
  · exact axisAt_deviation_of_major (lineSteps_pos hx) hmajor k
  · rw [← Int.natAbs_neg, neg_sub]
    exact axisAt_deviation_of_major (lineSteps_pos hx) hmajor k

include hy

/-- Both octant families of the rasterizer (`slopedLine_shallow`, `slopedLine_steep`) are one closed form. -/
theorem linePoints_sloped :
    linePoints x0 y0 x1 y1 = (List.range (lineSteps x0 y0 x1 y1 + 1)).map (slopedPoint x0 y0 x1 y1) := by
  rw [linePoints, if_neg hx, if_neg hy]
  by_cases h : (y1 - y0).natAbs < (x1 - x0).natAbs
  · have hmajor : lineSteps x0 y0 x1 y1 = (x1 - x0).natAbs := Nat.max_eq_left h.le
    rw [slopedLine_shallow hy h, hmajor]
    refine List.map_congr_left fun k _ => ?_
    rw [slopedPoint, hmajor, axisAt_major (a := x0) (b := x1) (by omega) rfl, axisAt]
  · have hmajor : lineSteps x0 y0 x1 y1 = (y1 - y0).natAbs := Nat.max_eq_right (by omega)
    rw [slopedLine_steep hx (by omega), hmajor]
    refine List.map_congr_left fun k _ => ?_
    rw [slopedPoint, hmajor, axisAt_major (a := y0) (b := y1) (by omega) rfl, axisAt]

theorem slopedPoint_step (k : Nat) :
    slopedPoint x0 y0 x1 y1 k ≠ slopedPoint x0 y0 x1 y1 (k + 1) ∧
      ((slopedPoint x0 y0 x1 y1 (k + 1)).1 - (slopedPoint x0 y0 x1 y1 k).1).natAbs ≤ 1 ∧
      ((slopedPoint x0 y0 x1 y1 (k + 1)).2 - (slopedPoint x0 y0 x1 y1 k).2).natAbs ≤ 1 ∧
      0 ≤ ((slopedPoint x0 y0 x1 y1 (k + 1)).1 - (slopedPoint x0 y0 x1 y1 k).1) * (x1 - x0) ∧
      0 ≤ ((slopedPoint x0 y0 x1 y1 (k + 1)).2 - (slopedPoint x0 y0 x1 y1 k).2) * (y1 - y0) := by
  obtain ⟨hx1, hxdir⟩ := axisAt_step hx (n := lineSteps x0 y0 x1 y1) (Nat.le_max_left _ _) k
  obtain ⟨hy1, hydir⟩ := axisAt_step hy (n := lineSteps x0 y0 x1 y1) (Nat.le_max_right _ _) k
  exact ⟨fun h => absurd (slopedPoint_injective hx h) (by omega), hx1, hy1, hxdir, hydir⟩

end

/-- Every line stays in the box of its endpoints. -/
theorem linePoints_mem_box {x0 y0 x1 y1 : Int} {p : Int × Int} (hp : p ∈ linePoints x0 y0 x1 y1) :
    (min x0 x1 ≤ p.1 ∧ p.1 ≤ max x0 x1) ∧ min y0 y1 ≤ p.2 ∧ p.2 ≤ max y0 y1 := by
  by_cases hx : x0 = x1
  · subst hx
    rw [linePoints_vertical] at hp
    obtain ⟨k, hk, rfl⟩ := List.mem_map.1 hp
    have := List.mem_range.1 hk
    simp only
    omega
  by_cases hy : y0 = y1
  · subst hy
    rw [linePoints_horizontal] at hp
    obtain ⟨k, hk, rfl⟩ := List.mem_map.1 hp
    have := List.mem_range.1 hk
    simp only
    omega
  · rw [linePoints_sloped hx hy] at hp
    obtain ⟨k, hk, rfl⟩ := List.mem_map.1 hp
    have hk : k ≤ lineSteps x0 y0 x1 y1 := Nat.le_of_lt_succ (List.mem_range.1 hk)
    exact ⟨axisAt_mem_box (lineSteps_pos hx) hk, axisAt_mem_box (lineSteps_pos hx) hk⟩

/-- Settles O32: in the closed form `linePoints_sloped`, each clause is a fact about `slopedPoint`, and most are facts about
one axis. -/
theorem slopedLineIsEightConnected : Obligations.SlopedLineIsEightConnected := by
  refine ⟨fun x0 y0 x1 y1 hx hy => ?_, by decide, by decide⟩
  have hn := lineSteps_pos (y0 := y0) (y1 := y1) hx
  have hpoints := linePoints_sloped hx hy
  refine ⟨?_, ?_, ?_, ?_, ?_, fun p hp => ?_⟩
  · rw [hpoints, List.length_map, List.length_range]
    rfl
  · rw [hpoints]
    exact List.nodup_range.map (slopedPoint_injective hx)
  · rw [hpoints]
    simp [List.head?_range, slopedPoint, axisAt_first hn]
  · rw [hpoints]
    simp [List.getLast?_range, slopedPoint, axisAt_last hn]
  · rw [hpoints, List.isChain_map, List.isChain_range_succ]
    exact fun k _ => slopedPoint_step hx hy k
  · obtain ⟨⟨hx0, hx1⟩, hy0, hy1⟩ := linePoints_mem_box hp
    refine ⟨hx0, hx1, hy0, hy1, ?_⟩
    rw [hpoints] at hp
    obtain ⟨k, -, rfl⟩ := List.mem_map.1 hp
    exact slopedPoint_deviation hx k

/-! ## Clamped lines (R151) -/

theorem clamp_clamp (v lo hi : Int) : clamp (clamp v lo hi) lo hi = clamp v lo hi := by
  unfold clamp
  omega

theorem clamp_of_mem {v lo hi : Int} (hlo : lo ≤ v) (hhi : v ≤ hi) : clamp v lo hi = v := by
  unfold clamp
  omega

theorem clamp_mem {v lo hi : Int} (h : lo ≤ hi) : lo ≤ clamp v lo hi ∧ clamp v lo hi ≤ hi := by
  unfold clamp
  omega

theorem clampedLine_clamp (c : Config) (x0 y0 x1 y1 : Int) :
    clampedLine c (clamp x0 0 (c.width - 1)) (clamp y0 0 (c.height - 1)) (clamp x1 0 (c.width - 1))
      (clamp y1 0 (c.height - 1)) = clampedLine c x0 y0 x1 y1 := by
  simp only [clampedLine, clamp_clamp]

/-- A line between two points of the panel is drawn as it is given. -/
theorem clampedLine_of_inBounds {c : Config} {x0 y0 x1 y1 : Int} (h0 : inBounds c x0 y0 = true)
    (h1 : inBounds c x1 y1 = true) : clampedLine c x0 y0 x1 y1 = linePoints x0 y0 x1 y1 := by
  rw [inBounds_iff] at h0 h1
  rw [clampedLine, clamp_of_mem, clamp_of_mem, clamp_of_mem, clamp_of_mem] <;> omega

theorem inBounds_of_mem_clampedLine {c : Config} (hc : configWf c = true) {x0 y0 x1 y1 : Int} {p : Int × Int}
    (hp : p ∈ clampedLine c x0 y0 x1 y1) : inBounds c p.1 p.2 = true := by
  obtain ⟨hw, -, hh, -, -⟩ := panel_of_configWf hc
  have hbox := linePoints_mem_box hp
  have hx0 := clamp_mem (v := x0) (lo := 0) (hi := c.width - 1) (by omega)
  have hx1 := clamp_mem (v := x1) (lo := 0) (hi := c.width - 1) (by omega)
  have hy0 := clamp_mem (v := y0) (lo := 0) (hi := c.height - 1) (by omega)
  have hy1 := clamp_mem (v := y1) (lo := 0) (hi := c.height - 1) (by omega)
  rw [inBounds_iff]
  omega

/-- The example of R151, in its clamped form, is the row it runs along. -/
theorem clampedLine_example {c : Config} (hc : configWf c = true) (hw : c.width = 128) :
    clampedLine c (-5) 3 200 3 = (List.range 128).map fun k : Nat => ((k : Int), (3 : Int)) := by
  obtain ⟨-, -, hh, -, -⟩ := panel_of_configWf hc
  have hx0 : clamp (-5) 0 (c.width - 1) = 0 := by rw [hw]; rfl
  have hx1 : clamp 200 0 (c.width - 1) = 127 := by rw [hw]; rfl
  have hy : clamp 3 0 (c.height - 1) = 3 := clamp_of_mem (by omega) (by omega)
  rw [clampedLine, hx0, hx1, hy, linePoints_horizontal]
  simp

/-- Settles O30: clamping twice is clamping once (`clampedLine_clamp`), and a line stays in the box of its clamped endpoints
(`linePoints_mem_box`). -/
theorem lineEndpointsAreClamped : Obligations.LineEndpointsAreClamped := by
  refine ⟨fun x0 y0 x1 y1 c s => ?_, fun c x0 y0 x1 y1 hc p hp => ?_, fun c hc hw => clampedLine_example hc hw⟩
  · have hpoints := clampedLine_clamp s.cfg x0 y0 x1 y1
    simp only [clamp] at hpoints
    rw [exec_drawLine, exec_drawLine, hpoints]
  · exact (inBounds_iff c p.1 p.2).1 (inBounds_of_mem_clampedLine hc hp)

/-! ## Points drawn in one colour -/

section

variable (s : State) (c : Color) (ps : List (Int × Int))

/-- Every pixel of the panel, after points are drawn in one colour (R130). -/
theorem State.pixel_drawPoints (hcfg : configWf s.cfg = true) (hfb : Memory.wf (fbSpace s.cfg) s.fb = true) {x y : Nat}
    (hon : OnPanel s x y) :
    (s.draw (inColor c ps)).pixel x y =
      if ((x : Int), (y : Int)) ∈ ps then decide (c = .white) ^^ s.inv else s.pixel x y := by
  obtain ⟨-, -, -, -, h8⟩ := panel_of_configWf hcfg
  rw [← colorBit_eq_decide]
  refine s.pixel_draw_of_color _ c (fun q hq => ?_) h8 hfb hon.1 hon.2 _ ?_
  · obtain ⟨p, -, rfl⟩ := List.mem_map.1 hq
    rfl
  · simp [inColor]

/-- A byte that holds none of the points on the panel, after points are drawn. -/
theorem State.fbByte_drawPoints_of_ne {i : Nat}
    (h : ∀ p ∈ ps, inBounds s.cfg p.1 p.2 = true → i ≠ pixelIndex s.cfg p.1.toNat p.2.toNat) :
    (s.draw (inColor c ps)).fbByte i = s.fbByte i := by
  refine s.fbByte_draw_of_ne _ fun q hq => ?_
  obtain ⟨p, hp, rfl⟩ := List.mem_map.1 hq
  exact h p hp

end

/-! ## DRAW_LINE (R156, R157) -/

/-- Settles O29: the points are drawn in one colour (`State.pixel_drawPoints`), and `AutoFlush` sends the framebuffer that
they leave (`State.autoFlush_flushed`). -/
theorem drawLineDrawsItsPointsAndFlushes : Obligations.DrawLineDrawsItsPointsAndFlushes := by
  rintro x0 y0 x1 y1 c s ⟨hcfg, hfb, -⟩
  have hexec := exec_drawLine s x0 y0 x1 y1 c
  generalize hps : clampedLine s.cfg x0 y0 x1 y1 = ps at hexec
  refine ⟨_, hexec, endedOk_setStatus _, fun x y hon => ?_, fun i hi => ?_, (s.draw (inColor c ps)).autoFlush_flushed,
    ?_, ?_, ?_, ?_, exec_sameInputs hexec, ?_⟩
  · rw [State.pixel_setStatus, State.pixel_autoFlush, s.pixel_drawPoints c ps hcfg hfb hon]
  · rw [State.fbByte_setStatus, State.fbByte_autoFlush, s.fbByte_drawPoints_of_ne c ps fun p hp _ => hi p hp]
  all_goals simp [SameCursor, SameDraws]

/-- What DRAW_LINE between two points of the panel makes of every pixel. -/
theorem exec_drawLine_pixel {s : State} (hs : StateWf s) {x0 y0 x1 y1 : Int} (c : Color)
    (h0 : inBounds s.cfg x0 y0 = true) (h1 : inBounds s.cfg x1 y1 = true) :
    ∃ t, exec (.drawLine x0 y0 x1 y1 c) s = .next t ∧ ∀ x y, OnPanel s x y →
      t.pixel x y =
        if ((x : Int), (y : Int)) ∈ linePoints x0 y0 x1 y1 then decide (c = .white) ^^ s.inv else s.pixel x y := by
  obtain ⟨t, hexec, -, hpixel, -⟩ := drawLineDrawsItsPointsAndFlushes x0 y0 x1 y1 c s hs
  rw [clampedLine_of_inBounds h0 h1] at hpixel
  exact ⟨t, hexec, hpixel⟩

theorem mem_verticalExample (x y : Nat) : ((x : Int), (y : Int)) ∈ linePoints 0 0 0 10 ↔ x = 0 ∧ y ≤ 10 := by
  have hpoints : linePoints 0 0 0 10 = (List.range 11).map fun k : Nat => ((0 : Int), (k : Int)) := by decide
  simp only [hpoints, List.mem_map, List.mem_range, Prod.mk.injEq]
  exact ⟨fun ⟨k, hk, hx, hy⟩ => by omega, fun h => ⟨y, by omega⟩⟩

theorem mem_diagonalExample (x y : Nat) : ((x : Int), (y : Int)) ∈ linePoints 0 0 10 10 ↔ x = y ∧ x ≤ 10 := by
  have hpoints : linePoints 0 0 10 10 = (List.range 11).map fun k : Nat => ((k : Int), (k : Int)) := by decide
  simp only [hpoints, List.mem_map, List.mem_range, Prod.mk.injEq]
  exact ⟨fun ⟨k, hk, hx, hy⟩ => by omega, fun h => ⟨x, by omega⟩⟩

/-- Settles O33: both lines lie on the panel (`exec_drawLine_pixel`), and their points are the ones the rule lists. -/
theorem lineExamplesOfTheSource : Obligations.LineExamplesOfTheSource := by
  intro c s hs hheight
  obtain ⟨hwidth, -⟩ := panel_of_configWf hs.1
  have horigin : inBounds s.cfg 0 0 = true := (inBounds_iff s.cfg 0 0).2 (by omega)
  refine ⟨?_, fun hwide => ?_⟩
  · have hend : inBounds s.cfg 0 10 = true := (inBounds_iff s.cfg 0 10).2 (by omega)
    simpa only [mem_verticalExample] using exec_drawLine_pixel hs c horigin hend
  · have hend : inBounds s.cfg 10 10 = true := (inBounds_iff s.cfg 10 10).2 (by omega)
    simpa only [mem_diagonalExample] using exec_drawLine_pixel hs c horigin hend

/-! ## DRAW_BITMAP (R161) -/

theorem sourceBit_eq_bitmapBit (s : State) (src w j i : Nat) :
    sourceBit s.src (src + j * byteWidth w) i = bitmapBit s src w j i := rfl

/-- Where every source byte it reads is admitted, DRAW_BITMAP draws points, namely those whose source bit is set. -/
theorem exec_drawBitmap_of_readable {s : State} {src w h : Nat} (hread : BitmapReadable s src w h) (x y : Nat) (c : Color) :
    ∃ ps, exec (.drawBitmap x y src w h c) s = .next ((s.draw (inColor c ps)).setStatus .none) ∧
      ∀ p, p ∈ ps ↔ ∃ j i, j < h ∧ i < w ∧ bitmapBit s src w j i = true ∧
        p = (((x + i : Nat) : Int), ((y + j : Nat) : Int)) := by
  obtain ⟨hunmapped, hpoints⟩ := blitRows_spec s.src src w x y h 0
  have hmapped := hunmapped.2 ((bitmapReadable_iff s src w h).1 hread)
  refine ⟨_, (exec_drawBitmap s x y src w h c).trans (if_neg (by simp [hmapped])), fun p => (hpoints hmapped p).trans ?_⟩
  simp [sourceBit_eq_bitmapBit]

/-- Settles O34: the points that the blitter visits (`exec_drawBitmap_of_readable`), drawn in one colour. -/
theorem drawBitmapDrawsTheSetBits : Obligations.DrawBitmapDrawsTheSetBits := by
  rintro x y src w h c s ⟨hcfg, hfb, -⟩ hread
  obtain ⟨ps, hexec, hps⟩ := exec_drawBitmap_of_readable hread x y c
  refine ⟨_, hexec, endedOk_setStatus _, fun px py hon => ?_, fun k hk => ?_, sameButFb_draw_setStatus s _ _⟩
  · rw [State.pixel_setStatus, s.pixel_drawPoints c ps hcfg hfb hon]
    refine if_congr ((hps _).trans ⟨?_, ?_⟩) rfl rfl
    · rintro ⟨j, i, hj, hi, hbit, hp⟩
      simp only [Prod.mk.injEq, Nat.cast_inj] at hp
      obtain ⟨rfl, rfl⟩ := hp
      simp [hj, hi, hbit]
    · rintro ⟨hx, hi, hy, hj, hbit⟩
      exact ⟨py - y, px - x, by omega, by omega, hbit, by simp [hx, hy]⟩
  · rw [State.fbByte_setStatus, s.fbByte_drawPoints_of_ne c ps fun p hp hb => ?_]
    obtain ⟨j, i, hj, hi, hbit, rfl⟩ := (hps p).1 hp
    exact hk i j hi hj ((inBounds_natCast s.cfg _ _).1 hb) hbit

end Sys2Proof.Machine

/-! Proofs of family 42_text: DRAW_CHAR (spec/42_text.md R183), the string loop up to its first failure (R188, R189), and
the texts of numbers (R192, R193). -/

namespace Sys2Proof.Machine

open Sys2Proof

/-! ## The cells of a text -/

theorem textBit_nil (f : Font) (x y px py : Nat) : textBit f [] x y px py = none := by
  simp [textBit]

/-- The text of one character fills one cell. -/
theorem textBit_singleton {f : Font} (ch : Byte) (x y px py : Nat) (hw : 0 < f.width) :
    textBit f [ch] x y px py =
      if x ≤ px ∧ px < x + f.width ∧ y ≤ py ∧ py < y + f.height then some (glyphBit f ch (py - y) (px - x)) else none := by
  rw [textBit_cons ch [] x y px py hw, textBit_nil]

/-- Where no character is drawn, no byte changes. -/
theorem TextDrawn.sameBytes {f : Font} {c : Color} {x y : Nat} {s t : State} (h : TextDrawn f c [] x y s t) :
    SameBytes s t :=
  fun i => h.2 i fun px py hcell => absurd (textBit_nil f x y px py) hcell

/-! ## DRAW_CHAR -/

/-- A glyph that fits, drawn at the cursor: the text of one character (R183). -/
theorem State.textDrawn_putGlyph {s : State} {f : Font} (c : Color) (ch : Byte) (hs : StateWf s) (hf : fontWf f = true)
    (hx : s.cx.toNat + f.width ≤ s.cfg.width) (hy : s.cy.toNat + f.height ≤ s.cfg.height) :
    TextDrawn f c [ch] s.cx.toNat s.cy.toNat s (s.putGlyph f c ch) := by
  obtain ⟨hcfg, hfb, -⟩ := hs
  obtain ⟨-, hW, -, -, h8⟩ := panel_of_configWf hcfg
  exact State.textDrawn_putGlyphs c [ch] hf hW h8 hfb fun _ => ⟨by simpa using hx, hy⟩

/-- Settles O36: the character is drawn (`putChar_of_fits`), and what is drawn is the text of one character
(`State.textDrawn_putGlyph`), whose cell is its glyph's (`textBit_singleton`). -/
theorem drawCharDrawsAnOpaqueGlyph : Obligations.DrawCharDrawsAnOpaqueGlyph := by
  intro ch font c s f hs hf hx hy hlo hhi
  obtain ⟨-, hW, -⟩ := panel_of_configWf hs.1
  have hfont := fontWf_of_getElem hs.1 hf
  obtain ⟨-, -, hw, -⟩ := font_bounds hfont
  have hexec := exec_drawChar s ch font c hf
  rw [putChar_of_fits hx hy ⟨hlo, hhi⟩] at hexec
  obtain ⟨hpixels, hbytes⟩ := State.textDrawn_putGlyph c ch hs hfont hx hy
  simp only [textBit_singleton ch _ _ _ _ hw] at hpixels hbytes
  refine ⟨_, hexec, endedOk_setStatus _, fun i j hi hj => ?_, fun x y hon hout => ?_, fun k hk => ?_,
    State.putGlyph_cx c ch hW hx, rfl, rfl, rfl, rfl, rfl, exec_sameInputs hexec, rfl, rfl⟩
  · rw [State.pixel_setStatus, State.pixel_setResult, hpixels _ _ (by omega) (by omega), if_pos (by omega),
      Nat.add_sub_cancel_left, Nat.add_sub_cancel_left, colorBit_eq_decide]
    rfl
  · rw [State.pixel_setStatus, State.pixel_setResult, hpixels x y hon.1 hon.2, if_neg hout]
  · refine hbytes k fun px py hcell => ?_
    obtain ⟨hpx, hpx', hpy, hpy'⟩ := (ite_ne_right_iff.1 hcell).1
    have := hk (py - s.cy.toNat) (px - s.cx.toNat) (by omega) (by omega)
    rwa [Nat.add_sub_cancel' hpx, Nat.add_sub_cancel' hpy] at this

/-! ## The first character that fails -/

/-- The position of a text is a pair of 16-bit operands (R102). -/
theorem textJob_position_lt {i : Instr} {s : State} {job : TextJob} (hi : WellFormed i) (hj : textJob s i = some job) :
    job.x < 65536 ∧ job.y < 65536 := by
  cases i with
  | drawString | drawNumber | drawSignedNumber =>
    cases hj
    simp only [WellFormed, Instr.wf, Bool.and_eq_true, fitsU_iff] at hi
    obtain ⟨⟨⟨hx, hy⟩, -⟩, -⟩ := hi
    exact ⟨hx, hy⟩
  | _ => cases hj

/-- The error of a character that fails: the fit is checked first (R180). -/
theorem putChar_failure {f : Font} (c : Color) {ch : Byte} {s : State}
    (h : s.cfg.width < s.cx.toNat + f.width ∨ s.cfg.height < s.cy.toNat + f.height ∨
      ch.toNat < f.base ∨ f.base + f.count ≤ ch.toNat) :
    putChar f c ch s =
      .error (if s.cfg.width < s.cx.toNat + f.width ∨ s.cfg.height < s.cy.toNat + f.height then .textOverflow
        else .glyphRange) := by
  split_ifs with hfit
  · exact putChar_overflow c ch hfit
  · exact putChar_glyphRange c (by omega) (by omega) (by omega)

section

variable {s : State} {x y : Nat}

theorem State.cursorAt_cx_toNat (hx : x < 65536) : (s.cursorAt x y).cx.toNat = x := Nat.mod_eq_of_lt hx

theorem State.cursorAt_cy_toNat (hy : y < 65536) : (s.cursorAt x y).cy.toNat = y := Nat.mod_eq_of_lt hy

variable {f : Font} (c : Color) {cs : List Byte} (hs : StateWf s) (hx : x < 65536)
  (hfit : cs ≠ [] → x + cs.length * f.width ≤ s.cfg.width ∧ y + f.height ≤ s.cfg.height)
include hs hx hfit

/-- After the characters of a text the cursor is just after the last (R186). -/
theorem State.cx_putGlyphs_cursorAt :
    ((s.cursorAt x y).putGlyphs f c cs).cx.toNat = x + cs.length * f.width := by
  obtain ⟨-, hW, -⟩ := panel_of_configWf hs.1
  have hcx := State.putGlyphs_cx (s := s.cursorAt x y) (f := f) c cs hW
  rw [State.cursorAt_cx_toNat hx] at hcx
  exact hcx fun hne => (hfit hne).1

/-- The characters of a text, drawn from its position (R186). -/
theorem State.textDrawn_cursorAt (hy : y < 65536) (hf : fontWf f = true) :
    TextDrawn f c cs x y s ((s.cursorAt x y).putGlyphs f c cs) := by
  obtain ⟨hcfg, hfb, -⟩ := hs
  obtain ⟨-, hW, -, -, h8⟩ := panel_of_configWf hcfg
  have hdrawn := State.textDrawn_putGlyphs (s := s.cursorAt x y) (f := f) c cs hf hW h8 hfb
  rw [State.cursorAt_cx_toNat hx, State.cursorAt_cy_toNat hy] at hdrawn
  exact hdrawn hfit

end

/-- A string or number command comes, past the characters that fit and have glyphs, to the character after them. -/
theorem exec_textJob_of_fits {i : Instr} {s : State} {job : TextJob} {f : Font} {cs : List Byte} {ch : Byte}
    (hi : WellFormed i) (hs : StateWf s) (hj : textJob s i = some job) (hf : s.cfg.fonts[job.font]? = some f)
    (hyields : Yields job.next cs) (hch : job.next cs.length = some ch)
    (hfit : cs ≠ [] → job.x + cs.length * f.width ≤ s.cfg.width ∧ job.y + f.height ≤ s.cfg.height)
    (hglyphs : ∀ d ∈ cs, f.base ≤ d.toNat ∧ d.toNat < f.base + f.count) :
    ∃ rest, exec i s =
      conclude (putChars f job.color (ch :: rest) ((s.cursorAt job.x job.y).putGlyphs f job.color cs)) := by
  obtain ⟨-, hW, -⟩ := panel_of_configWf hs.1
  obtain ⟨hx, hy⟩ := textJob_position_lt hi hj
  obtain ⟨chars, hexec, hchars⟩ := exec_textJob s hj hf
  obtain ⟨rest, rfl⟩ := (hchars cs hyields).1 ch hch
  have hnz : ∀ d ∈ cs, d ≠ 0 := by
    rintro d hd rfl
    obtain ⟨k, hk, hget⟩ := List.mem_iff_getElem.1 hd
    exact (hyields k hk).2 (by rw [List.getElem?_eq_getElem hk, hget])
  refine ⟨rest, hexec.trans (congrArg conclude (putChars_append _ cs _ hW hnz hglyphs fun hne => ?_))⟩
  rw [State.cursorAt_cx_toNat hx, State.cursorAt_cy_toNat hy]
  exact hfit hne

/-- Settles O40: past the characters that are drawn (`exec_textJob_of_fits`), the one that fails ends the loop at once
(`putChars_failure`), with the error that its check names (`putChar_failure`). -/
theorem textStopsAtTheFirstFailure : Obligations.TextStopsAtTheFirstFailure := by
  intro i s job f cs ch hi hs hj hf hyields hch hnz hfit hglyphs hfail
  obtain ⟨hx, hy⟩ := textJob_position_lt hi hj
  have hcx := State.cx_putGlyphs_cursorAt job.color hs hx hfit
  have hcy : ((s.cursorAt job.x job.y).putGlyphs f job.color cs).cy.toNat = job.y :=
    (congrArg BitVec.toNat (State.putGlyphs_cy _ f job.color cs)).trans (State.cursorAt_cy_toNat hy)
  have hdrawn := State.textDrawn_cursorAt job.color hs hx hfit hy (fontWf_of_getElem hs.1 hf)
  obtain ⟨rest, hexec⟩ := exec_textJob_of_fits hi hs hj hf hyields hch hfit hglyphs
  have hnext : job.x + (cs.length + 1) * f.width = job.x + cs.length * f.width + f.width := by ring
  have hput := putChar_failure (f := f) job.color (ch := ch) (s := (s.cursorAt job.x job.y).putGlyphs f job.color cs)
  rw [State.putGlyphs_cfg, State.cursorAt_cfg, hcx, hcy, ← hnext] at hput
  rw [putChars_failure rest hnz (hput hfail), conclude_raiseErr] at hexec
  refine ⟨_, hexec, endedWith_setStatus _ (by split_ifs <;> decide), hdrawn, rfl, hcx, hcy, ?_, ?_, ?_,
    exec_sameInputs hexec, ?_⟩
  all_goals simp [SameDraws]

/-- DRAW_STRING at the first character that fails, at index `k` of its characters (R188). -/
theorem exec_drawString_fails_at {x y src font : Nat} {c : Color} {s : State} {f : Font} {cs : List Byte}
    (hi : WellFormed (.drawString x y src font c)) (hs : StateWf s) (hf : s.cfg.fonts[font]? = some f)
    (hyields : Yields (fun k => s.memRead (src + k)) cs) {k : Nat} (hk : k < cs.length)
    (hfit : k ≠ 0 → x + f.width * k ≤ s.cfg.width ∧ y + f.height ≤ s.cfg.height)
    (hglyphs : ∀ d ∈ cs.take k, f.base ≤ d.toNat ∧ d.toNat < f.base + f.count)
    (hfail : s.cfg.width < x + f.width * (k + 1) ∨ s.cfg.height < y + f.height ∨
      cs[k].toNat < f.base ∨ f.base + f.count ≤ cs[k].toNat) :
    ∃ t, exec (.drawString x y src font c) s = .next t ∧
      EndedWith (if s.cfg.width < x + f.width * (k + 1) ∨ s.cfg.height < y + f.height then .textOverflow
        else .glyphRange) t ∧
      some t.result = (cs[k]?).map (BitVec.setWidth 32) ∧ TextDrawn f c (cs.take k) x y s t := by
  have hget := List.getElem?_eq_getElem hk
  have hlen : (cs.take k).length = k := List.length_take_of_le hk.le
  obtain ⟨hread, hnz⟩ := hyields k hk
  have hread' : s.memRead (src + (cs.take k).length) = some cs[k] := by rw [hlen, ← hget]; exact hread
  have hnz' : cs[k] ≠ 0 := fun h0 => hnz (hget.trans (congrArg some h0))
  have htake : Yields (fun k => s.memRead (src + k)) (cs.take k) := fun j hj => by
    rw [hlen] at hj
    rw [List.getElem?_take_of_lt hj]
    exact hyields j (hj.trans hk)
  have hne (h : cs.take k ≠ []) : k ≠ 0 := fun h0 => h (by rw [h0, List.take_zero])
  have hstops := textStopsAtTheFirstFailure (.drawString x y src font c) s _ f (cs.take k) cs[k] hi hs rfl hf htake
    hread' hnz'
  simp only [hlen, Nat.mul_comm _ f.width] at hstops
  obtain ⟨t, hexec, hended, hdrawn, hresult, -⟩ := hstops (fun h => hfit (hne h)) hglyphs hfail
  exact ⟨t, hexec, hended, by rw [hget, hresult]; rfl, hdrawn⟩

/-- Settles O41: each clause names the index of the first character that fails, for `exec_drawString_fails_at`: the least
one past the row's end, the first one of all, and the one without a glyph. -/
theorem tooWideStringReportsFirstOverflow : Obligations.TooWideStringReportsFirstOverflow := by
  intro x y src font c s f cs hi hs hf hne hyields
  have hlen : 0 < cs.length := List.length_pos_of_ne_nil hne
  refine ⟨fun hglyphs hy hwide => ?_, fun hlow => ?_, fun k hk hy hfits hglyphs hnoGlyph => ?_⟩
  · have hlast : s.cfg.width < x + f.width * (cs.length - 1 + 1) := by rwa [Nat.sub_add_cancel hlen]
    have hex : ∃ k, s.cfg.width < x + f.width * (k + 1) := ⟨_, hlast⟩
    have hk : Nat.find hex < cs.length := by
      have := Nat.find_min' hex hlast
      omega
    have hbefore : ∀ j < Nat.find hex, x + f.width * (j + 1) ≤ s.cfg.width := fun j hj =>
      Nat.le_of_not_lt (Nat.find_min hex hj)
    have hfits (h0 : Nat.find hex ≠ 0) : x + f.width * Nat.find hex ≤ s.cfg.width := by
      have := hbefore (Nat.find hex - 1) (by omega)
      rwa [Nat.sub_add_cancel (Nat.pos_of_ne_zero h0)] at this
    obtain ⟨t, hexec, hended, hresult, hdrawn⟩ := exec_drawString_fails_at hi hs hf hyields hk
      (fun h0 => ⟨hfits h0, hy⟩)
      (fun d hd => hglyphs d (List.mem_of_mem_take hd)) (.inl (Nat.find_spec hex))
    rw [if_pos (.inl (Nat.find_spec hex))] at hended
    exact ⟨_, t, hk, Nat.find_spec hex, hbefore, hexec, hended, hresult, hdrawn⟩
  · obtain ⟨t, hexec, hended, hresult, hdrawn⟩ := exec_drawString_fails_at hi hs hf hyields hlen
      (absurd rfl) (by simp) (.inr (.inl hlow))
    rw [if_pos (.inr hlow)] at hended
    exact ⟨t, hexec, hended, by rwa [List.head?_eq_getElem?], hdrawn.sameBytes⟩
  · have hwidth : f.width * k ≤ f.width * (k + 1) := Nat.mul_le_mul_left _ k.le_succ
    obtain ⟨t, hexec, hended, hresult, hdrawn⟩ := exec_drawString_fails_at hi hs hf hyields hk
      (fun _ => ⟨by omega, hy⟩) hglyphs (.inr (.inr (hnoGlyph _ (List.getElem?_eq_getElem hk))))
    rw [if_neg (by omega)] at hended
    exact ⟨t, hexec, hended, hresult, hdrawn⟩

/-! ## The digits of a number (R192) -/

/-- With fuel for its digits, the loop puts the digits of a number in base 10 before `acc`. -/
theorem decFrom_eq_digits {fuel n : Nat} (hfuel : n < fuel) (hn : n ≠ 0) (acc : List Byte) :
    decFrom fuel n acc = (Nat.digits 10 n).reverse.map digitCode ++ acc := by
  induction fuel generalizing n acc with
  | zero => omega
  | succ fuel ih =>
    rw [decFrom, Nat.digits_def' (by decide) (Nat.pos_of_ne_zero hn)]
    split_ifs with hlast
    · simp [hlast]
    · rw [ih (by omega) hlast]
      simp

theorem dec_zero : dec 0 = [0x30] := by decide

theorem dec_eq_digits {n : Nat} (hn : n ≠ 0) : dec n = (Nat.digits 10 n).reverse.map digitCode :=
  (decFrom_eq_digits n.lt_succ_self hn []).trans (List.append_nil _)

theorem digitCode_toNat {d : Nat} (hd : d < 10) : (digitCode d).toNat = 0x30 + d := by
  rw [digitCode, BitVec.toNat_ofNat]
  omega

/-- Every code of `dec` is that of a digit of the number. -/
theorem exists_digit_of_mem_dec {n : Nat} {b : Byte} (hb : b ∈ dec n) : ∃ d < 10, b = digitCode d := by
  by_cases hn : n = 0
  · rw [hn, dec_zero, List.mem_singleton] at hb
    exact ⟨0, by decide, hb⟩
  · rw [dec_eq_digits hn, List.mem_map] at hb
    obtain ⟨d, hd, rfl⟩ := hb
    exact ⟨d, Nat.digits_lt_base (by decide) (List.mem_reverse.1 hd), rfl⟩

/-- Read as digits, the codes are the digits of the number, most significant first. -/
theorem map_dec {n : Nat} (hn : n ≠ 0) : (dec n).map (fun b => b.toNat - 0x30) = (Nat.digits 10 n).reverse := by
  rw [dec_eq_digits hn, List.map_map]
  refine (List.map_congr_left fun d hd => ?_).trans (List.map_id _)
  have hlt : d < 10 := Nat.digits_lt_base (by decide) (List.mem_reverse.1 hd)
  simp [digitCode_toNat hlt]

/-- Read in base 10, the codes give the number. -/
theorem foldl_dec (n : Nat) : (dec n).foldl (fun a b => a * 10 + (b.toNat - 0x30)) 0 = n := by
  by_cases hn : n = 0
  · rw [hn, dec_zero]
    rfl
  · calc (dec n).foldl (fun a b => a * 10 + (b.toNat - 0x30)) 0
        = ((dec n).map fun b => b.toNat - 0x30).foldl (fun a d => a * 10 + d) 0 := by rw [List.foldl_map]
      _ = (Nat.digits 10 n).foldr (fun d a => a * 10 + d) 0 := by rw [map_dec hn, List.foldl_reverse]
      _ = Nat.ofDigits 10 (Nat.digits 10 n) := by simp [Nat.ofDigits_eq_foldr, Nat.mul_comm, Nat.add_comm]
      _ = n := Nat.ofDigits_digits 10 n

/-- A number that is not 0 does not begin with the digit 0. -/
theorem dec_eq_cons {n : Nat} (hn : n ≠ 0) : ∃ b rest, dec n = b :: rest ∧ b ≠ 0x30 := by
  have hne : Nat.digits 10 n ≠ [] := Nat.digits_ne_nil_iff_ne_zero.2 hn
  have hlast : (Nat.digits 10 n).getLast hne ≠ 0 := Nat.getLast_digit_ne_zero 10 hn
  have hlt : (Nat.digits 10 n).getLast hne < 10 := Nat.digits_lt_base (by decide) (List.getLast_mem hne)
  refine ⟨digitCode ((Nat.digits 10 n).getLast hne), (Nat.digits 10 n).dropLast.reverse.map digitCode, ?_, fun h => ?_⟩
  · rw [dec_eq_digits hn, ← List.map_cons, ← List.reverse_concat, List.dropLast_append_getLast]
  · have hcode : 0x30 = 0x30 + (Nat.digits 10 n).getLast hne :=
      (congrArg BitVec.toNat h).symm.trans (digitCode_toNat hlt)
    omega

/-- Settles O43: `dec` is the list of the number's digits in base 10 (`dec_eq_digits`), read off clause by clause. -/
theorem decimalTextSpellsTheNumber : Obligations.DecimalTextSpellsTheNumber := by
  refine ⟨fun n => ⟨fun b hb => ?_, foldl_dec n, dec_eq_cons⟩, dec_zero, fun _ => rfl⟩
  obtain ⟨d, hd, rfl⟩ := exists_digit_of_mem_dec hb
  rw [digitCode_toNat hd]
  omega

/-! ## The longest numbers (R193) -/

theorem length_dec_le {n k : Nat} (hk : 0 < k) (hn : n < 10 ^ k) : (dec n).length ≤ k := by
  by_cases h0 : n = 0
  · rw [h0, dec_zero]
    exact hk
  · rw [dec_eq_digits h0, List.length_map, List.length_reverse]
    exact (Nat.digits_length_le_iff (by decide) n).2 hn

/-- Settles O44: a number below 10^10 has at most ten digits (`length_dec_le`). -/
theorem numberTextFitsItsBuffer : Obligations.NumberTextFitsItsBuffer := by
  refine ⟨fun v hv => ?_, fun v hlo hhi => ?_, rfl⟩
  · have hdigits : (dec v).length ≤ 10 := length_dec_le (by decide) (by omega)
    simpa [numberText, Nat.lt_succ_iff] using hdigits
  · have hdigits : (dec v.natAbs).length ≤ 10 := length_dec_le (by decide) (by omega)
    simpa [signedText, Nat.succ_lt_succ_iff, Nat.lt_succ_iff] using hdigits

end Sys2Proof.Machine

/-! Proofs of family 43_controller: UPDATE (spec/43_controller.md R213, R215), CLEAR (R219), INIT (R225, R226), the commands
that send a list (R230 to R240), the gate (R210), and which commands send framebuffer contents (R214). What a command that ends
appends to `BUSLOG` is said once (`CommandEnds.busTraffic`). -/

namespace Sys2Proof.Machine

open Sys2Proof

/-! ## Sending, and a refusal to send, leave the rest alone -/

theorem sameButBus_withLog_setStatus (s : State) (log : List BusTxn) (e : ErrCode) :
    SameButBus s ({ s with busLog := log }.setStatus e) := by
  simp [SameButBus, SameBytes, SameCursor, SameInputs, SameDraws, State.fbByte]

theorem sameButStatus_setStatus (s : State) (e : ErrCode) : SameButStatus s (s.setStatus e) := by
  simp [SameButStatus, SameButFb, SameBytes, SameCursor, SameInputs, SameDraws]

/-- What a command leaves that does nothing but raise NOT_READY, as one that may not send does (R210, R250). -/
theorem notReady_setStatus (s : State) :
    EndedWith .notReady (s.setStatus .notReady) ∧ SameButStatus s (s.setStatus .notReady) :=
  ⟨endedWith_setStatus s (by decide), sameButStatus_setStatus s _⟩

/-! ## UPDATE -/

/-- The four transactions of page `m` in a page transfer, by position (R211). -/
theorem transferTxns_page (s : State) {m : Nat} (hm : m < s.cfg.pages) :
    (∀ b, s.cfg.pageSel[m]? = some b → (transferTxns s.cfg s.fb)[4 * m]? = some (.cmd s.cfg.devAddr b)) ∧
      (transferTxns s.cfg s.fb)[4 * m + 1]? = some (.cmd s.cfg.devAddr s.cfg.colLo) ∧
      (transferTxns s.cfg s.fb)[4 * m + 2]? = some (.cmd s.cfg.devAddr s.cfg.colHi) ∧
      (transferTxns s.cfg s.fb)[4 * m + 3]? =
        some (.data s.cfg.devAddr ((List.range s.cfg.width).map fun k => s.fbByte (m * s.cfg.width + k))) := by
  have at_position {k : Nat} (hk : k < 4) : (transferTxns s.cfg s.fb)[4 * m + k]? = (pageTxns s.cfg s.fb m)[k]? :=
    getElem?_transferTxns s.cfg s.fb hm hk
  refine ⟨fun b hb => ?_, at_position (by decide), at_position (by decide), at_position (by decide)⟩
  have hsel : pageSelect s.cfg m = b := by simp [pageSelect, hb]
  exact hsel ▸ at_position (k := 0) (by decide)

/-- Settles O45: with the bus open UPDATE appends one page transfer, whose pages are read by position (`transferTxns_page`)
and whose blocks are the framebuffer (`block_transferTxns`). -/
theorem updateSendsEveryPage : Obligations.UpdateSendsEveryPage := by
  refine fun s => ⟨fun hopen => ?_, fun hclosed => ?_⟩
  · have hexec := exec_update s
    rw [if_pos ((busOpen_iff s).2 hopen)] at hexec
    exact ⟨_, transferTxns s.cfg s.fb, hexec, endedOk_setStatus _, sameButBus_withLog_setStatus s _ _, rfl,
      length_transferTxns _ _, fun m hm => transferTxns_page s hm, block_transferTxns _ _⟩
  · have hexec := exec_update s
    rw [if_neg (mt (busOpen_iff s).1 hclosed)] at hexec
    exact ⟨_, hexec, notReady_setStatus s⟩

/-! ## CLEAR -/

/-- Settles O46: CLEAR is FILL in black, whether the bus is open or not, and then the transfer or NOT_READY. -/
theorem clearClearsThenTransfers : Obligations.ClearClearsThenTransfers := by
  intro s
  have hzero {i : Nat} (hi : i < s.cfg.size) : (s.fill .black).fbByte i = 0x00 := s.fbByte_setBytes _ hi
  have hexec := exec_clear s
  by_cases hopen : BusIsOpen s
  · rw [if_pos ((busOpen_iff s).2 hopen)] at hexec
    refine ⟨_, hexec, fun i hi => hzero hi, ?_, ⟨rfl, rfl⟩, rfl, rfl, rfl, exec_sameInputs hexec, rfl, rfl⟩
    rw [if_pos hopen]
    exact ⟨endedOk_setStatus _, rfl⟩
  · rw [if_neg (mt (busOpen_iff s).1 hopen)] at hexec
    refine ⟨_, hexec, fun i hi => hzero hi, ?_, ⟨rfl, rfl⟩, rfl, rfl, rfl, exec_sameInputs hexec, rfl, rfl⟩
    rw [if_neg hopen]
    exact ⟨endedWith_setStatus _ (by decide), rfl⟩

/-! ## INIT -/

/-- After a probe that answered READY: the probe, the script, and a transfer of the cleared framebuffer (R226). -/
theorem State.initEffect_busLog_ready {s : State} (h : s.nextProbe = .ready) :
    s.initEffect.busLog =
      s.busLog ++ [.probe s.cfg.devAddr .ready] ++ s.cfg.initScript.map (.cmd s.cfg.devAddr) ++
        transferTxns s.initEffect.cfg s.initEffect.fb := by
  rw [s.initEffect_ready h, ← h]
  rfl

/-- After a probe that answered NOT_READY: the probe alone (R226). -/
theorem State.initEffect_busLog_notReady {s : State} (h : s.nextProbe = .notReady) :
    s.initEffect.busLog = s.busLog ++ [.probe s.cfg.devAddr .notReady] := by
  rw [s.initEffect_notReady h, ← h]
  rfl

/-- INIT probes first, whatever the answer (R226). -/
theorem State.initEffect_busLog_probe (s : State) :
    ∃ more, s.initEffect.busLog = s.busLog ++ .probe s.cfg.devAddr s.nextProbe :: more := by
  cases h : s.nextProbe with
  | ready => exact ⟨_, by rw [s.initEffect_busLog_ready h, List.append_assoc, List.append_assoc]; rfl⟩
  | notReady => exact ⟨[], s.initEffect_busLog_notReady h⟩

theorem State.initEffect_ctrl (s : State) : s.initEffect.ctrl = .ready ∨ s.initEffect.ctrl = .failed := by
  cases h : s.nextProbe with
  | ready => exact .inl (by rw [s.initEffect_ready h]; rfl)
  | notReady => exact .inr (by rw [s.initEffect_notReady h])

/-- `STATUS` of an engine that is READY and not inverted, after a command that ended without an error (R43). -/
theorem statusWord_of_endedOk {t : State} (h : EndedOk t) (hctrl : t.ctrl = .ready) (hinv : t.inv = false) :
    statusWord t = 0x00003201 := by
  obtain ⟨hok, herr, hbusy⟩ := h
  simp [statusWord, State.initialized, ErrCode.code, Ctrl.code, hok, herr, hbusy, hctrl, hinv]

/-- Settles O47: the two answers are the two forms of `State.initEffect`. -/
theorem initFollowsTheProbe : Obligations.InitFollowsTheProbe := by
  refine fun s => ⟨fun hprobe => ?_, fun hprobe => ?_⟩
  · have hexec := exec_init s
    have hlog := s.initEffect_busLog_ready hprobe
    rw [hprobe] at hexec
    rw [s.initEffect_ready hprobe] at hexec hlog
    exact ⟨_, hexec, endedOk_setStatus _, fun i hi => s.fbByte_setBytes (fun _ => fillByte .black) hi, rfl, rfl, rfl, rfl,
      rfl, exec_sameInputs hexec, hlog, fun hinv => statusWord_of_endedOk (endedOk_setStatus _) rfl hinv⟩
  · have hexec := exec_init s
    have hlog := s.initEffect_busLog_notReady hprobe
    rw [hprobe] at hexec
    rw [s.initEffect_notReady hprobe] at hexec hlog
    exact ⟨_, hexec, endedWith_setStatus _ (by decide), fun i => rfl, ⟨rfl, rfl⟩, rfl, rfl, rfl, exec_sameInputs hexec, hlog⟩

/-! ## Who changes `ctrl` (R225) -/

theorem CommandEnds.ctrl_eq {s u : State} {i : Instr} {e : ErrCode} (h : CommandEnds s i u e) (hi : i ≠ .init) :
    u.ctrl = s.ctrl := by
  cases h with
  | init => exact absurd rfl hi
  | text f c cs ch _ hstart _ => obtain rfl | ⟨x, y, rfl⟩ := hstart <;> simp
  | textFlushed f c cs _ _ hstart => obtain rfl | ⟨x, y, rfl⟩ := hstart <;> simp
  | drawLine => exact State.autoFlush_ctrl _
  | _ => rfl

/-- Settles O49: INIT's two answers leave READY and FAILED (`State.initEffect_ctrl`), and no other way for a command to end
touches `ctrl` (`CommandEnds.ctrl_eq`). -/
theorem onlyInitChangesCtrl : Obligations.OnlyInitChangesCtrl := by
  refine ⟨fun s => ⟨_, exec_init s, s.initEffect_ctrl⟩, fun i s t h hi => ?_⟩
  obtain ⟨u, e, hu, rfl⟩ := exec_next_cases h
  exact hu.ctrl_eq hi

/-! ## The commands that send a list -/

/-- Settles O50: the seven commands are one operation on their list (`exec_controller`). -/
theorem controllerCommandsSendTheirLists : Obligations.ControllerCommandsSendTheirLists := by
  refine fun i bs s hbytes => ⟨fun hopen => ?_, fun hclosed => ?_⟩
  · have hexec := exec_controller s hbytes
    rw [if_pos ((busOpen_iff s).2 hopen)] at hexec
    exact ⟨_, hexec, endedOk_setStatus _, rfl, sameButBus_withLog_setStatus s _ _⟩
  · have hexec := exec_controller s hbytes
    rw [if_neg (mt (busOpen_iff s).1 hclosed)] at hexec
    exact ⟨_, hexec, notReady_setStatus s⟩

/-! ## What a command appends to `BUSLOG` -/

/-- What the command `i` sends between `s` and `u`: nothing; or, with the bus open, a list of command bytes or a transfer of
the framebuffer it leaves; or what INIT sends, gate or no gate (R210, R214). -/
inductive BusTraffic (i : Instr) (s u : State) : Prop
  | silent (hlog : u.busLog = s.busLog)
  | commands (hopen : busOpen s = true) (bs : List Byte) (hlog : u.busLog = s.busLog ++ bs.map (.cmd s.cfg.devAddr))
  | transfer (hopen : busOpen s = true) (hmay : mayTransfer i = true)
    (hlog : u.busLog = s.busLog ++ transferTxns u.cfg u.fb)
  | init (hinit : i = .init) (heffect : u = s.initEffect)

/-- `AutoFlush`, at the end of a command that has sent nothing before, is silent or a transfer (R212). -/
theorem BusTraffic.autoFlush {i : Instr} {s v : State} (hlog : v.busLog = s.busLog) (hgate : busOpen v = busOpen s)
    (hmay : mayTransfer i = true) : BusTraffic i s v.autoFlush := by
  unfold State.autoFlush
  split
  · next hflush => exact .transfer (hgate ▸ (Bool.and_eq_true_iff.1 hflush).2) hmay (hlog ▸ v.transfer_busLog)
  · exact .silent hlog

/-- Everything that a command that ends can send. -/
theorem CommandEnds.busTraffic {s u : State} {i : Instr} {e : ErrCode} (h : CommandEnds s i u e) : BusTraffic i s u := by
  cases h with
  | drawLine => exact .autoFlush rfl rfl rfl
  | update hopen => exact .transfer hopen rfl rfl
  | clear hopen => exact .transfer hopen rfl rfl
  | init => exact .init rfl rfl
  | controller _ hopen => exact .commands hopen _ rfl
  | text f c cs ch _ hstart _ => obtain rfl | ⟨x, y, rfl⟩ := hstart <;> exact .silent (by simp)
  | textFlushed f c cs _ hmay hstart =>
    refine .autoFlush ?_ (busOpen_congr ?_ ?_) hmay
    all_goals obtain rfl | ⟨x, y, rfl⟩ := hstart <;> simp
  | _ => exact .silent rfl

/-- With the bus closed, only INIT sends (R210). -/
theorem exec_busLog_of_closed {i : Instr} {s t : State} (hclosed : ¬BusIsOpen s) (hi : i ≠ .init)
    (h : exec i s = .next t) : t.busLog = s.busLog := by
  have hgate : ¬busOpen s = true := mt (busOpen_iff s).1 hclosed
  obtain ⟨u, e, hu, rfl⟩ := exec_next_cases h
  cases hu.busTraffic with
  | silent hlog => exact hlog
  | commands hopen => exact absurd hopen hgate
  | transfer hopen => exact absurd hopen hgate
  | init hinit => exact absurd hinit hi

/-- Settles O52: the gate is `busOpen_iff`; a closed one silences every command but INIT (`exec_busLog_of_closed`), which
begins with its probe (`State.initEffect_busLog_probe`). -/
theorem busStaysSilentWhileClosed : Obligations.BusStaysSilentWhileClosed := by
  refine ⟨busOpen_iff, fun i s t hclosed hi h => exec_busLog_of_closed hclosed hi h, fun s => ?_⟩
  obtain ⟨more, hmore⟩ := s.initEffect_busLog_probe
  exact ⟨_, more, exec_init s, hmore⟩

/-! ## Which transactions carry framebuffer contents (R214) -/

theorem block_init (c : Config) (a : ProbeAnswer) :
    ∀ x ∈ [BusTxn.probe c.devAddr a] ++ c.initScript.map (.cmd c.devAddr), x.block = [] := by
  intro x hx
  rcases List.mem_append.1 hx with hprobe | hcmd
  · rw [List.mem_singleton.1 hprobe]
    rfl
  · exact block_cmds _ _ x hcmd

/-- `BUSLOG` of `t` is that of `s` with transactions that carry no block, and then, where the command `i` may make one, at most
one transfer of the framebuffer of `t`. -/
def SendsPixelsLast (i : Instr) (s t : State) : Prop :=
  ∃ more, (∀ x ∈ more, x.block = []) ∧
    (t.busLog = s.busLog ++ more ∨ (mayTransfer i = true ∧ t.busLog = s.busLog ++ more ++ transferTxns t.cfg t.fb))

theorem State.initEffect_sendsPixelsLast (s : State) : SendsPixelsLast .init s s.initEffect := by
  cases h : s.nextProbe with
  | ready => exact ⟨_, block_init s.cfg .ready, .inr ⟨rfl, by rw [s.initEffect_busLog_ready h, List.append_assoc s.busLog]⟩⟩
  | notReady => exact ⟨[.probe s.cfg.devAddr .notReady], by simp [BusTxn.block], .inl (s.initEffect_busLog_notReady h)⟩

theorem CommandEnds.sendsPixelsLast {s u : State} {i : Instr} {e : ErrCode} (h : CommandEnds s i u e) :
    SendsPixelsLast i s u := by
  cases h.busTraffic with
  | silent hlog => exact ⟨[], by simp, .inl (by simp [hlog])⟩
  | commands _ bs hlog => exact ⟨_, block_cmds s.cfg.devAddr bs, .inl hlog⟩
  | transfer _ hmay hlog => exact ⟨[], by simp, .inr ⟨hmay, by simp [hlog]⟩⟩
  | init hinit heffect =>
    subst hinit heffect
    exact s.initEffect_sendsPixelsLast

/-- Settles O54: read off what each command sends (`CommandEnds.sendsPixelsLast`); the status write leaves the log and the
framebuffer alone. -/
theorem onlyTransfersSendPixels : Obligations.OnlyTransfersSendPixels := by
  intro i s t h
  obtain ⟨u, e, hu, rfl⟩ := exec_next_cases h
  exact hu.sendsPixelsLast

end Sys2Proof.Machine

/-! Proofs of family 70_reset_and_hazards: the width and alignment of the host's accesses (spec/70_reset_and_hazards.md R292). -/

namespace Sys2Proof.Machine

/-! ## Misshapen accesses -/

theorem AccessWidth.bytes_pos (width : AccessWidth) : 0 < width.bytes := by cases width <;> decide

theorem AccessWidth.bytes_le (width : AccessWidth) : width.bytes ≤ 8 := by cases width <;> decide

theorem AccessWidth.bytes_eq_one_iff {width : AccessWidth} : width.bytes = 1 ↔ width = .byte := by
  cases width <;> decide

theorem AccessWidth.bytes_eq_four_iff {width : AccessWidth} : width.bytes = 4 ↔ width = .word := by
  cases width <;> decide

/-- A register is reached by an aligned word only (R292). -/
theorem windowTarget_misshapen_register (c : Config) {offset : Nat} {width : AccessWidth} (h : offset < 0x20)
    (hbad : ¬(width = .word ∧ offset % 4 = 0)) : windowTarget c offset width.bytes = .violation := by
  rw [windowTarget, if_pos h, if_neg (by rwa [AccessWidth.bytes_eq_four_iff])]

/-- A byte of the framebuffer window is reached by a byte access only (R292). -/
theorem windowTarget_misshapen_fbWindow {c : Config} {offset : Nat} {width : AccessWidth} (h : fbWindowBase ≤ offset)
    (hend : offset < fbWindowBase + c.size) (hbad : width ≠ .byte) :
    windowTarget c offset width.bytes = .violation := by
  have hpos := width.bytes_pos
  have hreg : ¬offset < 0x20 := by
    unfold fbWindowBase at h
    omega
  have hwin : offset < fbWindowBase + c.size ∧ fbWindowBase < offset + width.bytes := ⟨hend, by omega⟩
  rw [windowTarget, if_neg hreg, if_pos hwin, if_neg (by rwa [AccessWidth.bytes_eq_one_iff])]

/-- An access that begins at a register or in the framebuffer window ends inside the register window, so what it reaches
depends on its offset alone, wherever the window sits (R283). -/
theorem target_of_lt_fbWindow_end {c : Config} (hc : configWf c = true) {offset : Nat} (h : offset < fbWindowBase + c.size)
    (width : AccessWidth) : target c (c.windowBase + offset) width = windowTarget c offset width.bytes := by
  have hend := fbWindow_end_le hc
  have hle := width.bytes_le
  exact target_windowBase_add c (by omega)

/-- A protocol violation faults, read and write alike (R258, R292). -/
theorem serve_violation {s : State} {address : Nat} {width : AccessWidth} (h : target s.cfg address width = .violation)
    (v : Word) :
    serve (.read address width) s = .fault .hostProtocol ∧ serve (.write address width v) s = .fault .hostProtocol := by
  simp [serve, h]

/-- Settles O15: such an access lies inside the register window (`target_of_lt_fbWindow_end`), where `windowTarget` calls it a
violation. -/
theorem misshapenAccessesFault : Obligations.MisshapenAccessesFault := by
  intro s offset width v hc hbad
  refine serve_violation ?_ v
  rcases hbad with ⟨hreg, hshape⟩ | ⟨hstart, hend, hshape⟩
  · have hlt : offset < fbWindowBase + s.cfg.size := by
      unfold fbWindowBase
      omega
    rw [target_of_lt_fbWindow_end hc hlt, windowTarget_misshapen_register s.cfg hreg hshape]
  · rw [target_of_lt_fbWindow_end hc hend, windowTarget_misshapen_fbWindow hstart hend hshape]

end Sys2Proof.Machine

/-! Proofs about every command: what it leaves alone (spec/10_state.md R31 to R45, spec/20_memory.md R70, R86), and the
invariant of the states between steps (spec/10_state.md section 1). Both are read off `CommandEnds`, one constructor for each
way to end. -/

namespace Sys2Proof.Machine

open Sys2Proof

/-! ## Which fields a command that ends may write -/

theorem mayMoveCursor_of_isText {i : Instr} (h : isText i = true) : mayMoveCursor i = true := by
  cases i with
  | drawChar | drawString | drawNumber | drawSignedNumber => rfl
  | _ => cases h

theorem mayWriteBytes_of_isText {i : Instr} (h : isText i = true) : mayWriteBytes i = true := by
  cases i with
  | drawChar | drawString | drawNumber | drawSignedNumber => rfl
  | _ => cases h

section

variable {s u : State} {i : Instr} {e : ErrCode} (h : CommandEnds s i u e)
include h

/-- Only TOGGLE_INVERT writes `inv` (R34). -/
theorem CommandEnds.inv_eq (hi : i ≠ .toggleInvert) : u.inv = s.inv := by
  cases h with
  | toggleInvert => exact absurd rfl hi
  | drawLine => exact State.autoFlush_inv _
  | init => exact s.initEffect_inv
  | text _ _ _ _ _ hstart | textFlushed _ _ _ _ _ hstart => obtain rfl | ⟨x, y, rfl⟩ := hstart <;> simp
  | _ => rfl

/-- Only SET_CURSOR, INIT and the text commands write the cursor (R33). -/
theorem CommandEnds.sameCursor (hi : mayMoveCursor i = false) : SameCursor s u := by
  cases h with
  | setCursor | init => cases hi
  | drawLine => exact ⟨State.autoFlush_cx _, State.autoFlush_cy _⟩
  | text f c cs ch htext | textFlushed f c cs htext =>
    exact absurd hi (by simp [mayMoveCursor_of_isText htext])
  | _ => exact ⟨rfl, rfl⟩

/-- Only the text commands write `RESULT` (R45). -/
theorem CommandEnds.result_eq (hi : isText i = false) : u.result = s.result := by
  cases h with
  | drawLine => exact State.autoFlush_result _
  | init => exact s.initEffect_result
  | text f c cs ch htext | textFlushed f c cs htext => exact absurd hi (by simp [htext])
  | _ => rfl

/-- Only the drawing commands, CLEAR and INIT write framebuffer bytes (R70). -/
theorem CommandEnds.sameBytes (hi : mayWriteBytes i = false) : SameBytes s u := by
  cases h with
  | fill | writePixel | toggleInvert | drawLine | drawBitmap | clear | clearClosed | init => cases hi
  | text f c cs ch htext | textFlushed f c cs htext =>
    exact absurd hi (by simp [mayWriteBytes_of_isText htext])
  | _ => exact fun k => rfl

/-- Only the commands of the bus write `BUSLOG` (R52). -/
theorem CommandEnds.busLog_eq (hi : i ≠ .init) (hbytes : controllerBytes s.cfg i = none) (hmay : mayTransfer i = false) :
    u.busLog = s.busLog := by
  cases h with
  | drawLine | update | clear => cases hmay
  | init => exact absurd rfl hi
  | controller hsome => cases hbytes.symm.trans hsome
  | text f c cs ch _ hstart _ => obtain rfl | ⟨x, y, rfl⟩ := hstart <;> simp
  | textFlushed f c cs _ hflush => cases hmay.symm.trans hflush
  | _ => rfl

/-- Only INIT uses probe answers and free values (R86). -/
theorem CommandEnds.sameDraws (hi : i ≠ .init) : SameDraws s u := by
  cases h with
  | init => exact absurd rfl hi
  | drawLine => exact ⟨State.autoFlush_probeIn _, State.autoFlush_draws _⟩
  | text _ _ _ _ _ hstart | textFlushed _ _ _ _ _ hstart => obtain rfl | ⟨x, y, rfl⟩ := hstart <;> simp [SameDraws]
  | _ => exact ⟨rfl, rfl⟩

end

/-- Settles O57: field by field, a way to end that writes the field is one of a command that may (`CommandEnds.inv_eq` and
its like); the status write reaches none of these fields. -/
theorem eachFieldHasItsWriters : Obligations.EachFieldHasItsWriters := by
  intro i s t h
  have hinputs := exec_sameInputs h
  obtain ⟨u, e, hu, rfl⟩ := exec_next_cases h
  exact ⟨hu.inv_eq, hu.sameCursor, hu.result_eq, hu.sameBytes, hu.busLog_eq, hinputs⟩

/-- Settles O48: INIT probes once (`State.initEffect_probeIn`, `State.initEffect_draws`), and no other way to end probes
(`CommandEnds.sameDraws`). -/
theorem onlyInitUsesProbeAnswers : Obligations.OnlyInitUsesProbeAnswers := by
  refine fun i s t h => ⟨?_, fun hi => ?_⟩
  · rintro rfl
    cases (exec_init s).symm.trans h
    exact ⟨s.initEffect_probeIn, s.initEffect_draws⟩
  · obtain ⟨u, e, hu, rfl⟩ := exec_next_cases h
    exact hu.sameDraws hi

/-! ## The invariant between steps -/

/-- What holds while a command runs: the invariant but for `BUSY`, `OK` and `ERR`, which the end of the command writes. -/
abbrev CommandInv (s : State) : Prop :=
  configWf s.cfg = true ∧ Memory.wf (fbSpace s.cfg) s.fb = true ∧ Memory.wf srcSpace s.src = true ∧
    s.ctrl ≠ .probing ∧ s.fault = none ∧ s.result.toNat < 256

/-- The status write turns the one invariant into the other (R105, R106). -/
theorem CommandInv.setStatus {s : State} (h : CommandInv s) (e : ErrCode) : Inv (s.setStatus e) := by
  obtain ⟨hcfg, hfb, hsrc, hctrl, hfault, hresult⟩ := h
  exact ⟨hcfg, hfb, hsrc, rfl, hctrl, hfault, beq_iff_eq.1, hresult⟩

/-- A command starts in a state between steps. -/
theorem Inv.start {s : State} (h : Inv s) (opcode : Byte) : CommandInv (s.start opcode) := by
  obtain ⟨hcfg, hfb, hsrc, -, hctrl, hfault, -, hresult⟩ := h
  exact ⟨hcfg, hfb, hsrc, hctrl, hfault, hresult⟩

theorem State.wf_fill (s : State) (c : Color) : Memory.wf (fbSpace s.cfg) (s.fill c).fb = true :=
  s.wf_setBytes fun _ => fillByte c

theorem State.wf_initEffect {s : State} (h : Memory.wf (fbSpace s.cfg) s.fb = true) :
    Memory.wf (fbSpace s.cfg) s.initEffect.fb = true := by
  cases hprobe : s.nextProbe with
  | ready => rw [s.initEffect_ready hprobe]; exact s.wf_fill .black
  | notReady => rw [s.initEffect_notReady hprobe]; exact h

/-- INIT has one effect. -/
theorem CommandEnds.eq_initEffect {s u : State} {e : ErrCode} (h : CommandEnds s .init u e) : u = s.initEffect := by
  cases h with
  | init => rfl
  | controller hbytes | controllerClosed hbytes => cases hbytes
  | badFont htext | text _ _ _ _ htext | textFlushed _ _ _ htext => cases htext

section

variable {s u : State} {i : Instr} {e : ErrCode} (h : CommandEnds s i u e)
include h

/-- Every command leaves the framebuffer in canonical form (R71). -/
theorem CommandEnds.wf_fb (hfb : Memory.wf (fbSpace s.cfg) s.fb = true) : Memory.wf (fbSpace s.cfg) u.fb = true := by
  cases h with
  | fill c => exact s.wf_fill c
  | clear | clearClosed => exact s.wf_fill .black
  | writePixel | drawBitmap => exact s.wf_draw _ hfb
  | drawLine => rw [State.autoFlush_fb]; exact s.wf_draw _ hfb
  | toggleInvert => exact s.wf_toggle
  | init => exact State.wf_initEffect hfb
  | text f c cs ch _ hstart _ => obtain rfl | ⟨x, y, rfl⟩ := hstart <;> exact State.wf_putGlyphs f c cs hfb
  | textFlushed f c cs _ _ hstart =>
    rw [State.autoFlush_fb]
    obtain rfl | ⟨x, y, rfl⟩ := hstart <;> exact State.wf_putGlyphs f c cs hfb
  | _ => exact hfb

/-- PROBING is left within INIT (R35, R226). -/
theorem CommandEnds.ctrl_ne_probing (hctrl : s.ctrl ≠ .probing) : u.ctrl ≠ .probing := by
  by_cases hi : i = .init
  · subst hi
    rw [h.eq_initEffect]
    rcases s.initEffect_ctrl with hc | hc <;> simp [hc]
  · rwa [h.ctrl_eq hi]

/-- `RESULT` is a character or what it was (R45). -/
theorem CommandEnds.result_lt (hresult : s.result.toNat < 256) : u.result.toNat < 256 := by
  have hchar (ch : Byte) : (ch.setWidth 32).toNat < 256 := by
    have := ch.isLt
    simp only [BitVec.toNat_setWidth]
    omega
  cases h with
  | text f c cs ch => exact hchar ch
  | textFlushed f c cs => rw [State.autoFlush_result]; exact hchar 0
  | init => rwa [s.initEffect_result]
  | drawLine => rwa [State.autoFlush_result]
  | _ => exact hresult

theorem CommandEnds.commandInv (hs : CommandInv s) : CommandInv u := by
  obtain ⟨hcfg, hfb, hsrc, hctrl, hfault, hresult⟩ := hs
  obtain ⟨hcfg', -, -, -, -, -, hsrc', -, -, hfault'⟩ := h.sameInputs
  exact ⟨hcfg'.symm ▸ hcfg, hcfg'.symm ▸ h.wf_fb hfb, hsrc'.symm ▸ hsrc, h.ctrl_ne_probing hctrl, hfault'.trans hfault,
    h.result_lt hresult⟩

end

/-- A command that ends leaves a state between steps. -/
theorem exec_inv {i : Instr} {s t : State} (hs : CommandInv s) (h : exec i s = .next t) : Inv t := by
  obtain ⟨u, e, hu, rfl⟩ := exec_next_cases h
  exact (hu.commandInv hs).setStatus e

theorem runCommand_inv {opcode : Byte} {s t : State} (hs : Inv s) (h : runCommand opcode s = .next t) : Inv t := by
  rcases runCommand_next_cases h with ⟨i, -, hexec⟩ | ⟨e, -, rfl⟩
  · exact exec_inv (hs.start opcode) hexec
  · exact (hs.start opcode).setStatus _

theorem writeReg_inv {r : Reg} {v : Word} {s t : State} (hs : Inv s) (h : writeReg r v s = .next t) : Inv t := by
  rcases writeReg_next_cases s h with ⟨-, hrun⟩ | ⟨-, rfl | rfl | rfl | rfl⟩ | rfl
  · exact runCommand_inv hs hrun
  all_goals exact hs

theorem serve_inv {a : HostAccess} {s t : State} (hs : Inv s) (h : serve a s = .next t) : Inv t := by
  rcases serve_next_cases s h with ⟨v, free, rfl⟩ | ⟨r, v, hwrite⟩ | rfl
  · exact hs
  · exact writeReg_inv hs hwrite
  · exact hs

/-- Settles O18: of a step's accesses only the write of `CMD` touches what the invariant speaks of, and the command it runs
keeps the invariant (`exec_inv`): what holds while it runs is kept by every way to end (`CommandEnds.commandInv`). -/
theorem stepKeepsInv : Obligations.StepKeepsInv := by
  intro s t hs h
  obtain ⟨-, -, ⟨-, rfl⟩ | ⟨a, rest, -, hserve⟩⟩ := step_next_cases s h
  · exact hs
  · exact serve_inv (s := { s with host := rest }) hs hserve

theorem inv_resetWith {c : Config} (hc : configWf c = true) : Inv (State.resetWith c) := by
  have hctrl : Ctrl.uninit ≠ .probing := by decide
  exact ⟨hc, Memory.wf_nil _, Memory.wf_nil _, rfl, hctrl, rfl, fun _ => rfl, Nat.zero_lt_succ 255⟩

/-- Settles O2: empty memories are in canonical form, and CFG-A breaks no constraint. -/
theorem resetMeetsInvariant : Obligations.ResetMeetsInvariant :=
  ⟨fun _ hc => inv_resetWith hc, inv_resetWith (by decide)⟩

end Sys2Proof.Machine

/-! Proofs about every command: which ones fault (spec/60_exceptions.md R258; spec/41_rasterizer.md R163), and what drawing
does not see (spec/70_reset_and_hazards.md R284). -/

namespace Sys2Proof.Machine

open Sys2Proof

/-! ## Which commands fault (R258) -/

/-- A text command ends, or is a DRAW_STRING that runs into a byte that is not admitted. -/
theorem exec_text_next_or_fault {i : Instr} (htext : isText i = true) (s : State) :
    (∃ t, exec i s = .next t) ∨
      ((∃ x y src font c, i = .drawString x y src font c) ∧ exec i s = .fault .srcUnmapped) := by
  obtain ⟨font, hfont⟩ := Option.isSome_iff_exists.1 htext
  rcases exec_text_cases s hfont with hbad | ⟨s0, f, c, cs, -, ⟨ch, e, -, hend⟩ | ⟨-, hend⟩ | hfault⟩
  · exact .inl ⟨_, hbad⟩
  · exact .inl ⟨_, hend⟩
  · exact .inl ⟨_, hend⟩
  · exact .inr hfault

/-- Settles O56: every other command answers a state whatever it meets. -/
theorem onlySourceReadsFault : Obligations.OnlySourceReadsFault := by
  intro i s
  cases i with
  | nop | fill | writePixel | toggleInvert | setCursor | drawLine => exact .inl ⟨_, rfl⟩
  | update => exact .inl ⟨_, exec_update s⟩
  | clear => exact .inl ⟨_, exec_clear s⟩
  | init => exact .inl ⟨_, exec_init s⟩
  | setPower | invertHw | scrollRight | scrollLeft | scrollDiagRight | scrollDiagLeft | stopScroll =>
    exact .inl ⟨_, exec_controller s rfl⟩
  | drawBitmap x y src w h c =>
    rw [exec_drawBitmap]
    split_ifs
    · exact .inr ⟨rfl, .inl ⟨x, y, src, w, h, c, rfl⟩⟩
    · exact .inl ⟨_, rfl⟩
  | drawChar | drawString | drawNumber | drawSignedNumber =>
    exact (exec_text_next_or_fault rfl s).imp_right fun h => ⟨h.2, .inr h.1⟩

/-- Settles O35: DRAW_BITMAP faults where the blitter runs into a byte that is not admitted (`exec_drawBitmap`), and that is
where one of the bytes of R163 is not admitted (`blitRows_spec`, `bitmapReadable_iff`). -/
theorem drawBitmapFaultsOffMemory : Obligations.DrawBitmapFaultsOffMemory := by
  intro x y src w h c s
  have hmapped : (blitRows s.src src w x y h 0).unmapped = false ↔ BitmapReadable s src w h :=
    (blitRows_spec s.src src w x y h 0).1.trans (bitmapReadable_iff s src w h).symm
  rw [exec_drawBitmap, ← hmapped, Bool.not_eq_false]
  split_ifs with hu <;> simp [hu]

/-! ## Drawing does not see the controller (R284) -/

/-- The same state but for the controller state and the bus traffic. -/
def State.withController (s : State) (k : Ctrl) (log : List BusTxn) : State := { s with ctrl := k, busLog := log }

/-- `o'` is what `o` is but for the bus traffic, with the controller state `k`. -/
def SameBesideController (k : Ctrl) (o o' : Outcome) : Prop :=
  ∀ t, o = .next t → ∃ log, o' = .next (t.withController k log)

/-- `r'` is the run `r` with the controller state `k` and some bus traffic. -/
def Run.SameBeside (k : Ctrl) (r r' : Run) : Prop :=
  ∃ log, r' = { r with state := r.state.withController k log }

section

variable (s : State) (k : Ctrl) (log : List BusTxn)

theorem conclude_sameBeside {r r' : Run} (h : r.SameBeside k r') : SameBesideController k (conclude r) (conclude r') := by
  obtain ⟨log, rfl⟩ := h
  intro t ht
  obtain ⟨e, he, rfl⟩ := conclude_eq_next ht
  exact ⟨log, by simp only [conclude, he]; rfl⟩

/-- `AutoFlush` asks the controller whether to send, and writes nothing but the bus traffic (R212). -/
theorem State.autoFlush_withController : ∃ log', (s.withController k log).autoFlush = s.autoFlush.withController k log' := by
  unfold State.autoFlush
  split <;> split <;> exact ⟨_, rfl⟩

theorem putChar_withController (f : Font) (c : Color) (ch : Byte) :
    putChar f c ch (s.withController k log) = (putChar f c ch s).map (·.withController k log) := by
  unfold putChar
  simp only [apply_ite (Except.map _)]
  rfl

theorem putChars_withController (f : Font) (c : Color) (chars : List Byte) :
    (putChars f c chars s).SameBeside k (putChars f c chars (s.withController k log)) := by
  induction chars generalizing s with
  | nil => exact ⟨log, rfl⟩
  | cons ch rest ih =>
    rw [putChars, putChars, putChar_withController]
    split_ifs with h0
    · obtain ⟨log', hlog'⟩ := (s.setResult 0).autoFlush_withController k log
      exact ⟨log', congrArg done hlog'⟩
    · cases putChar f c ch s with
      | error e => exact ⟨log, rfl⟩
      | ok s' => exact ih s'

theorem withFont_withController (font : Nat) {run run' : Font → Run} (h : ∀ f, (run f).SameBeside k (run' f)) :
    (withFont font s run).SameBeside k (withFont font (s.withController k log) run') := by
  unfold withFont
  cases hf : s.cfg.fonts[font]? with
  | none => exact ⟨log, by simp [State.withController, hf, raiseErr]⟩
  | some f => simpa [State.withController, hf] using h f


theorem putString_withController (x y : Nat) (f : Font) (c : Color) (chars : List Byte) :
    (putString x y f c chars s).SameBeside k (putString x y f c chars (s.withController k log)) :=
  putChars_withController (s.cursorAt x y) k log f c chars

theorem runDrawChar_withController (ch : Byte) (font : Nat) (c : Color) :
    (runDrawChar ch font c s).SameBeside k (runDrawChar ch font c (s.withController k log)) := by
  refine withFont_withController s k log font fun f => ?_
  rw [putChar_withController]
  cases putChar f c ch s with
  | error e => exact ⟨log, rfl⟩
  | ok s' => exact ⟨log, rfl⟩

end

/-- The commands below opcode 0x30 run alike beside any controller state and bus traffic, unit by unit (R104). -/
theorem exec_withController {i : Instr} (hi : (encode i).opcode.toNat < 0x30) (s : State) (k : Ctrl) (log : List BusTxn) :
    SameBesideController k (exec i s) (exec i (s.withController k log)) := by
  cases i with
  | nop | fill | writePixel | toggleInvert | setCursor => rintro t ⟨⟩; exact ⟨log, rfl⟩
  | drawLine x0 y0 x1 y1 c =>
    rintro t ⟨⟩
    obtain ⟨log', hlog'⟩ := (s.draw (inColor c (clampedLine s.cfg x0 y0 x1 y1))).autoFlush_withController k log
    exact ⟨log', congrArg (fun u => conclude (done u)) hlog'⟩
  | drawBitmap x y src w h c =>
    intro t ht
    rw [exec_drawBitmap] at ht
    split_ifs at ht with hmapped
    cases ht
    exact ⟨log, (exec_drawBitmap _ x y src w h c).trans (if_neg hmapped)⟩
  | drawChar ch font c => exact conclude_sameBeside k (runDrawChar_withController s k log ch font c)
  | drawString x y src font c | drawNumber x y v font c | drawSignedNumber x y v font c =>
    exact conclude_sameBeside k (withFont_withController s k log font fun f => putString_withController s k log x y f c _)
  | update | clear | init | setPower | invertHw | scrollRight | scrollLeft | scrollDiagRight | scrollDiagLeft | stopScroll =>
    exact absurd hi (by simp [encode])

/-- Settles O58: such a command ends in the same state but for the controller state, which it leaves alone, and the bus
traffic (`exec_withController`). -/
theorem drawingIgnoresControllerState : Obligations.DrawingIgnoresControllerState := by
  intro i s t k log hi h
  obtain ⟨log', hlog'⟩ := exec_withController hi s k log t h
  exact ⟨t.withController k log', hlog', rfl, rfl, rfl, rfl, rfl, rfl, rfl, rfl⟩

end Sys2Proof.Machine

/-! Proofs about pixels and characters: the pixel view of R140 (spec/40_framebuffer.md), the characters that fail (R181,
R184), and the strings that are drawn to their end or run off source memory (spec/42_text.md R186, R187; R78). -/

namespace Sys2Proof.Machine

open Sys2Proof

/-! ## The pixel view (R140) -/

theorem stateWf_draw_setStatus {s : State} (hs : StateWf s) (ps : List Pixel) (e : ErrCode) :
    StateWf ((s.draw ps).setStatus e) :=
  ⟨hs.1, s.wf_draw ps hs.2.1, hs.2.2⟩

theorem stateWf_toggle_setStatus {s : State} (hs : StateWf s) (e : ErrCode) : StateWf (s.toggle.setStatus e) :=
  ⟨hs.1, s.wf_toggle, hs.2.2⟩

theorem stateWf_fill_setStatus {s : State} (hs : StateWf s) (c : Color) (e : ErrCode) :
    StateWf ((s.fill c).setStatus e) :=
  ⟨hs.1, s.wf_fill c, hs.2.2⟩

/-- A whole-buffer write gives a pixel the bit of its byte (R72). -/
theorem State.pixel_setBytes {s : State} (hcfg : configWf s.cfg = true) (f : Nat → Byte) {x y : Nat}
    (hon : OnPanel s x y) : (s.setBytes f).pixel x y = (f (pixelIndex s.cfg x y)).getLsbD (y % 8) := by
  obtain ⟨-, -, -, -, h8⟩ := panel_of_configWf hcfg
  exact congrArg (·.getLsbD (y % 8)) (s.fbByte_setBytes f (pixelIndex_lt h8 hon.1 hon.2))

/-- TOGGLE_INVERT flips every pixel (R138). -/
theorem State.pixel_toggle {s : State} (hcfg : configWf s.cfg = true) {x y : Nat} (hon : OnPanel s x y) :
    s.toggle.pixel x y = !s.pixel x y := by
  refine (State.pixel_setBytes hcfg (fun i => ~~~s.fbByte i) hon).trans ?_
  rw [BitVec.getLsbD_not]
  simp [Nat.mod_lt, State.pixel]

/-- FILL sets every pixel, whatever `inv` is (R134). -/
theorem State.pixel_fill {s : State} (hcfg : configWf s.cfg = true) (c : Color) {x y : Nat} (hon : OnPanel s x y) :
    (s.fill c).pixel x y = decide (c = .white) := by
  have hbit : ∀ c, ∀ k < 8, (fillByte c).getLsbD k = decide (c = .white) := by
    rintro (_ | _) <;> decide
  exact (State.pixel_setBytes hcfg (fun _ => fillByte c) hon).trans (hbit c _ (Nat.mod_lt y (by decide)))

/-- What TOGGLE_INVERT and WRITE_PIXEL commands make of a pixel: the colour last asked for there or, where there is none, the
colour it stood for, XOR the present `inv` (R140). -/
theorem execAll_pixel {is : List Instr} {s : State} (hs : StateWf s) (his : ∀ i ∈ is, isPixelCommand i = true) :
    ∃ t, execAll is s = .next t ∧ ∀ x y, OnPanel s x y →
      t.pixel x y =
        match lastWritten x y is with
        | some v => decide (v = .white) ^^ t.inv
        | none => (s.pixel x y ^^ s.inv) ^^ t.inv := by
  induction is generalizing s with
  | nil => exact ⟨s, rfl, fun x y _ => by simp [lastWritten]⟩
  | cons i rest ih =>
    have hrest : ∀ j ∈ rest, isPixelCommand j = true := fun j hj => his j (List.mem_cons_of_mem i hj)
    cases i with
    | toggleInvert =>
      obtain ⟨t, hexec, hpixel⟩ := ih (stateWf_toggle_setStatus hs .none) hrest
      refine ⟨t, hexec, fun x y hon => (hpixel x y hon).trans ?_⟩
      rw [State.pixel_setStatus, State.pixel_toggle hs.1 hon]
      simp [lastWritten]
    | writePixel x' y' c =>
      obtain ⟨t, hexec, hpixel⟩ := ih (stateWf_draw_setStatus hs [⟨x', y', c⟩] .none) hrest
      obtain ⟨-, -, -, -, h8⟩ := panel_of_configWf hs.1
      refine ⟨t, hexec, fun x y hon => (hpixel x y hon).trans ?_⟩
      rw [State.pixel_setStatus, s.pixel_drawPixel x' y' c h8 hs.2.1 hon, lastWritten]
      cases lastWritten x y rest with
      | some v => rfl
      | none => by_cases hxy : x' = x ∧ y' = y <;> simp [hxy]
    | _ => cases his _ List.mem_cons_self

/-- Settles O27: after the FILL a pixel stands for its colour XOR the `inv` of that moment (`State.pixel_fill`), and the
commands after it keep the view (`execAll_pixel`). -/
theorem pixelViewSurvivesToggles : Obligations.PixelViewSurvivesToggles := by
  intro c is s hs his
  obtain ⟨t, hexec, hpixel⟩ := execAll_pixel (stateWf_fill_setStatus hs c .none) his
  refine ⟨t, hexec, fun x y hon => (hpixel x y hon).trans ?_⟩
  rw [State.pixel_setStatus, State.pixel_fill hs.1 c hon]
  rfl

/-! ## Characters that fail (R181, R184) -/

/-- Settles O37: the character fails (`putChar_overflow`, `putChar_glyphRange`), and DRAW_CHAR then writes `RESULT` and the
status (`exec_drawChar`). -/
theorem drawCharFailureDrawsNothing : Obligations.DrawCharFailureDrawsNothing := by
  refine fun ch font c s f hf => ⟨fun hoff => ?_, fun hx hy hglyph => ?_⟩
  · rw [exec_drawChar s ch font c hf, putChar_overflow c ch hoff]
    rfl
  · rw [exec_drawChar s ch font c hf, putChar_glyphRange c hx hy hglyph]
    rfl

/-! ## Strings to their end (R186, R187) -/

/-- None of the characters that a text yields first is its terminator. -/
theorem ne_zero_of_yields {next : Nat → Option Byte} {cs : List Byte} (h : Yields next cs) : ∀ ch ∈ cs, ch ≠ 0 := by
  rintro _ hch rfl
  obtain ⟨k, hk, hget⟩ := List.mem_iff_getElem.1 hch
  exact (h k hk).2 (by rw [List.getElem?_eq_getElem hk, hget])

/-- What is drawn of a text is seen in the framebuffer alone. -/
theorem TextDrawn.congr {f : Font} {c : Color} {cs : List Byte} {x y : Nat} {s t t' : State}
    (h : TextDrawn f c cs x y s t) (hcfg : t'.cfg = t.cfg) (hfb : t'.fb = t.fb) : TextDrawn f c cs x y s t' := by
  have hbyte (i : Nat) : t'.fbByte i = t.fbByte i := by simp [State.fbByte, hcfg, hfb]
  have hpixel (px py : Nat) : t'.pixel px py = t.pixel px py := by simp [State.pixel, hcfg, hbyte]
  exact ⟨fun px py hx hy => (hpixel px py).trans (h.1 px py hx hy), fun i hi => (hbyte i).trans (h.2 i hi)⟩

/-- `AutoFlush`, at the end of a command that has left the bus and the controller alone (R212). -/
theorem State.autoFlush_flushed_of_eq {s v : State} (hlog : v.busLog = s.busLog) (hcfg : v.cfg = s.cfg)
    (hctrl : v.ctrl = s.ctrl) : Flushed s v.autoFlush := by
  have h := v.autoFlush_flushed
  simpa only [Flushed, BusIsOpen, hlog, hcfg, hctrl] using h

/-- Settles O39: past its characters (`exec_textJob_of_fits`) the loop comes to the terminator, which ends it with success
(`putChars_terminator`). -/
theorem textDrawsItsCharacters : Obligations.TextDrawsItsCharacters := by
  intro i s job f cs hi hs hj hf hyields hend hfit hglyphs
  obtain ⟨hx, hy⟩ := textJob_position_lt hi hj
  have hcx := State.cx_putGlyphs_cursorAt job.color hs hx hfit
  have hcy := State.cursorAt_cy_toNat (s := s) (x := job.x) hy
  have hdrawn := State.textDrawn_cursorAt job.color hs hx hfit hy (fontWf_of_getElem hs.1 hf)
  obtain ⟨rest, hexec⟩ := exec_textJob_of_fits hi hs hj hf hyields hend hfit hglyphs
  rw [putChars_terminator, conclude_done] at hexec
  refine ⟨_, hexec, endedOk_setStatus _, hdrawn.congr (by simp) (by simp), by simp, ?_, ?_,
    State.autoFlush_flushed_of_eq (by simp) (by simp) (by simp), by simp, by simp, exec_sameInputs hexec, by simp [SameDraws]⟩
  · simpa using hcx
  · simpa using hcy

/-- A string or number command whose characters run out after some that fit and have glyphs (R78, R186). -/
theorem exec_textJob_runs_out {i : Instr} {s : State} {job : TextJob} {f : Font} {cs : List Byte} (hi : WellFormed i)
    (hs : StateWf s) (hj : textJob s i = some job) (hf : s.cfg.fonts[job.font]? = some f) (hyields : Yields job.next cs)
    (hend : job.next cs.length = none)
    (hfit : cs ≠ [] → job.x + cs.length * f.width ≤ s.cfg.width ∧ job.y + f.height ≤ s.cfg.height)
    (hglyphs : ∀ ch ∈ cs, f.base ≤ ch.toNat ∧ ch.toNat < f.base + f.count) : exec i s = .fault .srcUnmapped := by
  obtain ⟨-, hW, -⟩ := panel_of_configWf hs.1
  obtain ⟨hx, hy⟩ := textJob_position_lt hi hj
  obtain ⟨chars, hexec, hchars⟩ := exec_textJob s hj hf
  have hall : chars = cs ++ [] := ((hchars cs hyields).2 hend).trans (List.append_nil cs).symm
  rw [hexec, hall, putChars_append job.color cs [] (s := s.cursorAt job.x job.y) hW (ne_zero_of_yields hyields) hglyphs]
  · rfl
  · rw [State.cursorAt_cx_toNat hx, State.cursorAt_cy_toNat hy]
    exact hfit

/-- Settles O42, which is the case of DRAW_STRING, whose characters run out at a byte that is not admitted
(`exec_textJob_runs_out`). -/
theorem drawStringFaultsOffMemory : Obligations.DrawStringFaultsOffMemory := by
  intro x y src font c s f cs hi hs hf hyields hend hfit hglyphs
  exact exec_textJob_runs_out hi hs rfl hf hyields hend hfit hglyphs

end Sys2Proof.Machine

/-! Proofs about the host's side: what its accesses read and write (spec/10_state.md R40 to R49, spec/70_reset_and_hazards.md
R287), the commands that its writes of `CMD` start (spec/30_encoding.md R105, R107, R111), and what the configuration must
satisfy (spec/00_scope.md R11 to R13; spec/43_controller.md R233). -/

namespace Sys2Proof.Machine

open Sys2Proof

/-! ## STATUS (R43) -/

theorem ErrCode.code_lt (e : ErrCode) : e.code < 7 := by cases e <;> decide

theorem Ctrl.code_lt (k : Ctrl) : k.code < 4 := by cases k <;> decide

/-- No field of `STATUS` runs into the next. -/
theorem statusWord_toNat (s : State) :
    (statusWord s).toNat =
      s.ok.toNat + s.err.code * 2 + s.busy.toNat * 256 + s.initialized.toNat * 512 + s.inv.toNat * 1024 +
        s.ctrl.code * 4096 := by
  have herr := s.err.code_lt
  have hctrl := s.ctrl.code_lt
  have hok := s.ok.toNat_le
  have hbusy := s.busy.toNat_le
  have hinit := s.initialized.toNat_le
  have hinv := s.inv.toNat_le
  rw [statusWord, BitVec.toNat_ofNat]
  omega

/-- A bit of a word, from the word's value. -/
theorem getLsbD_eq_of_div_mod {w : Word} {k : Nat} {b : Bool} (h : w.toNat / 2 ^ k % 2 = b.toNat) : w.getLsbD k = b := by
  rw [BitVec.getLsbD, Nat.testBit_eq_decide_div_mod_eq, h]
  cases b <;> rfl

/-- A field of a word, from the word's value. -/
theorem extractLsb'_eq_of_div_mod {w : Word} {k n v : Nat} (h : w.toNat / 2 ^ k % 2 ^ n = v % 2 ^ n) :
    w.extractLsb' k n = BitVec.ofNat n v := by
  refine BitVec.eq_of_toNat_eq ?_
  rw [BitVec.extractLsb'_toNat, BitVec.toNat_ofNat, Nat.shiftRight_eq_div_pow, h]

/-- Settles O19: every field is a digit of `STATUS`'s value (`statusWord_toNat`), and the codes are listed. -/
theorem statusWordShowsItsFields : Obligations.StatusWordShowsItsFields := by
  refine ⟨fun s => ?_, rfl, rfl⟩
  have hword := statusWord_toNat s
  have herr := s.err.code_lt
  have hctrl := s.ctrl.code_lt
  have hok := s.ok.toNat_le
  have hbusy := s.busy.toNat_le
  have hinit := s.initialized.toNat_le
  have hinv := s.inv.toNat_le
  refine ⟨getLsbD_eq_of_div_mod ?_, extractLsb'_eq_of_div_mod ?_, extractLsb'_eq_of_div_mod (v := 0) ?_,
    getLsbD_eq_of_div_mod ?_, (getLsbD_eq_of_div_mod (b := s.initialized) ?_).trans (beq_eq_decide _ _),
    getLsbD_eq_of_div_mod ?_, getLsbD_eq_of_div_mod (b := false) ?_, extractLsb'_eq_of_div_mod ?_,
    extractLsb'_eq_of_div_mod (v := 0) ?_⟩
  all_goals
    simp only [hword, Bool.toNat_false]
    omega

/-! ## Reads -/

theorem readReg_of_not_busy {s : State} (h : s.busy = false) :
    readReg .status s = statusWord s ∧ readReg .result s = s.result ∧ readReg .cursor s = cursorWord s := by
  simp [readReg, h]

theorem cursorWord_eq_append (s : State) : cursorWord s = s.cy ++ s.cx := by
  have hx := s.cx.isLt
  have hy := s.cy.isLt
  refine BitVec.eq_of_toNat_eq ?_
  rw [cursorWord, BitVec.toNat_append, ← Nat.shiftLeft_add_eq_or_of_lt hx, Nat.shiftLeft_eq, BitVec.toNat_ofNat]
  omega

/-- While no command runs an answer is no free value, so it changes nothing but where it is kept. -/
theorem State.answer_of_not_busy (s : State) (h : s.busy = false) (v : Word) :
    s.answer v s.busy = { s with rdata := v } := by
  simp [State.answer, h]

/-- A read of a register while no command runs. -/
theorem serve_hostRead_of_not_busy {s : State} (h : s.busy = false) (r : Reg) {v : Word} (hv : readReg r s = v) :
    serve (.read (s.cfg.windowBase + r.offset) .word) s = .next { s with rdata := v } := by
  rw [serve_hostRead, hv, s.answer_of_not_busy h]

/-- A read in the framebuffer window while no command runs (R48). -/
theorem serve_fbWindow_read {s : State} (h : s.busy = false) (hc : configWf s.cfg = true) {i : Nat} (hi : i < s.cfg.size) :
    serve (.read (s.cfg.windowBase + (fbWindowBase + i)) .byte) s =
      .next { s with rdata := (s.fbByte i).setWidth 32 } := by
  rw [← s.answer_of_not_busy h]
  simp [serve, target_fbWindow hc hi, readWindow, h]

/-- Settles O13: register by register (`serve_hostRead_of_not_busy`), and the framebuffer window (`serve_fbWindow_read`). -/
theorem hostReadsReturnRegisters : Obligations.HostReadsReturnRegisters := by
  intro s h
  obtain ⟨hstatus, hresult, hcursor⟩ := readReg_of_not_busy h
  have hread := @serve_hostRead_of_not_busy s h
  exact ⟨hread .cmd rfl, hread .arg0 rfl, hread .arg1 rfl, hread .arg2 rfl, hread .arg3 rfl, hread .status hstatus,
    hread .result hresult, hread .cursor (hcursor.trans (cursorWord_eq_append s)), fun _ hc hi => serve_fbWindow_read h hc hi⟩

/-! ## Writes that nothing sees, and writes that fault -/

theorem serve_fbWindow_write {s : State} (hc : configWf s.cfg = true) {i : Nat} (hi : i < s.cfg.size) (v : Word) :
    serve (.write (s.cfg.windowBase + (fbWindowBase + i)) .byte v) s = .next s := by
  simp [serve, target_fbWindow hc hi]

/-- Past the registers, what touches no byte of the framebuffer window reaches no assigned offset (R49; log 9). -/
theorem target_unassigned {c : Config} {offset : Nat} {width : AccessWidth} (hreg : 0x20 ≤ offset)
    (hend : offset + width.bytes ≤ 2 ^ 32)
    (hmiss : offset + width.bytes ≤ fbWindowBase ∨ fbWindowBase + c.size ≤ offset) :
    target c (c.windowBase + offset) width = .unassigned := by
  rw [target_windowBase_add c hend, windowTarget, if_neg (by omega), if_neg (by omega)]

/-- A bit of a field that reads 0. -/
theorem getLsbD_eq_false_of_extractLsb' {w : Word} {lo n k : Nat} (h : w.extractLsb' lo n = 0) (hlo : lo ≤ k)
    (hk : k < lo + n) : w.getLsbD k = false := by
  have hbit := congrArg (·.getLsbD (k - lo)) h
  simpa [Nat.add_sub_cancel' hlo, show k - lo < n by omega] using hbit

/-- The reserved bits of `STATUS` read 0 (R43). -/
theorem statusWord_reserved (s : State) : statusWord s &&& 0xFFFFC8E0 = 0 := by
  obtain ⟨-, -, h5, -, -, -, h11, -, h14⟩ := statusWordShowsItsFields.1 s
  have hmask : ∀ k < 32, (0xFFFFC8E0 : Word).getLsbD k = true → (5 ≤ k ∧ k < 8) ∨ k = 11 ∨ 14 ≤ k := by decide
  refine BitVec.eq_of_getLsbD_eq fun k hk => ?_
  have hzero : (0 : Word).getLsbD k = false := BitVec.getLsbD_zero
  rw [BitVec.getLsbD_and, hzero, Bool.and_eq_false_iff, or_iff_not_imp_right, Bool.not_eq_false]
  intro hbit
  rcases hmask k hk hbit with ⟨hlo, hhi⟩ | rfl | hlo
  · exact getLsbD_eq_false_of_extractLsb' h5 hlo hhi
  · exact h11
  · exact getLsbD_eq_false_of_extractLsb' h14 hlo hk

/-- Settles O14: the three registers ignore writes (`serve_hostWrite`), as the framebuffer window and unassigned offsets do
(`serve_fbWindow_write`, `target_unassigned`), and the reserved bits lie between the fields (`statusWord_reserved`). -/
theorem readOnlyOffsetsIgnoreWrites : Obligations.ReadOnlyOffsetsIgnoreWrites := by
  refine fun s => ⟨fun v => ?_, fun i v hc hi => serve_fbWindow_write hc hi v,
    fun offset width v hreg hend hmiss => ?_, statusWord_reserved s⟩
  · exact ⟨serve_hostWrite s .status v, serve_hostWrite s .result v, serve_hostWrite s .cursor v⟩
  · have htarget := target_unassigned (c := s.cfg) hreg hend hmiss
    exact ⟨by simp only [serve, htarget], by simp only [serve, htarget]; rfl⟩

/-- A write of `CMD` or of an operand register faults while a command runs (R287). -/
theorem unlessBusy_of_busy {s : State} (h : s.busy = true) (o : Outcome) : unlessBusy s o = .fault .hostProtocol := by
  simp [unlessBusy, h]

/-- Settles O16: the five writes (`unlessBusy_of_busy`), and bit 8 of the word that STATUS then reads as. -/
theorem busyEngineRejectsHostWrites : Obligations.BusyEngineRejectsHostWrites := by
  intro s v h
  have rejected (r : Reg) (o : Outcome) (hr : writeReg r v s = unlessBusy s o) :
      serve (hostWrite s.cfg r v) s = .fault .hostProtocol := by
    rw [serve_hostWrite, hr, unlessBusy_of_busy h]
  refine ⟨rejected .cmd _ rfl, rejected .arg0 _ rfl, rejected .arg1 _ rfl, rejected .arg2 _ rfl, rejected .arg3 _ rfl,
    _, serve_hostRead s .status, ?_⟩
  simp [readReg, h]

/-- Settles O59: what an access outside the window reaches (`target_elsewhere`, `target_below`). -/
theorem accessesOutsideTheWindowMissTheEngine : Obligations.AccessesOutsideTheWindowMissTheEngine := by
  refine fun s address width v => ⟨fun hout => ?_, fun hbelow hinto => ?_⟩
  · have htarget := target_elsewhere s.cfg hout
    exact ⟨by simp only [serve, htarget], s.answer (Config.freeRead s.draws) true, by simp only [serve, htarget], rfl⟩
  · exact serve_violation (target_below s.cfg hbelow hinto) v

/-! ## The commands that the host starts -/

/-- Settles O8: the write of `CMD` runs a command cycle (`step_hostWrite`), whose outcome depends on whether the registers
decode (`runCommand_of_decode`, `runCommand_of_error`). -/
theorem commandWriteRunsTheDecodedCommand : Obligations.CommandWriteRunsTheDecodedCommand := by
  intro s data rest hc hfault hbusy hhost
  have hstep : step s = runCommand (data.setWidth 8) { s with host := rest } :=
    (step_hostWrite s (r := .cmd) hfault hc hhost).trans (unlessBusy_of_not_busy (s := { s with host := rest }) hbusy _)
  refine ⟨fun i hdecode => ?_, fun e hdecode => ?_⟩
  · exact hstep.trans (runCommand_of_decode { s with host := rest } hdecode)
  · exact hstep.trans (runCommand_of_error { s with host := rest } hdecode)

/-- The opcode comes back from the word that the host writes to `CMD`. -/
theorem setWidth_setWidth_opcode (op : Byte) : (op.setWidth 32).setWidth 8 = op := by simp

/-- Settles O9: placing a word puts its operands into the registers and the write of its opcode before the host's other
accesses, which is what a write of `CMD` needs (`commandWriteRunsTheDecodedCommand`). -/
theorem fetchWordRunsItsInstruction : Obligations.FetchWordRunsItsInstruction := by
  intro s nbits w i hc hfault hword
  have hdecode : decode (tableWords nbits w) = .ok i := by
    unfold decodeTableWord at hword
    split at hword
    · cases hword; assumption
    · cases hword
  have hrun := (commandWriteRunsTheDecodedCommand (s.withFetchWord nbits w) _ s.host hc hfault rfl rfl).1 i
  rw [setWidth_setWidth_opcode] at hrun
  exact hrun hdecode

/-! ## Programs (R111) -/

section

variable {M : Host.Core}

theorem run_succ_of_step {k : Nat} {s t : M.State} (h : M.step s = .next t) : M.run (k + 1) s = M.run k t := by
  simp only [Host.Core.run, h]

theorem run_one (s : M.State) : M.run 1 s = M.step s := by
  cases h : M.step s <;> simp only [Host.Core.run, h]

/-- Where the first `j` steps lead to a state, the others go on from there. -/
theorem run_add {j : Nat} (k : Nat) {s t : M.State} (h : M.run j s = .next t) : M.run (j + k) s = M.run k t := by
  induction j generalizing s with
  | zero => cases h; rw [Nat.zero_add]
  | succ j ih =>
    rw [Nat.add_right_comm]
    cases hstep : M.step s with
    | next u =>
      rw [run_succ_of_step hstep] at h ⊢
      exact ih h
    | fault r => simp only [Host.Core.run, hstep, reduceCtorEq] at h
    | refused r => simp only [Host.Core.run, hstep, reduceCtorEq] at h

end

/-- A step that stores an operand register (R42), and the steps after it. -/
theorem run_succ_of_store {r : Reg} {v : Word} {s t : State} {rest : List HostAccess} {k : Nat} (hfault : s.fault = none)
    (hc : configWf s.cfg = true) (hbusy : s.busy = false) (hhost : s.host = hostWrite s.cfg r v :: rest)
    (hstore : writeReg r v { s with host := rest } = unlessBusy { s with host := rest } (.next t)) :
    Host.Core.run core (k + 1) s = Host.Core.run core k t := by
  have hstep : step s = .next t := by
    rw [step_hostWrite s hfault hc hhost, hstore, unlessBusy_of_not_busy (s := { s with host := rest }) hbusy]
  exact run_succ_of_step (M := core) hstep

/-- The state with these operand registers and these accesses of the host still to come. -/
def State.loaded (s : State) (a0 a1 a2 a3 : Word) (later : List HostAccess) : State :=
  { s with arg0 := a0, arg1 := a1, arg2 := a2, arg3 := a3, host := later }

/-- Settles O10: four steps store the operand words (`run_succ_of_store`), and the fifth writes `CMD`, which runs what the
registers then decode to (`commandWriteRunsTheDecodedCommand`, `decode_encode`). -/
theorem assembledCommandRuns : Obligations.AssembledCommandRuns := by
  intro i s rest hi hc hfault hbusy hhost
  let w := encode i
  let later (k : Nat) : List HostAccess := (registerWrites s.cfg i).drop k ++ rest
  have hrun := (commandWriteRunsTheDecodedCommand (s.loaded w.arg0 w.arg1 w.arg2 w.arg3 (later 4)) _ rest hc hfault hbusy
    rfl).1 i
  rw [setWidth_setWidth_opcode] at hrun
  refine Eq.trans ?_ (hrun (decode_encode hi))
  calc core.run 5 s
      = core.run 4 (s.loaded w.arg0 s.arg1 s.arg2 s.arg3 (later 1)) :=
        run_succ_of_store (r := .arg0) hfault hc hbusy hhost rfl
    _ = core.run 3 (s.loaded w.arg0 w.arg1 s.arg2 s.arg3 (later 2)) :=
        run_succ_of_store (r := .arg1) hfault hc hbusy rfl rfl
    _ = core.run 2 (s.loaded w.arg0 w.arg1 w.arg2 s.arg3 (later 3)) :=
        run_succ_of_store (r := .arg2) hfault hc hbusy rfl rfl
    _ = core.run 1 (s.loaded w.arg0 w.arg1 w.arg2 w.arg3 (later 4)) :=
        run_succ_of_store (r := .arg3) hfault hc hbusy rfl rfl
    _ = core.step (s.loaded w.arg0 w.arg1 w.arg2 w.arg3 (later 4)) := run_one (M := core) _

/-- A command that does not read source memory ends (R258). -/
theorem exec_next_of_no_source_read {i : Instr} (hbitmap : (encode i).opcode ≠ 0x11) (hstring : (encode i).opcode ≠ 0x21)
    (s : State) : ∃ t, exec i s = .next t := by
  rcases onlySourceReadsFault i s with hnext | ⟨-, ⟨x, y, src, w, h, c, rfl⟩ | ⟨x, y, src, font, c, rfl⟩⟩
  · exact hnext
  · exact absurd rfl hbitmap
  · exact absurd rfl hstring

/-- A program whose register writes are the host's coming accesses runs to its end: its first command takes five steps
(`assembledCommandRuns`) and leaves a state of the invariant (`exec_inv`), with the same configuration, in which the host's
coming accesses are the writes of the other commands. -/
theorem runsCleanly_of_host_eq {p : List Instr} {s : State} (hs : Inv s) (hhost : s.host = p.flatMap (registerWrites s.cfg))
    (hp : ∀ i ∈ p, WellFormed i ∧ (encode i).opcode ≠ 0x11 ∧ (encode i).opcode ≠ 0x21) :
    RunsCleanly (5 * p.length) s := by
  induction p generalizing s with
  | nil => exact ⟨s, rfl⟩
  | cons i rest ih =>
    obtain ⟨hi, hbitmap, hstring⟩ := hp i List.mem_cons_self
    obtain ⟨hc, hfb, hsrc, hbusy, hctrl, hfault, -, hresult⟩ := hs
    have hrun := assembledCommandRuns i s _ hi hc hfault hbusy hhost
    obtain ⟨t, hexec⟩ := exec_next_of_no_source_read hbitmap hstring _
    rw [hexec] at hrun
    have ht : Inv t := by
      refine exec_inv ?_ hexec
      exact ⟨hc, hfb, hsrc, hctrl, hfault, hresult⟩
    obtain ⟨hcfg, -, -, -, -, -, -, hhost', -⟩ := exec_sameInputs hexec
    obtain ⟨u, hu⟩ := ih ht (hhost'.trans (by rw [hcfg]; rfl)) fun j hj => hp j (List.mem_cons_of_mem i hj)
    refine ⟨u, ?_⟩
    rw [List.length_cons, Nat.mul_add, Nat.add_comm]
    exact (run_add _ hrun).trans hu

/-- Settles O11: placing the program where no access waits makes its register writes the host's coming accesses
(`runsCleanly_of_host_eq`). -/
theorem programsWithoutSourceReadsRunCleanly : Obligations.ProgramsWithoutSourceReadsRunCleanly := by
  intro p s hs hhost hp
  exact runsCleanly_of_host_eq (s := s.withProgram p) hs (by simp [State.withProgram, hhost]) hp

/-! ## The configuration -/

/-- Settles O17: the refusal is `step`'s second check, and the constraints are those of `configWf`, in another order. -/
theorem illFormedConfigurationIsRefused : Obligations.IllFormedConfigurationIsRefused := by
  refine ⟨fun s hfault hc => by simp [step, hfault, hc], fun c => ?_⟩
  simp only [configWf, panelWf, listsWf, fontsWf, fontWf, Bool.and_eq_true, decide_eq_true_eq, List.all_eq_true, and_assoc]
  simp only [Config.pages]
  tauto

/-- Settles O51: the two clauses of `configWf` on lists, and the form that `scrollSeq` gives each kind. -/
theorem scrollListsEndWithActivate : Obligations.ScrollListsEndWithActivate := by
  intro c s e hc
  obtain ⟨-, -, -, -, -, -, hactivate, harea⟩ := (illFormedConfigurationIsRefused.2 c).1 hc
  refine ⟨hactivate, harea, fun kind => ?_, fun kind hkind => ?_⟩
  · cases kind <;> exact ⟨_, rfl⟩
  · rcases hkind with rfl | rfl <;> exact ⟨_, _, rfl⟩

end Sys2Proof.Machine
